-- ==== Sys2Proof/Word.lean ====
section
/-! DEFINITION. The word types: bytes, 16-bit bus addresses and the sparse byte store (00_scope.md section 5, rules R2 and R41). -/

namespace Sys2Proof

/-- A byte: 8 bits, unsigned unless a rule says otherwise (00_scope.md section 5). -/
abbrev Byte := BitVec 8

/-- A 16-bit bus address, and any other 16-bit word (rules R2 and R40). -/
abbrev Addr := BitVec 16

/-- A sparse store of bytes: (key, byte) pairs with strictly rising keys, none of them the byte 0x00, which is
what an unlisted key reads as (log entries 3 and 14). -/
abbrev Memory := List Host.Cell

end Sys2Proof
end

