-- ==== Sys2Proof/Machine/Bits.lean ====
section
/-! DEFINITION. Byte order, pages and sign extension (rules R42, R102, 00_scope.md section 5). -/

namespace Sys2Proof

/-- `{hi, lo}`: the 16-bit value of two bytes, the first argument the byte at the lower address (rule R42). -/
def wordOf (lo hi : Byte) : Addr := hi ++ lo

/-- The low byte of a 16-bit value. -/
def loByte (w : Addr) : Byte := w.extractLsb' 0 8

/-- The high byte of a 16-bit value, which is also the page of an address (glossary, "Page"). -/
def hiByte (w : Addr) : Byte := w.extractLsb' 8 8

/-- The address of a page-zero location (rule R102, `zp8`). -/
def zeroPage (zp8 : Byte) : Addr := zp8.setWidth 16

/-- `sext_8` of a relative offset as 16 bits (rule R102, `rel8`). -/
def signExtend8 (rel8 : Byte) : Addr := rel8.signExtend 16

/-- The address of the stack location named by a stack pointer (rule R55). -/
def stackAddr (sp : Byte) : Addr := wordOf sp 0x01

end Sys2Proof
end

