-- ==== Sys2Proof/Syntax/Mnemonic.lean ====
section
/-! DEFINITION. The 56 mnemonics of the documented instruction set and the fallback `???` (rules R104, R105). -/

namespace Sys2Proof

/-- The operation named by an opcode byte (rule R104), `undoc` for the fallback of rule R245. -/
inductive Mnemonic where
  | adc | and | asl | bcc | bcs | beq | bit | bmi
  | bne | bpl | brk | bvc | bvs | clc | cld | cli
  | clv | cmp | cpx | cpy | dec | dex | dey | eor
  | inc | inx | iny | jmp | jsr | lda | ldx | ldy
  | lsr | nop | ora | pha | php | pla | plp | rol
  | ror | rti | rts | sbc | sec | sed | sei | sta
  | stx | sty | tax | tay | tsx | txa | txs | tya
  | undoc
  deriving DecidableEq, Repr

end Sys2Proof
end

