-- ==== Sys2Proof/Syntax/Operand.lean ====
section
/-! DEFINITION. The twelve instruction formats and their operand bytes (rules R101 and R102). -/

namespace Sys2Proof

/-- The format tags of rule R101; `imp` is implied or accumulator. -/
inductive Mode where
  | imp | imm | zp0 | zpx | zpy | rel | abs | abx | aby | ind | izx | izy
  deriving DecidableEq, Repr

/-- An addressing mode with its operand bytes assembled as rule R102 says: an immediate byte, a page-zero byte,
a relative byte, or the 16-bit value of the two bytes `lo8` and `hi8`. -/
inductive Operand where
  | imp
  | imm (imm8 : Byte)
  | zp0 (zp8 : Byte)
  | zpx (zp8 : Byte)
  | zpy (zp8 : Byte)
  | rel (rel8 : Byte)
  | abs (base : Addr)
  | abx (base : Addr)
  | aby (base : Addr)
  | ind (pointer : Addr)
  | izx (zp8 : Byte)
  | izy (zp8 : Byte)
  deriving DecidableEq, Repr

/-- The format tag of an operand. -/
def Operand.mode : Operand → Mode
  | .imp => .imp
  | .imm _ => .imm
  | .zp0 _ => .zp0
  | .zpx _ => .zpx
  | .zpy _ => .zpy
  | .rel _ => .rel
  | .abs _ => .abs
  | .abx _ => .abx
  | .aby _ => .aby
  | .ind _ => .ind
  | .izx _ => .izx
  | .izy _ => .izy

end Sys2Proof
end

