-- ==== Sys2Proof/Syntax.lean ====
section
/-! DEFINITION. The instructions (rules R100 to R105): one constructor per mnemonic of the opcode table, its
addressing mode an argument, so that a constructor with an operand stands for every row of that mnemonic. -/

namespace Sys2Proof

/-- An instruction: the mnemonic, and its operand where it has one. -/
inductive Instr where
  /-- ADC, rule R140. -/
  | adc (m : Operand)
  /-- SBC, rule R141. -/
  | sbc (m : Operand)
  /-- ASL, rule R150. -/
  | asl (m : Operand)
  /-- LSR, rule R151. -/
  | lsr (m : Operand)
  /-- ROL, rule R152. -/
  | rol (m : Operand)
  /-- ROR, rule R153. -/
  | ror (m : Operand)
  /-- CMP, rule R160. -/
  | cmp (m : Operand)
  /-- CPX, rule R161. -/
  | cpx (m : Operand)
  /-- CPY, rule R162. -/
  | cpy (m : Operand)
  /-- BCC, rule R171. -/
  | bcc (rel8 : Byte)
  /-- BCS, rule R172. -/
  | bcs (rel8 : Byte)
  /-- BEQ, rule R173. -/
  | beq (rel8 : Byte)
  /-- BMI, rule R174. -/
  | bmi (rel8 : Byte)
  /-- BNE, rule R175. -/
  | bne (rel8 : Byte)
  /-- BPL, rule R176. -/
  | bpl (rel8 : Byte)
  /-- BVC, rule R177. -/
  | bvc (rel8 : Byte)
  /-- BVS, rule R178. -/
  | bvs (rel8 : Byte)
  /-- PHA, rule R181. -/
  | pha
  /-- PHP, rule R182. -/
  | php
  /-- PLA, rule R183. -/
  | pla
  /-- PLP, rule R184. -/
  | plp
  /-- JSR, rule R185. -/
  | jsr (target : Addr)
  /-- RTS, rule R186. -/
  | rts
  /-- RTI, rule R187. -/
  | rti
  /-- BRK, rule R188. -/
  | brk
  /-- JMP, rule R189. -/
  | jmp (m : Operand)
  /-- LDA, rule R201. -/
  | lda (m : Operand)
  /-- LDX, rule R202. -/
  | ldx (m : Operand)
  /-- LDY, rule R203. -/
  | ldy (m : Operand)
  /-- STA, rule R204. -/
  | sta (m : Operand)
  /-- STX, rule R205. -/
  | stx (m : Operand)
  /-- STY, rule R206. -/
  | sty (m : Operand)
  /-- TAX, rule R207. -/
  | tax
  /-- TAY, rule R208. -/
  | tay
  /-- TSX, rule R209. -/
  | tsx
  /-- TXA, rule R210. -/
  | txa
  /-- TXS, rule R211. -/
  | txs
  /-- TYA, rule R212. -/
  | tya
  /-- INC, rule R213. -/
  | inc (m : Operand)
  /-- INX, rule R214. -/
  | inx
  /-- INY, rule R215. -/
  | iny
  /-- DEC, rule R216. -/
  | dec (m : Operand)
  /-- DEX, rule R217. -/
  | dex
  /-- DEY, rule R218. -/
  | dey
  /-- CLC, rule R219. -/
  | clc
  /-- CLD, rule R220. -/
  | cld
  /-- CLI, rule R221. -/
  | cli
  /-- CLV, rule R222. -/
  | clv
  /-- SEC, rule R223. -/
  | sec
  /-- SED, rule R224. -/
  | sed
  /-- SEI, rule R225. -/
  | sei
  /-- AND, rule R240. -/
  | and (m : Operand)
  /-- ORA, rule R241. -/
  | ora (m : Operand)
  /-- EOR, rule R242. -/
  | eor (m : Operand)
  /-- BIT, rule R243. -/
  | bit (m : Operand)
  /-- NOP, rule R244. -/
  | nop
  /-- `???`, one of the 105 undocumented opcode bytes, rule R245. -/
  | undoc (op : Byte)
  deriving DecidableEq, Repr

/-- The operation of an instruction. -/
def Instr.mnemonic : Instr → Mnemonic
  | .adc _ => .adc
  | .sbc _ => .sbc
  | .asl _ => .asl
  | .lsr _ => .lsr
  | .rol _ => .rol
  | .ror _ => .ror
  | .cmp _ => .cmp
  | .cpx _ => .cpx
  | .cpy _ => .cpy
  | .bcc _ => .bcc
  | .bcs _ => .bcs
  | .beq _ => .beq
  | .bmi _ => .bmi
  | .bne _ => .bne
  | .bpl _ => .bpl
  | .bvc _ => .bvc
  | .bvs _ => .bvs
  | .pha => .pha
  | .php => .php
  | .pla => .pla
  | .plp => .plp
  | .jsr _ => .jsr
  | .rts => .rts
  | .rti => .rti
  | .brk => .brk
  | .jmp _ => .jmp
  | .lda _ => .lda
  | .ldx _ => .ldx
  | .ldy _ => .ldy
  | .sta _ => .sta
  | .stx _ => .stx
  | .sty _ => .sty
  | .tax => .tax
  | .tay => .tay
  | .tsx => .tsx
  | .txa => .txa
  | .txs => .txs
  | .tya => .tya
  | .inc _ => .inc
  | .inx => .inx
  | .iny => .iny
  | .dec _ => .dec
  | .dex => .dex
  | .dey => .dey
  | .clc => .clc
  | .cld => .cld
  | .cli => .cli
  | .clv => .clv
  | .sec => .sec
  | .sed => .sed
  | .sei => .sei
  | .and _ => .and
  | .ora _ => .ora
  | .eor _ => .eor
  | .bit _ => .bit
  | .nop => .nop
  | .undoc _ => .undoc

/-- The operand of an instruction; `imp` where it has no operand byte. -/
def Instr.operand : Instr → Operand
  | .adc m => m
  | .sbc m => m
  | .asl m => m
  | .lsr m => m
  | .rol m => m
  | .ror m => m
  | .cmp m => m
  | .cpx m => m
  | .cpy m => m
  | .bcc rel8 => .rel rel8
  | .bcs rel8 => .rel rel8
  | .beq rel8 => .rel rel8
  | .bmi rel8 => .rel rel8
  | .bne rel8 => .rel rel8
  | .bpl rel8 => .rel rel8
  | .bvc rel8 => .rel rel8
  | .bvs rel8 => .rel rel8
  | .pha => .imp
  | .php => .imp
  | .pla => .imp
  | .plp => .imp
  | .jsr target => .abs target
  | .rts => .imp
  | .rti => .imp
  | .brk => .imp
  | .jmp m => m
  | .lda m => m
  | .ldx m => m
  | .ldy m => m
  | .sta m => m
  | .stx m => m
  | .sty m => m
  | .tax => .imp
  | .tay => .imp
  | .tsx => .imp
  | .txa => .imp
  | .txs => .imp
  | .tya => .imp
  | .inc m => m
  | .inx => .imp
  | .iny => .imp
  | .dec m => m
  | .dex => .imp
  | .dey => .imp
  | .clc => .imp
  | .cld => .imp
  | .cli => .imp
  | .clv => .imp
  | .sec => .imp
  | .sed => .imp
  | .sei => .imp
  | .and m => m
  | .ora m => m
  | .eor m => m
  | .bit m => m
  | .nop => .imp
  | .undoc _ => .imp

end Sys2Proof
end

