-- ==== Sys2Proof/WellFormed.lean ====
section
/-! DEFINITION. Which instructions exist: the addressing modes each mnemonic has (the "Encodings" line of its
rule) and the undocumented opcode bytes (rule R105). -/

namespace Sys2Proof

/-- The formats a mnemonic is encoded in, from the "Encodings" line of the rule named at each line. -/
def Mnemonic.modes : Mnemonic → List Mode
  | .adc => [.imm, .zp0, .zpx, .abs, .abx, .aby, .izx, .izy] -- R140
  | .sbc => [.imm, .zp0, .zpx, .abs, .abx, .aby, .izx, .izy] -- R141
  | .asl => [.imp, .zp0, .zpx, .abs, .abx] -- R150
  | .lsr => [.imp, .zp0, .zpx, .abs, .abx] -- R151
  | .rol => [.imp, .zp0, .zpx, .abs, .abx] -- R152
  | .ror => [.imp, .zp0, .zpx, .abs, .abx] -- R153
  | .cmp => [.imm, .zp0, .zpx, .abs, .abx, .aby, .izx, .izy] -- R160
  | .cpx => [.imm, .zp0, .abs] -- R161
  | .cpy => [.imm, .zp0, .abs] -- R162
  | .bcc => [.rel] -- R171
  | .bcs => [.rel] -- R172
  | .beq => [.rel] -- R173
  | .bmi => [.rel] -- R174
  | .bne => [.rel] -- R175
  | .bpl => [.rel] -- R176
  | .bvc => [.rel] -- R177
  | .bvs => [.rel] -- R178
  | .pha => [.imp] -- R181
  | .php => [.imp] -- R182
  | .pla => [.imp] -- R183
  | .plp => [.imp] -- R184
  | .jsr => [.abs] -- R185
  | .rts => [.imp] -- R186
  | .rti => [.imp] -- R187
  | .brk => [.imp] -- R188
  | .jmp => [.abs, .ind] -- R189
  | .lda => [.imm, .zp0, .zpx, .abs, .abx, .aby, .izx, .izy] -- R201
  | .ldx => [.imm, .zp0, .zpy, .abs, .aby] -- R202
  | .ldy => [.imm, .zp0, .zpx, .abs, .abx] -- R203
  | .sta => [.zp0, .zpx, .abs, .abx, .aby, .izx, .izy] -- R204
  | .stx => [.zp0, .zpy, .abs] -- R205
  | .sty => [.zp0, .zpx, .abs] -- R206
  | .tax => [.imp] -- R207
  | .tay => [.imp] -- R208
  | .tsx => [.imp] -- R209
  | .txa => [.imp] -- R210
  | .txs => [.imp] -- R211
  | .tya => [.imp] -- R212
  | .inc => [.zp0, .zpx, .abs, .abx] -- R213
  | .inx => [.imp] -- R214
  | .iny => [.imp] -- R215
  | .dec => [.zp0, .zpx, .abs, .abx] -- R216
  | .dex => [.imp] -- R217
  | .dey => [.imp] -- R218
  | .clc => [.imp] -- R219
  | .cld => [.imp] -- R220
  | .cli => [.imp] -- R221
  | .clv => [.imp] -- R222
  | .sec => [.imp] -- R223
  | .sed => [.imp] -- R224
  | .sei => [.imp] -- R225
  | .and => [.imm, .zp0, .zpx, .abs, .abx, .aby, .izx, .izy] -- R240
  | .ora => [.imm, .zp0, .zpx, .abs, .abx, .aby, .izx, .izy] -- R241
  | .eor => [.imm, .zp0, .zpx, .abs, .abx, .aby, .izx, .izy] -- R242
  | .bit => [.zp0, .abs] -- R243
  | .nop => [.imp] -- R244
  | .undoc => [.imp] -- R245

/-- The 105 opcode bytes with no documented instruction, as rule R105 lists them. -/
def undocumentedBytes : List Byte :=
  [0x02, 0x03, 0x04, 0x07, 0x0B, 0x0C, 0x0F, 0x12, 0x13, 0x14, 0x17, 0x1A, 0x1B, 0x1C, 0x1F]
  ++ [0x22, 0x23, 0x27, 0x2B, 0x2F, 0x32, 0x33, 0x34, 0x37, 0x3A, 0x3B, 0x3C, 0x3F, 0x42, 0x43]
  ++ [0x44, 0x47, 0x4B, 0x4F, 0x52, 0x53, 0x54, 0x57, 0x5A, 0x5B, 0x5C, 0x5F, 0x62, 0x63, 0x64]
  ++ [0x67, 0x6B, 0x6F, 0x72, 0x73, 0x74, 0x77, 0x7A, 0x7B, 0x7C, 0x7F, 0x80, 0x82, 0x83, 0x87]
  ++ [0x89, 0x8B, 0x8F, 0x92, 0x93, 0x97, 0x9B, 0x9C, 0x9E, 0x9F, 0xA3, 0xA7, 0xAB, 0xAF, 0xB2]
  ++ [0xB3, 0xB7, 0xBB, 0xBF, 0xC2, 0xC3, 0xC7, 0xCB, 0xCF, 0xD2, 0xD3, 0xD4, 0xD7, 0xDA, 0xDB]
  ++ [0xDC, 0xDF, 0xE2, 0xE3, 0xE7, 0xEB, 0xEF, 0xF2, 0xF3, 0xF4, 0xF7, 0xFA, 0xFB, 0xFC, 0xFF]

/-- An instruction of the machine: its mnemonic has its addressing mode, and a fallback names an undocumented byte. -/
abbrev WellFormed (i : Instr) : Prop :=
  i.operand.mode ∈ i.mnemonic.modes ∧
    match i with
    | .undoc op => op ∈ undocumentedBytes
    | _ => True

end Sys2Proof
end

