-- ==== Sys2Proof/Decode.lean ====
section
/-! DEFINITION. The opcode map (rule R104), the decoder (rules R100 to R105, R108) and the encoder. The map is
written as the matrix of rule R104; the encoder's opcode bytes are written from the "Encodings" line of each
instruction's own rule, so that the two can be held against each other. -/

namespace Sys2Proof

/-- Opcode bytes 0x00 to 0x0F (rule R104). -/
def opcodeRow0 : List (Option (Mnemonic × Mode)) :=
  [some (.brk, .imp), some (.ora, .izx), none, none,
   none, some (.ora, .zp0), some (.asl, .zp0), none,
   some (.php, .imp), some (.ora, .imm), some (.asl, .imp), none,
   none, some (.ora, .abs), some (.asl, .abs), none]

/-- Opcode bytes 0x10 to 0x1F (rule R104). -/
def opcodeRow1 : List (Option (Mnemonic × Mode)) :=
  [some (.bpl, .rel), some (.ora, .izy), none, none,
   none, some (.ora, .zpx), some (.asl, .zpx), none,
   some (.clc, .imp), some (.ora, .aby), none, none,
   none, some (.ora, .abx), some (.asl, .abx), none]

/-- Opcode bytes 0x20 to 0x2F (rule R104). -/
def opcodeRow2 : List (Option (Mnemonic × Mode)) :=
  [some (.jsr, .abs), some (.and, .izx), none, none,
   some (.bit, .zp0), some (.and, .zp0), some (.rol, .zp0), none,
   some (.plp, .imp), some (.and, .imm), some (.rol, .imp), none,
   some (.bit, .abs), some (.and, .abs), some (.rol, .abs), none]

/-- Opcode bytes 0x30 to 0x3F (rule R104). -/
def opcodeRow3 : List (Option (Mnemonic × Mode)) :=
  [some (.bmi, .rel), some (.and, .izy), none, none,
   none, some (.and, .zpx), some (.rol, .zpx), none,
   some (.sec, .imp), some (.and, .aby), none, none,
   none, some (.and, .abx), some (.rol, .abx), none]

/-- Opcode bytes 0x40 to 0x4F (rule R104). -/
def opcodeRow4 : List (Option (Mnemonic × Mode)) :=
  [some (.rti, .imp), some (.eor, .izx), none, none,
   none, some (.eor, .zp0), some (.lsr, .zp0), none,
   some (.pha, .imp), some (.eor, .imm), some (.lsr, .imp), none,
   some (.jmp, .abs), some (.eor, .abs), some (.lsr, .abs), none]

/-- Opcode bytes 0x50 to 0x5F (rule R104). -/
def opcodeRow5 : List (Option (Mnemonic × Mode)) :=
  [some (.bvc, .rel), some (.eor, .izy), none, none,
   none, some (.eor, .zpx), some (.lsr, .zpx), none,
   some (.cli, .imp), some (.eor, .aby), none, none,
   none, some (.eor, .abx), some (.lsr, .abx), none]

/-- Opcode bytes 0x60 to 0x6F (rule R104). -/
def opcodeRow6 : List (Option (Mnemonic × Mode)) :=
  [some (.rts, .imp), some (.adc, .izx), none, none,
   none, some (.adc, .zp0), some (.ror, .zp0), none,
   some (.pla, .imp), some (.adc, .imm), some (.ror, .imp), none,
   some (.jmp, .ind), some (.adc, .abs), some (.ror, .abs), none]

/-- Opcode bytes 0x70 to 0x7F (rule R104). -/
def opcodeRow7 : List (Option (Mnemonic × Mode)) :=
  [some (.bvs, .rel), some (.adc, .izy), none, none,
   none, some (.adc, .zpx), some (.ror, .zpx), none,
   some (.sei, .imp), some (.adc, .aby), none, none,
   none, some (.adc, .abx), some (.ror, .abx), none]

/-- Opcode bytes 0x80 to 0x8F (rule R104). -/
def opcodeRow8 : List (Option (Mnemonic × Mode)) :=
  [none, some (.sta, .izx), none, none,
   some (.sty, .zp0), some (.sta, .zp0), some (.stx, .zp0), none,
   some (.dey, .imp), none, some (.txa, .imp), none,
   some (.sty, .abs), some (.sta, .abs), some (.stx, .abs), none]

/-- Opcode bytes 0x90 to 0x9F (rule R104). -/
def opcodeRow9 : List (Option (Mnemonic × Mode)) :=
  [some (.bcc, .rel), some (.sta, .izy), none, none,
   some (.sty, .zpx), some (.sta, .zpx), some (.stx, .zpy), none,
   some (.tya, .imp), some (.sta, .aby), some (.txs, .imp), none,
   none, some (.sta, .abx), none, none]

/-- Opcode bytes 0xA0 to 0xAF (rule R104). -/
def opcodeRowA : List (Option (Mnemonic × Mode)) :=
  [some (.ldy, .imm), some (.lda, .izx), some (.ldx, .imm), none,
   some (.ldy, .zp0), some (.lda, .zp0), some (.ldx, .zp0), none,
   some (.tay, .imp), some (.lda, .imm), some (.tax, .imp), none,
   some (.ldy, .abs), some (.lda, .abs), some (.ldx, .abs), none]

/-- Opcode bytes 0xB0 to 0xBF (rule R104). -/
def opcodeRowB : List (Option (Mnemonic × Mode)) :=
  [some (.bcs, .rel), some (.lda, .izy), none, none,
   some (.ldy, .zpx), some (.lda, .zpx), some (.ldx, .zpy), none,
   some (.clv, .imp), some (.lda, .aby), some (.tsx, .imp), none,
   some (.ldy, .abx), some (.lda, .abx), some (.ldx, .aby), none]

/-- Opcode bytes 0xC0 to 0xCF (rule R104). -/
def opcodeRowC : List (Option (Mnemonic × Mode)) :=
  [some (.cpy, .imm), some (.cmp, .izx), none, none,
   some (.cpy, .zp0), some (.cmp, .zp0), some (.dec, .zp0), none,
   some (.iny, .imp), some (.cmp, .imm), some (.dex, .imp), none,
   some (.cpy, .abs), some (.cmp, .abs), some (.dec, .abs), none]

/-- Opcode bytes 0xD0 to 0xDF (rule R104). -/
def opcodeRowD : List (Option (Mnemonic × Mode)) :=
  [some (.bne, .rel), some (.cmp, .izy), none, none,
   none, some (.cmp, .zpx), some (.dec, .zpx), none,
   some (.cld, .imp), some (.cmp, .aby), none, none,
   none, some (.cmp, .abx), some (.dec, .abx), none]

/-- Opcode bytes 0xE0 to 0xEF (rule R104). -/
def opcodeRowE : List (Option (Mnemonic × Mode)) :=
  [some (.cpx, .imm), some (.sbc, .izx), none, none,
   some (.cpx, .zp0), some (.sbc, .zp0), some (.inc, .zp0), none,
   some (.inx, .imp), some (.sbc, .imm), some (.nop, .imp), none,
   some (.cpx, .abs), some (.sbc, .abs), some (.inc, .abs), none]

/-- Opcode bytes 0xF0 to 0xFF (rule R104). -/
def opcodeRowF : List (Option (Mnemonic × Mode)) :=
  [some (.beq, .rel), some (.sbc, .izy), none, none,
   none, some (.sbc, .zpx), some (.inc, .zpx), none,
   some (.sed, .imp), some (.sbc, .aby), none, none,
   none, some (.sbc, .abx), some (.inc, .abx), none]

/-- The opcode map of rule R104, indexed by the opcode byte; `none` is an undocumented byte. -/
def opcodeMap : List (Option (Mnemonic × Mode)) :=
  opcodeRow0 ++ opcodeRow1 ++ opcodeRow2 ++ opcodeRow3 ++ opcodeRow4 ++ opcodeRow5 ++ opcodeRow6 ++ opcodeRow7
    ++ opcodeRow8 ++ opcodeRow9 ++ opcodeRowA ++ opcodeRowB ++ opcodeRowC ++ opcodeRowD ++ opcodeRowE ++ opcodeRowF

/-- The entry of an opcode byte in the map: its mnemonic and mode, or `none` where it is undocumented. -/
def opcodeEntry (op : Byte) : Option (Mnemonic × Mode) :=
  (opcodeMap[op.toNat]?).join

/-- The format of every opcode byte; an undocumented byte has format IMP (rule R105). -/
def formatOf (op : Byte) : Mode :=
  match opcodeEntry op with
  | some (_, md) => md
  | none => .imp

/-- Instruction length in bytes, decided by the format alone (rules R100 and R101). -/
def Mode.length : Mode → Nat
  | .imp => 1
  | .imm | .zp0 | .zpx | .zpy | .rel | .izx | .izy => 2
  | .abs | .abx | .aby | .ind => 3

/-- The operand of a format, assembled from bytes 1 and 2 of the instruction (rules R101 and R102). -/
def Mode.assemble (byte1 byte2 : Byte) : Mode → Operand
  | .imp => .imp
  | .imm => .imm byte1
  | .zp0 => .zp0 byte1
  | .zpx => .zpx byte1
  | .zpy => .zpy byte1
  | .rel => .rel byte1
  | .abs => .abs (wordOf byte1 byte2)
  | .abx => .abx (wordOf byte1 byte2)
  | .aby => .aby (wordOf byte1 byte2)
  | .ind => .ind (wordOf byte1 byte2)
  | .izx => .izx byte1
  | .izy => .izy byte1

/-- The instruction of a mnemonic and an operand; `none` where the operand does not fit the constructor. -/
def Instr.make : Mnemonic → Operand → Option Instr
  | .adc, m => some (.adc m)
  | .sbc, m => some (.sbc m)
  | .asl, m => some (.asl m)
  | .lsr, m => some (.lsr m)
  | .rol, m => some (.rol m)
  | .ror, m => some (.ror m)
  | .cmp, m => some (.cmp m)
  | .cpx, m => some (.cpx m)
  | .cpy, m => some (.cpy m)
  | .bcc, .rel rel8 => some (.bcc rel8)
  | .bcs, .rel rel8 => some (.bcs rel8)
  | .beq, .rel rel8 => some (.beq rel8)
  | .bmi, .rel rel8 => some (.bmi rel8)
  | .bne, .rel rel8 => some (.bne rel8)
  | .bpl, .rel rel8 => some (.bpl rel8)
  | .bvc, .rel rel8 => some (.bvc rel8)
  | .bvs, .rel rel8 => some (.bvs rel8)
  | .pha, .imp => some .pha
  | .php, .imp => some .php
  | .pla, .imp => some .pla
  | .plp, .imp => some .plp
  | .jsr, .abs target => some (.jsr target)
  | .rts, .imp => some .rts
  | .rti, .imp => some .rti
  | .brk, .imp => some .brk
  | .jmp, m => some (.jmp m)
  | .lda, m => some (.lda m)
  | .ldx, m => some (.ldx m)
  | .ldy, m => some (.ldy m)
  | .sta, m => some (.sta m)
  | .stx, m => some (.stx m)
  | .sty, m => some (.sty m)
  | .tax, .imp => some .tax
  | .tay, .imp => some .tay
  | .tsx, .imp => some .tsx
  | .txa, .imp => some .txa
  | .txs, .imp => some .txs
  | .tya, .imp => some .tya
  | .inc, m => some (.inc m)
  | .inx, .imp => some .inx
  | .iny, .imp => some .iny
  | .dec, m => some (.dec m)
  | .dex, .imp => some .dex
  | .dey, .imp => some .dey
  | .clc, .imp => some .clc
  | .cld, .imp => some .cld
  | .cli, .imp => some .cli
  | .clv, .imp => some .clv
  | .sec, .imp => some .sec
  | .sed, .imp => some .sed
  | .sei, .imp => some .sei
  | .and, m => some (.and m)
  | .ora, m => some (.ora m)
  | .eor, m => some (.eor m)
  | .bit, m => some (.bit m)
  | .nop, .imp => some .nop
  | _, _ => none

/-- Why bytes are no instruction: every opcode byte has a meaning (rule R103), so only missing bytes can stop a
decoder. -/
inductive DecodeError where
  | noOpcodeByte
  | missingOperandByte (op : Byte)
  | badTable (op : Byte)
  deriving DecidableEq, Repr

/-- The instruction of an opcode byte and the two bytes after it, whether or not it has operand bytes. -/
def instrOf (op byte1 byte2 : Byte) : Except DecodeError Instr :=
  match opcodeEntry op with
  | none => .ok (.undoc op)
  | some (mn, md) =>
    match Instr.make mn (md.assemble byte1 byte2) with
    | some i => .ok i
    | none => .error (.badTable op)

/-- The first instruction of a byte string and the bytes after it (rules R100, R101, R103). -/
def decode : List Byte → Except DecodeError (Instr × List Byte)
  | [] => .error .noOpcodeByte
  | op :: rest =>
    match (formatOf op).length, rest with
    | 1, _ => (instrOf op 0 0).map (·, rest)
    | 2, byte1 :: rest => (instrOf op byte1 0).map (·, rest)
    | 3, byte1 :: byte2 :: rest => (instrOf op byte1 byte2).map (·, rest)
    | _, _ => .error (.missingOperandByte op)

/-- The opcode byte of a mnemonic in a format, from the "Encodings" line of the rule named at each mnemonic. -/
def opcodeOf (mn : Mnemonic) (md : Mode) : Option Byte :=
  match mn with
  | .adc => match md with -- R140
    | .imm => some 0x69
    | .zp0 => some 0x65
    | .zpx => some 0x75
    | .abs => some 0x6D
    | .abx => some 0x7D
    | .aby => some 0x79
    | .izx => some 0x61
    | .izy => some 0x71
    | _ => none
  | .sbc => match md with -- R141
    | .imm => some 0xE9
    | .zp0 => some 0xE5
    | .zpx => some 0xF5
    | .abs => some 0xED
    | .abx => some 0xFD
    | .aby => some 0xF9
    | .izx => some 0xE1
    | .izy => some 0xF1
    | _ => none
  | .asl => match md with -- R150
    | .imp => some 0x0A
    | .zp0 => some 0x06
    | .zpx => some 0x16
    | .abs => some 0x0E
    | .abx => some 0x1E
    | _ => none
  | .lsr => match md with -- R151
    | .imp => some 0x4A
    | .zp0 => some 0x46
    | .zpx => some 0x56
    | .abs => some 0x4E
    | .abx => some 0x5E
    | _ => none
  | .rol => match md with -- R152
    | .imp => some 0x2A
    | .zp0 => some 0x26
    | .zpx => some 0x36
    | .abs => some 0x2E
    | .abx => some 0x3E
    | _ => none
  | .ror => match md with -- R153
    | .imp => some 0x6A
    | .zp0 => some 0x66
    | .zpx => some 0x76
    | .abs => some 0x6E
    | .abx => some 0x7E
    | _ => none
  | .cmp => match md with -- R160
    | .imm => some 0xC9
    | .zp0 => some 0xC5
    | .zpx => some 0xD5
    | .abs => some 0xCD
    | .abx => some 0xDD
    | .aby => some 0xD9
    | .izx => some 0xC1
    | .izy => some 0xD1
    | _ => none
  | .cpx => match md with -- R161
    | .imm => some 0xE0
    | .zp0 => some 0xE4
    | .abs => some 0xEC
    | _ => none
  | .cpy => match md with -- R162
    | .imm => some 0xC0
    | .zp0 => some 0xC4
    | .abs => some 0xCC
    | _ => none
  | .bcc => match md with -- R171
    | .rel => some 0x90
    | _ => none
  | .bcs => match md with -- R172
    | .rel => some 0xB0
    | _ => none
  | .beq => match md with -- R173
    | .rel => some 0xF0
    | _ => none
  | .bmi => match md with -- R174
    | .rel => some 0x30
    | _ => none
  | .bne => match md with -- R175
    | .rel => some 0xD0
    | _ => none
  | .bpl => match md with -- R176
    | .rel => some 0x10
    | _ => none
  | .bvc => match md with -- R177
    | .rel => some 0x50
    | _ => none
  | .bvs => match md with -- R178
    | .rel => some 0x70
    | _ => none
  | .pha => match md with -- R181
    | .imp => some 0x48
    | _ => none
  | .php => match md with -- R182
    | .imp => some 0x08
    | _ => none
  | .pla => match md with -- R183
    | .imp => some 0x68
    | _ => none
  | .plp => match md with -- R184
    | .imp => some 0x28
    | _ => none
  | .jsr => match md with -- R185
    | .abs => some 0x20
    | _ => none
  | .rts => match md with -- R186
    | .imp => some 0x60
    | _ => none
  | .rti => match md with -- R187
    | .imp => some 0x40
    | _ => none
  | .brk => match md with -- R188
    | .imp => some 0x00
    | _ => none
  | .jmp => match md with -- R189
    | .abs => some 0x4C
    | .ind => some 0x6C
    | _ => none
  | .lda => match md with -- R201
    | .imm => some 0xA9
    | .zp0 => some 0xA5
    | .zpx => some 0xB5
    | .abs => some 0xAD
    | .abx => some 0xBD
    | .aby => some 0xB9
    | .izx => some 0xA1
    | .izy => some 0xB1
    | _ => none
  | .ldx => match md with -- R202
    | .imm => some 0xA2
    | .zp0 => some 0xA6
    | .zpy => some 0xB6
    | .abs => some 0xAE
    | .aby => some 0xBE
    | _ => none
  | .ldy => match md with -- R203
    | .imm => some 0xA0
    | .zp0 => some 0xA4
    | .zpx => some 0xB4
    | .abs => some 0xAC
    | .abx => some 0xBC
    | _ => none
  | .sta => match md with -- R204
    | .zp0 => some 0x85
    | .zpx => some 0x95
    | .abs => some 0x8D
    | .abx => some 0x9D
    | .aby => some 0x99
    | .izx => some 0x81
    | .izy => some 0x91
    | _ => none
  | .stx => match md with -- R205
    | .zp0 => some 0x86
    | .zpy => some 0x96
    | .abs => some 0x8E
    | _ => none
  | .sty => match md with -- R206
    | .zp0 => some 0x84
    | .zpx => some 0x94
    | .abs => some 0x8C
    | _ => none
  | .tax => match md with -- R207
    | .imp => some 0xAA
    | _ => none
  | .tay => match md with -- R208
    | .imp => some 0xA8
    | _ => none
  | .tsx => match md with -- R209
    | .imp => some 0xBA
    | _ => none
  | .txa => match md with -- R210
    | .imp => some 0x8A
    | _ => none
  | .txs => match md with -- R211
    | .imp => some 0x9A
    | _ => none
  | .tya => match md with -- R212
    | .imp => some 0x98
    | _ => none
  | .inc => match md with -- R213
    | .zp0 => some 0xE6
    | .zpx => some 0xF6
    | .abs => some 0xEE
    | .abx => some 0xFE
    | _ => none
  | .inx => match md with -- R214
    | .imp => some 0xE8
    | _ => none
  | .iny => match md with -- R215
    | .imp => some 0xC8
    | _ => none
  | .dec => match md with -- R216
    | .zp0 => some 0xC6
    | .zpx => some 0xD6
    | .abs => some 0xCE
    | .abx => some 0xDE
    | _ => none
  | .dex => match md with -- R217
    | .imp => some 0xCA
    | _ => none
  | .dey => match md with -- R218
    | .imp => some 0x88
    | _ => none
  | .clc => match md with -- R219
    | .imp => some 0x18
    | _ => none
  | .cld => match md with -- R220
    | .imp => some 0xD8
    | _ => none
  | .cli => match md with -- R221
    | .imp => some 0x58
    | _ => none
  | .clv => match md with -- R222
    | .imp => some 0xB8
    | _ => none
  | .sec => match md with -- R223
    | .imp => some 0x38
    | _ => none
  | .sed => match md with -- R224
    | .imp => some 0xF8
    | _ => none
  | .sei => match md with -- R225
    | .imp => some 0x78
    | _ => none
  | .and => match md with -- R240
    | .imm => some 0x29
    | .zp0 => some 0x25
    | .zpx => some 0x35
    | .abs => some 0x2D
    | .abx => some 0x3D
    | .aby => some 0x39
    | .izx => some 0x21
    | .izy => some 0x31
    | _ => none
  | .ora => match md with -- R241
    | .imm => some 0x09
    | .zp0 => some 0x05
    | .zpx => some 0x15
    | .abs => some 0x0D
    | .abx => some 0x1D
    | .aby => some 0x19
    | .izx => some 0x01
    | .izy => some 0x11
    | _ => none
  | .eor => match md with -- R242
    | .imm => some 0x49
    | .zp0 => some 0x45
    | .zpx => some 0x55
    | .abs => some 0x4D
    | .abx => some 0x5D
    | .aby => some 0x59
    | .izx => some 0x41
    | .izy => some 0x51
    | _ => none
  | .bit => match md with -- R243
    | .zp0 => some 0x24
    | .abs => some 0x2C
    | _ => none
  | .nop => match md with -- R244
    | .imp => some 0xEA
    | _ => none
  | .undoc => none

/-- The opcode byte of an instruction; `none` for a term that is no instruction. -/
def Instr.opcode : Instr → Option Byte
  | .undoc op => if opcodeEntry op = none then some op else none
  | i => opcodeOf i.mnemonic i.operand.mode

/-- The operand bytes of an instruction, low byte first (rules R42 and R101). -/
def Operand.bytes : Operand → List Byte
  | .imp => []
  | .imm b | .zp0 b | .zpx b | .zpy b | .rel b | .izx b | .izy b => [b]
  | .abs w | .abx w | .aby w | .ind w => [loByte w, hiByte w]

/-- The length of an instruction in bytes (rule R100). -/
def Instr.length (i : Instr) : Nat := i.operand.mode.length

/-- The bytes of a well-formed instruction, opcode byte first (rule R101); no bytes for any other term. -/
def encode (i : Instr) : List Byte :=
  match i.opcode with
  | some op => op :: i.operand.bytes
  | none => []

/-- The three bytes an instruction of at most `nbits` given bits lies in: the first byte is bits 7:0, the bits above
`nbits` are 0 (rule R101, bytes at ascending addresses). -/
def tableBytes (nbits w : Nat) : List Byte :=
  let v := w % 2 ^ nbits
  [BitVec.ofNat 8 v, BitVec.ofNat 8 (v / 256), BitVec.ofNat 8 (v / 65536)]

/-- The instruction the decoder reads from the bits `w` of a row of the opcode table. -/
def decodeTableWord (nbits w : Nat) : Option Instr :=
  match decode (tableBytes nbits w) with
  | .ok (i, _) => some i
  | .error _ => none

end Sys2Proof
end

