-- ==== Sys2Proof/Machine/Flags.lean ====
section
/-! DEFINITION. The status register's bits (rules R13 to R16) and every flag computation of the instruction rules. -/

namespace Sys2Proof.Machine

/-- The bits of P by the letters of rule R13. -/
inductive Flag where
  | c | z | i | d | b | u | v | n
  deriving DecidableEq, Repr

/-- The mask column of rule R13. -/
def Flag.mask : Flag → Byte
  | .c => 0x01
  | .z => 0x02
  | .i => 0x04
  | .d => 0x08
  | .b => 0x10
  | .u => 0x20
  | .v => 0x40
  | .n => 0x80

/-- The value of one flag of a status byte. -/
def getFlag (p : Byte) (f : Flag) : Bool := p &&& f.mask != 0

/-- A status byte with one flag set to a value, the other seven unchanged. -/
def putFlag (p : Byte) (f : Flag) (value : Bool) : Byte :=
  if value then p ||| f.mask else p &&& ~~~f.mask

/-- `setZN(v)`: Z when the byte is zero, N its bit 7 (rule R200). -/
def setZN (p v : Byte) : Byte := putFlag (putFlag p .z (v == 0)) .n v.msb

/-! ADC and SBC (rules R140 and R141). SBC uses the same functions on the complemented operand. -/

/-- The "16-bit intermediate sum" `A + M + P.C`, 0 to 511. -/
def addSum (a m : Byte) (carryIn : Bool) : Nat := a.toNat + m.toNat + carryIn.toNat

/-- `s mod 256`. -/
def addByte (a m : Byte) (carryIn : Bool) : Byte := BitVec.ofNat 8 (addSum a m carryIn)

/-- `s[8]`. -/
def addCarry (a m : Byte) (carryIn : Bool) : Bool := (addSum a m carryIn).testBit 8

/-- `(NOT8(A XOR M) AND (A XOR r) AND 0x80) != 0`, with `A` the old accumulator. -/
def addOverflow (a m r : Byte) : Bool := ~~~(a ^^^ m) &&& (a ^^^ r) &&& 0x80 != 0

/-- C, Z, N and V after an addition; `P.D` is not read (rule R16). -/
def addStatus (p a m : Byte) : Byte :=
  let r := addByte a m (getFlag p .c)
  putFlag (setZN (putFlag p .c (addCarry a m (getFlag p .c))) r) .v (addOverflow a m r)

/-! Shifts and rotates (rules R150 to R153): the result byte and the bit shifted out. -/

def aslByte (m : Byte) : Byte := m <<< 1
def lsrByte (m : Byte) : Byte := m >>> 1
def rolByte (m : Byte) (carryIn : Bool) : Byte := m <<< 1 ||| (if carryIn then 0x01 else 0x00)
def rorByte (m : Byte) (carryIn : Bool) : Byte := (if carryIn then 0x80 else 0x00) ||| m >>> 1

/-- C, Z and N after a shift: the bit shifted out, and the result. -/
def shiftStatus (p : Byte) (carryOut : Bool) (r : Byte) : Byte := setZN (putFlag p .c carryOut) r

/-- C, Z and N after comparing a register with an operand (`compare(R)`, 43_compare.md). -/
def compareStatus (p register m : Byte) : Byte :=
  setZN (putFlag p .c (decide (m.toNat ≤ register.toNat))) (register - m)

/-- Z, N and V of BIT (rule R243). -/
def bitStatus (p a m : Byte) : Byte :=
  putFlag (putFlag (putFlag p .z (a &&& m == 0)) .n m.msb) .v (m.getLsbD 6)

/-! Status bytes pushed and pulled (rules R15, R182, R184, R187, R188, R253, R254). -/

/-- The copy PHP and BRK push: B and U set. -/
def pushedByProgram (p : Byte) : Byte := p ||| 0x30

/-- The copy irq() and nmi() push: B cleared, U set. -/
def pushedByInterrupt (p : Byte) : Byte := p &&& 0xEF ||| 0x20

/-- P after a pulled byte: U forced to 1, every other bit from the byte. -/
def pulledStatus (v : Byte) : Byte := v ||| 0x20

end Sys2Proof.Machine
end

