-- ==== Sys2Proof/Machine/Memory.lean ====
section
/-! DEFINITION. The sparse byte store behind RAM, MirroredRAM, CHR-RAM and the cartridge's ROMs: one canonical list of
(key, byte), keys strictly rising, no byte 0x00 listed (rules R21, R22, R24; log entries 3 and 14). -/

namespace Sys2Proof

/-- What a key nothing is listed for reads as (RAM_INIT of State.reset: DESIGN CHOICE, unsafe, log entry 3). -/
def Memory.unlisted : Byte := 0x00

/-- The byte at a key. -/
def Memory.read : Memory → Nat → Byte
  | [], _ => Memory.unlisted
  | (k, v) :: rest, key => if k = key then v else Memory.read rest key

/-- The store with one byte replaced; the byte of an unlisted key is not listed. -/
def Memory.write : Memory → Nat → Byte → Memory
  | [], key, v => if v = Memory.unlisted then [] else [(key, v)]
  | (k, w) :: rest, key, v =>
    if k < key then (k, w) :: Memory.write rest key v
    else
      let later := if k = key then rest else (k, w) :: rest
      if v = Memory.unlisted then later else (key, v) :: later

/-- The canonical form: keys strictly rising, no entry equal to what an unlisted key reads as. -/
def Memory.wf : Memory → Bool
  | [] => true
  | (k, v) :: rest => v != Memory.unlisted && rest.all (fun c => decide (k < c.1)) && Memory.wf rest

/-- The store that holds a byte string from a first key on. -/
def Memory.ofBytes : Nat → List Byte → Memory
  | _, [] => []
  | key, v :: rest =>
    if v = Memory.unlisted then Memory.ofBytes (key + 1) rest else (key, v) :: Memory.ofBytes (key + 1) rest

end Sys2Proof
end

