-- ==== Sys2Proof/Config.lean ====
section
/-! DEFINITION. What one machine fixes and no step changes: the parameters of rule R3, the wiring (rules R46 to R53)
and the cartridge (rule R22). A claim quantifies over them; the spec's defaults are in Machine/Defaults.lean. -/

namespace Sys2Proof

/-- The kinds of device on the CPU bus, a closed set (rule R46). The PPU-side half of a mapper pair is not on the
CPU bus (rule R40). -/
inductive DeviceKind where
  /-- RAM, rule R51. -/
  | ram
  /-- MirroredRAM with its page size, rule R52. -/
  | mirroredRam (pageSize : Nat)
  /-- The CPU-side half of the cartridge's mapper pair, rules R65 to R70. -/
  | prgMapper
  deriving DecidableEq, Repr

/-- A MappedDevice: its kind and its inclusive address range as declared at registration (rule R46). -/
structure Device where
  kind : DeviceKind
  start : Nat
  stop : Nat
  deriving DecidableEq, Repr

/-- The three supported mappers (rules R62 and R63). -/
inductive MapperKind where
  | nrom | uxrom | cnrom
  deriving DecidableEq, Repr

/-- The cartridge configuration of rule R22, immutable after the load. -/
structure Cartridge where
  mapper : MapperKind
  mapperId : Byte
  prgBanks : Nat
  chrBanks : Nat
  /-- Header byte 6 bit 0, carried and read by nothing (rule R77). -/
  mirroring : Bool
  /-- Header byte 6 bit 1 (rules R61 and R73). -/
  extRam : Bool
  /-- `PRG`, `prgBanks * 16384` bytes. -/
  prg : Memory
  /-- `CHR`, `chrBanks * 8192` bytes. -/
  chr : Memory
  deriving DecidableEq, Repr

/-- The parameters of rule R3. `RAM_INIT` is the launch memory of a state; `EXT_RAM_MAPPED` is part of the wiring. -/
structure Config where
  /-- `SP_RESET`. -/
  spReset : Byte
  /-- The cycle column of the 256-entry table of rule R103: `BASE_CYCLES[op]` at a documented opcode byte,
  `UNDOC_CYCLES[op]` at an undocumented one. -/
  cycleTable : List Nat
  /-- `AGREES_EXTRA`. -/
  agreesExtra : List Mnemonic
  /-- `BANK_RESET`. -/
  bankReset : Nat
  /-- First address of `CHR_WINDOW` on the PPU-side bus. -/
  chrWindowStart : Nat
  /-- Last address of `CHR_WINDOW`. -/
  chrWindowStop : Nat
  /-- `MAPPER_ID_NROM`. -/
  mapperIdNrom : Byte
  /-- `MAPPER_ID_UXROM`. -/
  mapperIdUxrom : Byte
  /-- `MAPPER_ID_CNROM`. -/
  mapperIdCnrom : Byte
  /-- `TV_NTSC`. -/
  tvNtsc : BitVec 2
  /-- The wiring of the CPU bus: the registered devices in registration order (rule R47). -/
  wiring : List Device
  deriving DecidableEq, Repr

end Sys2Proof
end

