-- ==== Sys2Proof/Machine/Defaults.lean ====
section
/-! DEFINITION. The spec's defaults of the parameters of rule R3, the reference wiring of rule R53 and the blank
cartridge of State.reset (log entries 1, 2 and 4). -/

namespace Sys2Proof.Machine

/-- Default `BASE_CYCLES` (rule R104) and `UNDOC_CYCLES` (2 for every slot, rule R245), by opcode byte. -/
def defaultCycleTable : List Nat :=
  [7, 6, 2, 2, 2, 3, 5, 2, 3, 2, 2, 2, 2, 4, 6, 2] -- 0x00
    ++ [2, 5, 2, 2, 2, 4, 6, 2, 2, 4, 2, 2, 2, 4, 7, 2] -- 0x10
    ++ [6, 6, 2, 2, 3, 3, 5, 2, 4, 2, 2, 2, 4, 4, 6, 2] -- 0x20
    ++ [2, 5, 2, 2, 2, 4, 6, 2, 2, 4, 2, 2, 2, 4, 7, 2] -- 0x30
    ++ [6, 6, 2, 2, 2, 3, 5, 2, 3, 2, 2, 2, 3, 4, 6, 2] -- 0x40
    ++ [2, 5, 2, 2, 2, 4, 6, 2, 2, 4, 2, 2, 2, 4, 7, 2] -- 0x50
    ++ [6, 6, 2, 2, 2, 3, 5, 2, 4, 2, 2, 2, 5, 4, 6, 2] -- 0x60
    ++ [2, 5, 2, 2, 2, 4, 6, 2, 2, 4, 2, 2, 2, 4, 7, 2] -- 0x70
    ++ [2, 6, 2, 2, 3, 3, 3, 2, 2, 2, 2, 2, 4, 4, 4, 2] -- 0x80
    ++ [2, 6, 2, 2, 4, 4, 4, 2, 2, 5, 2, 2, 2, 5, 2, 2] -- 0x90
    ++ [2, 6, 2, 2, 3, 3, 3, 2, 2, 2, 2, 2, 4, 4, 4, 2] -- 0xA0
    ++ [2, 5, 2, 2, 4, 4, 4, 2, 2, 4, 2, 2, 4, 4, 4, 2] -- 0xB0
    ++ [2, 6, 2, 2, 3, 3, 5, 2, 2, 2, 2, 2, 4, 4, 6, 2] -- 0xC0
    ++ [2, 5, 2, 2, 2, 4, 6, 2, 2, 4, 2, 2, 2, 4, 7, 2] -- 0xD0
    ++ [2, 6, 2, 2, 3, 3, 5, 2, 2, 2, 2, 2, 4, 4, 6, 2] -- 0xE0
    ++ [2, 5, 2, 2, 2, 4, 6, 2, 2, 4, 2, 2, 2, 4, 7, 2] -- 0xF0

/-- Default `AGREES_EXTRA` (rules R3 and R134). -/
def defaultAgreesExtra : List Mnemonic :=
  [.adc, .and, .cmp, .eor, .lda, .ldx, .ldy, .ora, .sbc]

/-- The reference wiring of rule R53 in ascending order of address; the argument is `EXT_RAM_MAPPED` (rule R73). -/
def referenceWiring (extRamMapped : Bool) : List Device :=
  [{ kind := .mirroredRam 0x0800, start := 0x0000, stop := 0x1FFF }]
    ++ (if extRamMapped then [{ kind := .ram, start := 0x6000, stop := 0x7FFF }] else [])
    ++ [{ kind := .prgMapper, start := 0x8000, stop := 0xFFFF }]

/-- The wiring the test vectors of 95_test_vectors.md use: one RAM device over the whole space. -/
def flatWiring : List Device :=
  [{ kind := .ram, start := 0x0000, stop := 0xFFFF }]

/-- Every parameter at the default of rule R3, over a given wiring. -/
def defaultConfig (wiring : List Device) : Config where
  spReset := 0xFD
  cycleTable := defaultCycleTable
  agreesExtra := defaultAgreesExtra
  bankReset := 0
  chrWindowStart := 0x0000
  chrWindowStop := 0x1FFF
  mapperIdNrom := 0
  mapperIdUxrom := 2
  mapperIdCnrom := 3
  tvNtsc := 0
  wiring := wiring

/-- A blank cartridge: the header of vector V70 (NROM, one PRG bank, one CHR bank) and every byte 0x00
(DESIGN CHOICE, unsafe, log entry 2). -/
def blankCartridge : Cartridge where
  mapper := .nrom
  mapperId := 0
  prgBanks := 1
  chrBanks := 1
  mirroring := false
  extRam := false
  prg := []
  chr := []

end Sys2Proof.Machine
end

