-- ==== Sys2Proof/Machine/State.lean ====
section
/-! DEFINITION. The state of the machine (10_state.md), the reasons a step can stop, and the state right after
reset(). INVENTORY.md lists every field with its rule and its reset value. -/

namespace Sys2Proof.Machine

/-- The host's calls and the PPU-side master's accesses (rule R291). -/
inductive HostEvent where
  /-- reset(), rule R280. -/
  | reset
  /-- clock(), rule R282. -/
  | clock
  /-- irq(), rule R253. -/
  | irq
  /-- nmi(), rule R254. -/
  | nmi
  /-- The host sets PC, rule R265. -/
  | forcePc (target : Addr)
  /-- `Peek(addr)`, rule R50: an inspection read by the host. -/
  | peek (address : Addr)
  /-- The disassembly of an inclusive address range, rule R107. -/
  | disassemble (first last : Addr)
  /-- A read on the PPU-side bus, rule R71. -/
  | ppuRead (address : Addr)
  /-- A write on the PPU-side bus, rule R71. -/
  | ppuWrite (address : Addr) (value : Byte)
  deriving DecidableEq, Repr

/-- The machine. Rule numbers are those of 10_state.md. -/
structure State where
  /-- Accumulator (R10). -/
  a : Byte
  /-- Index register X (R10). -/
  x : Byte
  /-- Index register Y (R10). -/
  y : Byte
  /-- Stack pointer (R11). -/
  sp : Byte
  /-- Program counter (R12). -/
  pc : Addr
  /-- Status register (R13): C, Z, I, D, B, U, V, N from bit 0 up. -/
  p : Byte
  /-- In-flight cycle counter (R17). -/
  cycles : Nat
  /-- Backing bytes of the RAM and MirroredRAM devices (R21). -/
  mem : Memory
  /-- UxROM bank-select register (R23). -/
  prgBank : Nat
  /-- CNROM bank-select register (R23). -/
  chrBank : Nat
  /-- CHR-RAM (R24). -/
  chrRam : Memory
  /-- Cartridge configuration (R22), constant. -/
  cart : Cartridge
  /-- Parameters and wiring (R3, R20, R27), constant. -/
  cfg : Config
  /-- Fault latch (R25): the address of the access that aborted the run. -/
  fault : Option Addr
  /-- Whether reset() has been applied (R281; DESIGN CHOICE, safe, log entry 8). -/
  started : Bool
  /-- The host's calls still to come, the next one first (R255, R291; DESIGN CHOICE, safe, log entry 7). -/
  host : List HostEvent
  deriving DecidableEq, Repr

/-- Why the machine stops. -/
inductive Fault where
  /-- Raised by any bus access to an address no device claims, a Peek of the host included, and by a step of a machine
  whose latch holds that address (rules R49, R251, R25). The spec's own terminal event: safe. -/
  | busAbort (address : Addr)
  deriving DecidableEq, Repr

/-- Why a step is not taken. -/
inductive Refusal where
  /-- Raised by exec for an instruction without a meaning; none is left. Safe. -/
  | notModelled (mnemonic : String)
  /-- Raised by exec for a term of `Instr` that no bytes decode to (its mnemonic has no such addressing mode, or the
  byte of a fallback is documented). Safe: no run reaches it. -/
  | illFormed
  /-- Raised by clock() if the fetched bytes do not decode; decoding is total, so no run reaches it. Safe. -/
  | undecodable
  /-- Raised by clock(), irq(), nmi() and a forced PC before the first reset() (rules R281, R265). Safe. -/
  | beforeReset
  /-- Raised by a forced PC while an instruction is counting down (rule R265, D40). Safe. -/
  | forcePcWhileBusy
  /-- Raised by a PPU-side access outside CHR_WINDOW: it acts on devices out of scope (rules R40, R71). Safe. -/
  | outsideChrWindow
  deriving DecidableEq, Repr

/-- What an instruction, an event or a step answers. -/
abbrev Outcome := Host.Outcome State Fault Refusal

/-- The machine right after reset() (rule R26) on the reference wiring with a blank cartridge and an empty launch
memory (log entries 1 to 4). The RESET vector of that cartridge is 0x0000. -/
def State.reset : State where
  a := 0x00
  x := 0x00
  y := 0x00
  sp := 0xFD
  pc := 0x0000
  p := 0x20
  cycles := 8
  mem := []
  prgBank := 0
  chrBank := 0
  chrRam := []
  cart := blankCartridge
  cfg := defaultConfig (referenceWiring false)
  fault := none
  started := true
  host := []

/-! Named updates of the fields instructions write. -/

def State.setA (s : State) (v : Byte) : State := { s with a := v }
def State.setX (s : State) (v : Byte) : State := { s with x := v }
def State.setY (s : State) (v : Byte) : State := { s with y := v }
def State.setSp (s : State) (v : Byte) : State := { s with sp := v }
def State.setPc (s : State) (v : Addr) : State := { s with pc := v }
def State.setP (s : State) (v : Byte) : State := { s with p := v }
def State.setCycles (s : State) (n : Nat) : State := { s with cycles := n }
def State.setMem (s : State) (m : Memory) : State := { s with mem := m }
def State.setPrgBank (s : State) (n : Nat) : State := { s with prgBank := n }
def State.setChrBank (s : State) (n : Nat) : State := { s with chrBank := n }
def State.setChrRam (s : State) (m : Memory) : State := { s with chrRam := m }

end Sys2Proof.Machine
end

