-- ==== Sys2Proof/Machine/Bus.lean ====
section
/-! DEFINITION. The bus, its devices and the cartridge mappers (20_memory.md). Every access moves one byte (R41) and
goes to the one device that claims the address (R45, R47); an unclaimed address aborts the run (R49, R251). -/

namespace Sys2Proof.Machine

/-- The result of bus accesses: a value, or the fault that ends the run. -/
abbrev Access (α : Type) := Except Fault α

/-- Whether an address lies in a device's inclusive range (rule R46). -/
def deviceContains (d : Device) (a : Nat) : Bool := decide (d.start ≤ a) && decide (a ≤ d.stop)

/-- The device that claims an address and its place in the registration order: the last registered one whose range
contains it (rules R20 and R47). The first argument counts the devices before the list. -/
def claimFrom (first : Nat) (a : Nat) : List Device → Option (Nat × Device)
  | [] => none
  | d :: later =>
    match claimFrom (first + 1) a later with
    | some found => some found
    | none => if deviceContains d a then some (first, d) else none

/-- Where an access to a claimed address lands: a backing byte of a RAM or MirroredRAM device, under a key that
differs between devices (log entry 14), or the CPU-side mapper. -/
inductive Target where
  | cell (key : Nat)
  | mapper
  deriving DecidableEq, Repr

/-- The key of a backing byte: the device's place in the registration order and the offset in its store. -/
def cellKey (index offset : Nat) : Nat := 65536 * index + offset

/-- The backing byte of an address inside a device (rules R51, R52) or the mapper (rule R65). -/
def targetIn (index : Nat) (d : Device) (a : Nat) : Target :=
  match d.kind with
  | .ram => .cell (cellKey index (a - d.start))
  | .mirroredRam pageSize => .cell (cellKey index ((a - d.start) % pageSize))
  | .prgMapper => .mapper

/-- The decode table (rule R20): where an access to an address lands, `none` where no device claims it. -/
def State.target (s : State) (a : Addr) : Option Target :=
  (claimFrom 0 a.toNat s.cfg.wiring).map fun found => targetIn found.1 found.2 a.toNat

/-- `mask(v, n) = v AND (n - 1)` (rule R64). -/
def bankMask (v n : Nat) : Nat := v &&& (n - 1)

/-- The PRG byte number shown at an address of 0x8000 to 0xFFFF (rules R65, R66, R67, R69). -/
def State.prgIndex (s : State) (a : Addr) : Nat :=
  let o14 := (a &&& 0x3FFF#16).toNat
  let o15 := (a &&& 0x7FFF#16).toNat
  match s.cart.mapper with
  | .nrom | .cnrom => if s.cart.prgBanks = 1 then o14 else o15
  | .uxrom =>
    if a.toNat < 0xC000 then s.prgBank * 16384 + o14 else (s.cart.prgBanks - 1) * 16384 + o14

/-- A write to the CPU-side mapper (rules R66, R68, R70): no ROM byte changes, a bank-select register may. -/
def State.mapperWrite (s : State) (v : Byte) : State :=
  match s.cart.mapper with
  | .nrom => s
  | .uxrom => s.setPrgBank (bankMask v.toNat s.cart.prgBanks)
  | .cnrom => s.setChrBank (if s.cart.chrBanks = 0 then 0 else bankMask v.toNat s.cart.chrBanks)

/-- A device's `read(address, peek)` (rules R46, R50 to R52, R66 to R69). No device in scope has a read side effect
(rule R60), so the answer is a byte and no state, and `peek` changes nothing. -/
def State.deviceRead (s : State) (_peek : Bool) (a : Addr) : Target → Byte
  | .cell key => s.mem.read key
  | .mapper => s.cart.prg.read (s.prgIndex a)

/-- A device's `write(address, value)` (rules R46, R51, R52, R66, R68, R70). -/
def State.deviceWrite (s : State) (v : Byte) : Target → State
  | .cell key => s.setMem (s.mem.write key v)
  | .mapper => s.mapperWrite v

/-- `MemRead(addr, 1)`, written `Rd(addr)` (rule R45). -/
def State.read (s : State) (a : Addr) : Access Byte :=
  match s.target a with
  | none => .error (.busAbort a)
  | some t => .ok (s.deviceRead false a t)

/-- `Peek(addr)` (rules R45 and R50): the host's inspection read. -/
def State.peek (s : State) (a : Addr) : Access Byte :=
  match s.target a with
  | none => .error (.busAbort a)
  | some t => .ok (s.deviceRead true a t)

/-- `MemWrite(addr, 1, v)`, written `Wr(addr, v)` (rule R45). -/
def State.write (s : State) (a : Addr) (v : Byte) : Access State :=
  match s.target a with
  | none => .error (.busAbort a)
  | some t => .ok (s.deviceWrite v t)

/-- `MemRead(addr, 2)`: two reads, low byte first (rule R42 and 00_scope.md section 5). -/
def State.readWord (s : State) (a : Addr) : Access Addr := do
  let lo ← s.read a
  let hi ← s.read (a + 1)
  .ok (wordOf lo hi)

/-! The PPU-side mapper device (rules R71 and R72). -/

/-- Whether a PPU-side address lies in CHR_WINDOW. -/
def State.inChrWindow (s : State) (a : Addr) : Bool :=
  decide (s.cfg.chrWindowStart ≤ a.toNat) && decide (a.toNat ≤ s.cfg.chrWindowStop)

/-- `o13`: the offset of a PPU-side address in the 8 KB window. -/
def State.chrOffset (s : State) (a : Addr) : Nat := (a.toNat - s.cfg.chrWindowStart) &&& 0x1FFF

/-- The CHR bank the window shows: the CNROM register, bank 0 for the other mappers. -/
def State.shownChrBank (s : State) : Nat :=
  match s.cart.mapper with
  | .cnrom => s.chrBank
  | .nrom | .uxrom => 0

/-- A PPU-side read (rule R71); an address outside the window belongs to devices out of scope (log entry 11). -/
def State.ppuRead (s : State) (a : Addr) : Except Refusal Byte :=
  if s.inChrWindow a then
    .ok (if s.cart.chrBanks = 0 then s.chrRam.read (s.chrOffset a)
         else s.cart.chr.read (s.shownChrBank * 8192 + s.chrOffset a))
  else .error .outsideChrWindow

/-- A PPU-side write (rule R71): stored in CHR-RAM, without effect on CHR-ROM. -/
def State.ppuWrite (s : State) (a : Addr) (v : Byte) : Outcome :=
  if s.inChrWindow a then
    .next (if s.cart.chrBanks = 0 then s.setChrRam (s.chrRam.write (s.chrOffset a) v) else s)
  else .refused .outsideChrWindow

end Sys2Proof.Machine
end

