-- ==== Sys2Proof/Machine/Operands.lean ====
section
/-! DEFINITION. The addressing modes, the operand fetch and the write-back (40_addressing_modes.md, R120 to R133).
The operand bytes are those of the decoded instruction; the state given is the one after they were fetched, so `PC` is
the address of the byte after the instruction (rule R12; log entry 9). -/

namespace Sys2Proof.Machine

/-- What an addressing mode leaves (rule R120): the effective address and the extra-cycle request `xa`. Modes IMP
and REL leave no effective address; the field is then 0 and no meaning reads it. -/
structure Ea where
  addr : Addr
  crossed : Bool
  deriving DecidableEq, Repr

/-- A base plus an index, with `xa` set when the page of the sum is not the page of the base (rule R128). -/
def indexed (base : Addr) (index : Byte) : Ea where
  addr := base + zeroPage index
  crossed := hiByte (base + zeroPage index) != hiByte base

/-- A pointer read inside the zero page: the high byte comes from `(p + 1) mod 256` (rules R131 and R132). -/
def State.readZeroPageWord (s : State) (p : Byte) : Access Addr := do
  let lo ← s.read (zeroPage p)
  let hi ← s.read (zeroPage (p + 1))
  .ok (wordOf lo hi)

/-- A pointer read inside one page: the high byte of a pointer at 0xnnFF comes from 0xnn00 (rule R130). -/
def State.readPageWord (s : State) (ptr : Addr) : Access Addr := do
  let lo ← s.read ptr
  let hi ← s.read (if loByte ptr = 0xFF then wordOf 0x00 (hiByte ptr) else ptr + 1)
  .ok (wordOf lo hi)

/-- The effective address of an operand (rules R121 to R132). -/
def effective (m : Operand) (s : State) : Access Ea :=
  match m with
  | .imp | .rel _ => .ok { addr := 0, crossed := false }
  | .imm _ => .ok { addr := s.pc - 1, crossed := false }
  | .zp0 zp8 => .ok { addr := zeroPage zp8, crossed := false }
  | .zpx zp8 => .ok { addr := zeroPage (zp8 + s.x), crossed := false }
  | .zpy zp8 => .ok { addr := zeroPage (zp8 + s.y), crossed := false }
  | .abs base => .ok { addr := base, crossed := false }
  | .abx base => .ok (indexed base s.x)
  | .aby base => .ok (indexed base s.y)
  | .ind ptr => do
    let target ← s.readPageWord ptr
    .ok { addr := target, crossed := false }
  | .izx zp8 => do
    let target ← s.readZeroPageWord (zp8 + s.x)
    .ok { addr := target, crossed := false }
  | .izy zp8 => do
    let base ← s.readZeroPageWord zp8
    .ok (indexed base s.y)

/-- `operand()` (rule R133): the accumulator in accumulator form, the instruction's byte 1 in immediate form (fetched
already, log entry 9), else one read at the effective address. -/
def operandByte (m : Operand) (ea : Ea) (s : State) : Access Byte :=
  match m with
  | .imp => .ok s.a
  | .imm imm8 => .ok imm8
  | _ => s.read ea.addr

/-- `writeback(v)` (rule R133): the accumulator in accumulator form, else one write at the effective address. -/
def writeback (m : Operand) (ea : Ea) (v : Byte) (s : State) : Access State :=
  match m with
  | .imp => .ok (s.setA v)
  | _ => s.write ea.addr v

end Sys2Proof.Machine
end

