-- ==== Sys2Proof/Machine/Ops.lean ====
section
/-! DEFINITION. The operations the meanings share: the common part of every instruction (rules R103 and R134), the
stack (R180), trap entry and return (R187, R188, R253, R254, R256, R258). -/

namespace Sys2Proof.Machine

/-- One flag of the machine's status register. -/
def State.flag (s : State) (f : Flag) : Bool := getFlag s.p f

/-- The machine with one flag of P written. -/
def State.setFlag (s : State) (f : Flag) (value : Bool) : State := s.setP (putFlag s.p f value)

/-- The machine with Z and N recomputed from a byte (rule R200). -/
def State.setResultFlags (s : State) (v : Byte) : State := s.setP (setZN s.p v)

/-- More cycles on the instruction's total. -/
def State.addCycles (s : State) (n : Nat) : State := s.setCycles (s.cycles + n)

/-- The cycle column of `TABLE[op]` (rules R103, R104, R245); an entry missing from a short table counts 1
(log entry 20). -/
def baseCycles (cfg : Config) (op : Byte) : Nat := cfg.cycleTable.getD op.toNat 1

/-- `xa AND xo` (rule R134): the extra cycle an addressing mode requested and the operation agrees to. -/
def extraCycles (cfg : Config) (mn : Mnemonic) (crossed : Bool) : Nat :=
  if crossed && decide (mn ∈ cfg.agreesExtra) then 1 else 0

/-- The state when the instruction's bytes are fetched (rule R103): PC past them, P.U set, the counter at the
table's base count. -/
def State.enter (s : State) (op : Byte) (md : Mode) : State :=
  ((s.setPc (s.pc + BitVec.ofNat 16 md.length)).setP (putFlag s.p .u true)).setCycles (baseCycles s.cfg op)

/-- The answer of an instruction or event made of bus accesses. -/
def conclude : Access State → Outcome
  | .ok t => .next t
  | .error f => .fault f

/-- The addressing mode, the operation and the total cost of an instruction whose opcode byte is `op` (rule R103). -/
def runOperation (mn : Mnemonic) (op : Byte) (m : Operand) (operation : Ea → State → Access State)
    (s : State) : Access State := do
  let ea ← effective m (s.enter op m.mode)
  let t ← operation ea (s.enter op m.mode)
  .ok (t.addCycles (extraCycles s.cfg mn ea.crossed))

/-- One documented instruction (rule R103): the operation runs between the addressing mode and the cost. A term
without an encoding is refused (log entry 12). -/
def execute (mn : Mnemonic) (m : Operand) (operation : Ea → State → Access State) (s : State) : Outcome :=
  match opcodeOf mn m.mode with
  | none => .refused .illFormed
  | some op => conclude (runOperation mn op m operation s)

/-- An instruction whose operation uses the operand byte `M` (rule R133, read instructions). -/
def executeRead (mn : Mnemonic) (m : Operand) (operation : Byte → State → State) (s : State) : Outcome :=
  execute mn m (fun ea t => do
    let v ← operandByte m ea t
    .ok (operation v t)) s

/-- A read-modify-write instruction (rule R133): a result byte and a status computed from the status and `M`. -/
def executeModify (mn : Mnemonic) (m : Operand) (result status : Byte → Byte → Byte) (s : State) : Outcome :=
  execute mn m (fun ea t => do
    let v ← operandByte m ea t
    writeback m ea (result t.p v) (t.setP (status t.p v))) s

/-- A store (rule R133): one write at the effective address and no read of it. -/
def executeStore (mn : Mnemonic) (m : Operand) (register : State → Byte) (s : State) : Outcome :=
  execute mn m (fun ea t => t.write ea.addr (register t)) s

/-- An instruction of format IMP that makes no bus access after the opcode fetch. -/
def executeImplied (mn : Mnemonic) (operation : State → State) (s : State) : Outcome :=
  execute mn .imp (fun _ t => .ok (operation t)) s

/-- `push(v)` (rule R180). -/
def State.push (s : State) (v : Byte) : Access State := do
  let t ← s.write (stackAddr s.sp) v
  .ok (t.setSp (s.sp - 1))

/-- `pull()` (rule R180): the byte and the state with the stack pointer moved. -/
def State.pull (s : State) : Access (Byte × State) := do
  let v ← s.read (stackAddr (s.sp + 1))
  .ok (v, s.setSp (s.sp + 1))

/-- Two pushes, high byte first (rules R43 and R185). -/
def State.pushWord (s : State) (w : Addr) : Access State := do
  let t ← s.push (hiByte w)
  t.push (loByte w)

/-- Two pulls, low byte first (rules R186 and R187). -/
def State.pullWord (s : State) : Access (Addr × State) := do
  let (lo, t) ← s.pull
  let (hi, t) ← t.pull
  .ok (wordOf lo hi, t)

/-- Trap entry (rule R256): push the return address and a status copy, set I, load PC from a vector. -/
def trapEntry (returnAddress : Addr) (status : Byte) (vector : Addr) (s : State) : Access State := do
  let t ← s.pushWord returnAddress
  let t ← t.push status
  let t := t.setFlag .i true
  let target ← t.readWord vector
  .ok (t.setPc target)

/-- Trap return (rules R187 and R258): pull the status, then PC. -/
def trapReturn (s : State) : Access State := do
  let (status, t) ← s.pull
  let (target, t) ← (t.setP (pulledStatus status)).pullWord
  .ok (t.setPc target)

/-- The NMI vector (rule R54). -/
def nmiVector : Addr := 0xFFFA

/-- The RESET vector (rule R54). -/
def resetVector : Addr := 0xFFFC

/-- The IRQ/BRK vector (rule R54). -/
def irqVector : Addr := 0xFFFE

end Sys2Proof.Machine
end

