-- ==== Sys2Proof/Machine/Arithmetic.lean ====
section
/-! DEFINITION. ADC and SBC (41_arithmetic.md). -/

namespace Sys2Proof.Machine

/-- ADC (rule R140). -/
def execAdc (m : Operand) (s : State) : Outcome :=
  executeRead .adc m (fun v t => (t.setP (addStatus t.p t.a v)).setA (addByte t.a v (t.flag .c))) s

/-- SBC (rule R141): ADC of the complemented operand. -/
def execSbc (m : Operand) (s : State) : Outcome :=
  executeRead .sbc m (fun v t => (t.setP (addStatus t.p t.a (~~~v))).setA (addByte t.a (~~~v) (t.flag .c))) s

end Sys2Proof.Machine
end

