-- ==== Sys2Proof/Machine/Branches.lean ====
section
/-! DEFINITION. Conditional branches (44_branches.md). -/

namespace Sys2Proof.Machine

/-- The target of a taken branch, from the address of the following instruction (rule R170). -/
def branchTarget (next : Addr) (rel8 : Byte) : Addr := next + signExtend8 rel8

/-- `br` of a taken branch: 2 when the target's page is not the following instruction's, else 1 (rule R170). -/
def branchCycles (next : Addr) (rel8 : Byte) : Nat :=
  if hiByte (branchTarget next rel8) = hiByte next then 1 else 2

/-- `branch(cond)` on the state after the branch's two bytes (rule R170). -/
def takeBranch (condition : Bool) (rel8 : Byte) (t : State) : State :=
  if condition then (t.setPc (branchTarget t.pc rel8)).addCycles (branchCycles t.pc rel8) else t

/-- A branch instruction (rule R170). -/
def executeBranch (mn : Mnemonic) (rel8 : Byte) (condition : State → Bool) (s : State) : Outcome :=
  execute mn (.rel rel8) (fun _ t => .ok (takeBranch (condition t) rel8 t)) s

/-- BCC (rule R171). -/
def execBcc (rel8 : Byte) (s : State) : Outcome := executeBranch .bcc rel8 (fun t => !t.flag .c) s

/-- BCS (rule R172). -/
def execBcs (rel8 : Byte) (s : State) : Outcome := executeBranch .bcs rel8 (fun t => t.flag .c) s

/-- BEQ (rule R173). -/
def execBeq (rel8 : Byte) (s : State) : Outcome := executeBranch .beq rel8 (fun t => t.flag .z) s

/-- BMI (rule R174). -/
def execBmi (rel8 : Byte) (s : State) : Outcome := executeBranch .bmi rel8 (fun t => t.flag .n) s

/-- BNE (rule R175). -/
def execBne (rel8 : Byte) (s : State) : Outcome := executeBranch .bne rel8 (fun t => !t.flag .z) s

/-- BPL (rule R176). -/
def execBpl (rel8 : Byte) (s : State) : Outcome := executeBranch .bpl rel8 (fun t => !t.flag .n) s

/-- BVC (rule R177). -/
def execBvc (rel8 : Byte) (s : State) : Outcome := executeBranch .bvc rel8 (fun t => !t.flag .v) s

/-- BVS (rule R178). -/
def execBvs (rel8 : Byte) (s : State) : Outcome := executeBranch .bvs rel8 (fun t => t.flag .v) s

end Sys2Proof.Machine
end

