-- ==== Sys2Proof/Machine/Compare.lean ====
section
/-! DEFINITION. Compares (43_compare.md). -/

namespace Sys2Proof.Machine

/-- CMP (rule R160). -/
def execCmp (m : Operand) (s : State) : Outcome :=
  executeRead .cmp m (fun v t => t.setP (compareStatus t.p t.a v)) s

/-- CPX (rule R161). -/
def execCpx (m : Operand) (s : State) : Outcome :=
  executeRead .cpx m (fun v t => t.setP (compareStatus t.p t.x v)) s

/-- CPY (rule R162). -/
def execCpy (m : Operand) (s : State) : Outcome :=
  executeRead .cpy m (fun v t => t.setP (compareStatus t.p t.y v)) s

end Sys2Proof.Machine
end

