-- ==== Sys2Proof/Machine/LoadStore.lean ====
section
/-! DEFINITION. Loads, stores, transfers, increments, decrements and flag instructions (46_load_store_transfer.md). -/

namespace Sys2Proof.Machine

/-- LDA (rule R201). -/
def execLda (m : Operand) (s : State) : Outcome :=
  executeRead .lda m (fun v t => (t.setA v).setResultFlags v) s

/-- LDX (rule R202). -/
def execLdx (m : Operand) (s : State) : Outcome :=
  executeRead .ldx m (fun v t => (t.setX v).setResultFlags v) s

/-- LDY (rule R203). -/
def execLdy (m : Operand) (s : State) : Outcome :=
  executeRead .ldy m (fun v t => (t.setY v).setResultFlags v) s

/-- STA (rule R204). -/
def execSta (m : Operand) (s : State) : Outcome := executeStore .sta m (fun t => t.a) s

/-- STX (rule R205). -/
def execStx (m : Operand) (s : State) : Outcome := executeStore .stx m (fun t => t.x) s

/-- STY (rule R206). -/
def execSty (m : Operand) (s : State) : Outcome := executeStore .sty m (fun t => t.y) s

/-- TAX (rule R207). -/
def execTax (s : State) : Outcome := executeImplied .tax (fun t => (t.setX t.a).setResultFlags t.a) s

/-- TAY (rule R208). -/
def execTay (s : State) : Outcome := executeImplied .tay (fun t => (t.setY t.a).setResultFlags t.a) s

/-- TSX (rule R209). -/
def execTsx (s : State) : Outcome := executeImplied .tsx (fun t => (t.setX t.sp).setResultFlags t.sp) s

/-- TXA (rule R210). -/
def execTxa (s : State) : Outcome := executeImplied .txa (fun t => (t.setA t.x).setResultFlags t.x) s

/-- TXS (rule R211): writes no flag. -/
def execTxs (s : State) : Outcome := executeImplied .txs (fun t => t.setSp t.x) s

/-- TYA (rule R212). -/
def execTya (s : State) : Outcome := executeImplied .tya (fun t => (t.setA t.y).setResultFlags t.y) s

/-- INC (rule R213). -/
def execInc (m : Operand) (s : State) : Outcome :=
  executeModify .inc m (fun _ v => v + 1) (fun p v => setZN p (v + 1)) s

/-- INX (rule R214). -/
def execInx (s : State) : Outcome := executeImplied .inx (fun t => (t.setX (t.x + 1)).setResultFlags (t.x + 1)) s

/-- INY (rule R215). -/
def execIny (s : State) : Outcome := executeImplied .iny (fun t => (t.setY (t.y + 1)).setResultFlags (t.y + 1)) s

/-- DEC (rule R216). -/
def execDec (m : Operand) (s : State) : Outcome :=
  executeModify .dec m (fun _ v => v - 1) (fun p v => setZN p (v - 1)) s

/-- DEX (rule R217). -/
def execDex (s : State) : Outcome := executeImplied .dex (fun t => (t.setX (t.x - 1)).setResultFlags (t.x - 1)) s

/-- DEY (rule R218). -/
def execDey (s : State) : Outcome := executeImplied .dey (fun t => (t.setY (t.y - 1)).setResultFlags (t.y - 1)) s

/-- CLC (rule R219). -/
def execClc (s : State) : Outcome := executeImplied .clc (fun t => t.setFlag .c false) s

/-- CLD (rule R220). -/
def execCld (s : State) : Outcome := executeImplied .cld (fun t => t.setFlag .d false) s

/-- CLI (rule R221). -/
def execCli (s : State) : Outcome := executeImplied .cli (fun t => t.setFlag .i false) s

/-- CLV (rule R222). -/
def execClv (s : State) : Outcome := executeImplied .clv (fun t => t.setFlag .v false) s

/-- SEC (rule R223). -/
def execSec (s : State) : Outcome := executeImplied .sec (fun t => t.setFlag .c true) s

/-- SED (rule R224). -/
def execSed (s : State) : Outcome := executeImplied .sed (fun t => t.setFlag .d true) s

/-- SEI (rule R225). -/
def execSei (s : State) : Outcome := executeImplied .sei (fun t => t.setFlag .i true) s

end Sys2Proof.Machine
end

