-- ==== Sys2Proof/Machine/Logic.lean ====
section
/-! DEFINITION. Logic instructions, BIT, NOP and the undocumented fallback (47_logic_nop.md). -/

namespace Sys2Proof.Machine

/-- AND (rule R240). -/
def execAnd (m : Operand) (s : State) : Outcome :=
  executeRead .and m (fun v t => (t.setA (t.a &&& v)).setResultFlags (t.a &&& v)) s

/-- ORA (rule R241). -/
def execOra (m : Operand) (s : State) : Outcome :=
  executeRead .ora m (fun v t => (t.setA (t.a ||| v)).setResultFlags (t.a ||| v)) s

/-- EOR (rule R242). -/
def execEor (m : Operand) (s : State) : Outcome :=
  executeRead .eor m (fun v t => (t.setA (t.a ^^^ v)).setResultFlags (t.a ^^^ v)) s

/-- BIT (rule R243). -/
def execBit (m : Operand) (s : State) : Outcome :=
  executeRead .bit m (fun v t => t.setP (bitStatus t.p t.a v)) s

/-- NOP (rule R244). -/
def execNop (s : State) : Outcome := executeImplied .nop (fun t => t) s

/-- The fallback of an undocumented opcode byte (rule R245): one byte, no effect, the table's cost. A documented
byte is no fallback (log entry 12). -/
def execUndoc (op : Byte) (s : State) : Outcome :=
  match opcodeEntry op with
  | none => .next (s.enter op .imp)
  | some _ => .refused .illFormed

end Sys2Proof.Machine
end

