-- ==== Sys2Proof/Machine/Shifts.lean ====
section
/-! DEFINITION. Shifts and rotates (42_shifts.md). -/

namespace Sys2Proof.Machine

/-- ASL (rule R150). -/
def execAsl (m : Operand) (s : State) : Outcome :=
  executeModify .asl m (fun _ v => aslByte v) (fun p v => shiftStatus p v.msb (aslByte v)) s

/-- LSR (rule R151). -/
def execLsr (m : Operand) (s : State) : Outcome :=
  executeModify .lsr m (fun _ v => lsrByte v) (fun p v => shiftStatus p (v.getLsbD 0) (lsrByte v)) s

/-- ROL (rule R152). -/
def execRol (m : Operand) (s : State) : Outcome :=
  executeModify .rol m (fun p v => rolByte v (getFlag p .c))
    (fun p v => shiftStatus p v.msb (rolByte v (getFlag p .c))) s

/-- ROR (rule R153). -/
def execRor (m : Operand) (s : State) : Outcome :=
  executeModify .ror m (fun p v => rorByte v (getFlag p .c))
    (fun p v => shiftStatus p (v.getLsbD 0) (rorByte v (getFlag p .c))) s

end Sys2Proof.Machine
end

