-- ==== Sys2Proof/Machine/StackControl.lean ====
section
/-! DEFINITION. Stack and control instructions (45_stack_control.md). -/

namespace Sys2Proof.Machine

/-- PHA (rule R181). -/
def execPha (s : State) : Outcome := execute .pha .imp (fun _ t => t.push t.a) s

/-- PHP (rule R182). -/
def execPhp (s : State) : Outcome := execute .php .imp (fun _ t => t.push (pushedByProgram t.p)) s

/-- PLA (rule R183). -/
def execPla (s : State) : Outcome :=
  execute .pla .imp (fun _ t => do
    let (v, t) ← t.pull
    .ok ((t.setA v).setResultFlags v)) s

/-- PLP (rule R184). -/
def execPlp (s : State) : Outcome :=
  execute .plp .imp (fun _ t => do
    let (v, t) ← t.pull
    .ok (t.setP (pulledStatus v))) s

/-- JSR (rule R185): pushes the address of its own third byte. -/
def execJsr (target : Addr) (s : State) : Outcome :=
  execute .jsr (.abs target) (fun ea t => do
    let t ← t.pushWord (t.pc - 1)
    .ok (t.setPc ea.addr)) s

/-- RTS (rule R186). -/
def execRts (s : State) : Outcome :=
  execute .rts .imp (fun _ t => do
    let (w, t) ← t.pullWord
    .ok (t.setPc (w + 1))) s

/-- RTI (rule R187). -/
def execRti (s : State) : Outcome := execute .rti .imp (fun _ t => trapReturn t) s

/-- BRK (rule R188): the return address is the BRK's address + 2. -/
def execBrk (s : State) : Outcome :=
  execute .brk .imp (fun _ t => trapEntry (t.pc + 1) (pushedByProgram t.p) irqVector t) s

/-- JMP (rule R189). -/
def execJmp (m : Operand) (s : State) : Outcome := execute .jmp m (fun ea t => .ok (t.setPc ea.addr)) s

end Sys2Proof.Machine
end

