-- ==== Sys2Proof/Machine/Clock.lean ====
section
/-! DEFINITION. Instruction fetch, the instruction step and the clock tick (rules R103, R282, R283), and the placing of an
instruction where the next fetch reads it (log entry 10). -/

namespace Sys2Proof.Machine

/-- The bytes at consecutive addresses (rule R101: ascending, `mod 65536`). -/
def State.readBytes (s : State) (a : Addr) : Nat → Access (List Byte)
  | 0 => .ok []
  | n + 1 => do
    let v ← s.read a
    let rest ← s.readBytes (a + 1) n
    .ok (v :: rest)

/-- The bytes of the instruction at PC: the opcode byte, then as many operand bytes as its format has (rules R100
and R103). -/
def State.fetch (s : State) : Access (List Byte) := do
  let op ← s.read s.pc
  let rest ← s.readBytes (s.pc + 1) ((formatOf op).length - 1)
  .ok (op :: rest)

/-- `Step`: the whole instruction at PC (rule R103). -/
def instructionStep (s : State) : Outcome :=
  match s.fetch with
  | .error f => .fault f
  | .ok bytes =>
    match decode bytes with
    | .ok (i, _) => exec i s
    | .error _ => .refused .undecodable

/-- The counter of a next state one lower (the last line of rule R282). -/
def countDown : Outcome → Outcome
  | .next t => .next (t.setCycles (t.cycles - 1))
  | .fault f => .fault f
  | .refused r => .refused r

/-- `clock()`, one tick (rule R282), refused before the first reset() (rule R281). -/
def clock (s : State) : Outcome :=
  if s.started then
    countDown (if s.cycles = 0 then instructionStep s else .next s)
  else .refused .beforeReset

/-- `complete()` (rule R283). -/
def State.complete (s : State) : Bool := s.cycles == 0

/-- One byte placed where a read of the address finds it: the backing byte of a RAM, or the cartridge's PRG byte the
address shows. It is no event of the machine; it stands for the loading of a program (log entry 10). -/
def State.place (s : State) (a : Addr) (v : Byte) : State :=
  match s.target a with
  | none => s
  | some (.cell key) => s.setMem (s.mem.write key v)
  | some .mapper => { s with cart := { s.cart with prg := s.cart.prg.write (s.prgIndex a) v } }

/-- Bytes placed at consecutive addresses. -/
def State.placeBytes (s : State) (a : Addr) : List Byte → State
  | [] => s
  | v :: rest => (s.place a v).placeBytes (a + 1) rest

/-- The machine about to fetch: reset() applied, no fault recorded, no host call waiting, no tick to count down. -/
def State.atBoundary (s : State) : State := { s with started := true, fault := none, host := [], cycles := 0 }

end Sys2Proof.Machine
end

