-- ==== Sys2Proof/Machine/Disassemble.lean ====
section
/-! DEFINITION. The disassembly interface (rules R106 and R107): lines read with Peek only. -/

namespace Sys2Proof.Machine

/-- One line of a disassembly: the address of the opcode byte and the instruction. -/
structure Line where
  address : Addr
  instr : Instr
  deriving DecidableEq, Repr

/-- The instruction at an address, read with Peek (rule R107): the opcode, then the operand bytes of its format. -/
def State.peekInstr (s : State) (a : Addr) : Access Instr := do
  let op ← s.peek a
  let byte1 ← if 2 ≤ (formatOf op).length then s.peek (a + 1) else .ok 0
  let byte2 ← if 3 ≤ (formatOf op).length then s.peek (a + 2) else .ok 0
  match instrOf op byte1 byte2 with
  | .ok i => .ok i
  | .error _ => .ok (.undoc op)

/-- The walk of rule R107 from address `a` while it has not passed the end of the range; `fuel` bounds the number of
lines. -/
def State.disassembleFrom (s : State) (last : Nat) : Nat → Nat → Access (List Line)
  | 0, _ => .ok []
  | fuel + 1, a =>
    if last < a then .ok []
    else do
      let i ← s.peekInstr (BitVec.ofNat 16 a)
      let rest ← s.disassembleFrom last fuel (a + i.length)
      .ok ({ address := BitVec.ofNat 16 a, instr := i } :: rest)

/-- The disassembly of an inclusive address range (rule R107). -/
def State.disassemble (s : State) (first last : Addr) : Access (List Line) :=
  s.disassembleFrom last.toNat (last.toNat + 1 - first.toNat) first.toNat

/-! The customary text of a line (rule R106; log entry 16). -/

/-- One upper-case hexadecimal digit. -/
def hexDigit (n : Nat) : String :=
  ["0", "1", "2", "3", "4", "5", "6", "7", "8", "9", "A", "B", "C", "D", "E", "F"].getD n "0"

/-- `nn`: two hexadecimal digits. -/
def hexByte (b : Byte) : String := hexDigit (b.toNat / 16) ++ hexDigit (b.toNat % 16)

/-- `nnnn`: four hexadecimal digits. -/
def hexAddr (a : Addr) : String := hexByte (hiByte a) ++ hexByte (loByte a)

/-- The mnemonic as rule R106 writes it. -/
def mnemonicText : Mnemonic → String
  | .adc => "ADC"
  | .sbc => "SBC"
  | .asl => "ASL"
  | .lsr => "LSR"
  | .rol => "ROL"
  | .ror => "ROR"
  | .cmp => "CMP"
  | .cpx => "CPX"
  | .cpy => "CPY"
  | .bcc => "BCC"
  | .bcs => "BCS"
  | .beq => "BEQ"
  | .bmi => "BMI"
  | .bne => "BNE"
  | .bpl => "BPL"
  | .bvc => "BVC"
  | .bvs => "BVS"
  | .pha => "PHA"
  | .php => "PHP"
  | .pla => "PLA"
  | .plp => "PLP"
  | .jsr => "JSR"
  | .rts => "RTS"
  | .rti => "RTI"
  | .brk => "BRK"
  | .jmp => "JMP"
  | .lda => "LDA"
  | .ldx => "LDX"
  | .ldy => "LDY"
  | .sta => "STA"
  | .stx => "STX"
  | .sty => "STY"
  | .tax => "TAX"
  | .tay => "TAY"
  | .tsx => "TSX"
  | .txa => "TXA"
  | .txs => "TXS"
  | .tya => "TYA"
  | .inc => "INC"
  | .inx => "INX"
  | .iny => "INY"
  | .dec => "DEC"
  | .dex => "DEX"
  | .dey => "DEY"
  | .clc => "CLC"
  | .cld => "CLD"
  | .cli => "CLI"
  | .clv => "CLV"
  | .sec => "SEC"
  | .sed => "SED"
  | .sei => "SEI"
  | .and => "AND"
  | .ora => "ORA"
  | .eor => "EOR"
  | .bit => "BIT"
  | .nop => "NOP"
  | .undoc => "???"

/-- The format tag of rule R101. -/
def modeTag : Mode → String
  | .imp => "IMP"
  | .imm => "IMM"
  | .zp0 => "ZP0"
  | .zpx => "ZPX"
  | .zpy => "ZPY"
  | .rel => "REL"
  | .abs => "ABS"
  | .abx => "ABX"
  | .aby => "ABY"
  | .ind => "IND"
  | .izx => "IZX"
  | .izy => "IZY"

/-- Whether a mnemonic's IMP form is the accumulator form (rules R101 and R121). -/
def hasAccumulatorForm (mn : Mnemonic) : Bool := mn ∈ [Mnemonic.asl, .lsr, .rol, .ror]

/-- The operand's text (rule R106); a branch shows its target address. -/
def Line.operandText (l : Line) : String :=
  match l.instr.operand with
  | .imp => if hasAccumulatorForm l.instr.mnemonic then " A" else ""
  | .imm b => " #$" ++ hexByte b
  | .zp0 b => " $" ++ hexByte b
  | .zpx b => " $" ++ hexByte b ++ ",X"
  | .zpy b => " $" ++ hexByte b ++ ",Y"
  | .rel b => " $" ++ hexAddr (l.address + 2 + signExtend8 b)
  | .abs w => " $" ++ hexAddr w
  | .abx w => " $" ++ hexAddr w ++ ",X"
  | .aby w => " $" ++ hexAddr w ++ ",Y"
  | .ind w => " ($" ++ hexAddr w ++ ")"
  | .izx b => " ($" ++ hexByte b ++ ",X)"
  | .izy b => " ($" ++ hexByte b ++ "),Y"

/-- The text of a line: mnemonic, operand, and the addressing-mode tag beside it. -/
def Line.text (l : Line) : String × String :=
  (mnemonicText l.instr.mnemonic ++ l.operandText, modeTag l.instr.operand.mode)

end Sys2Proof.Machine
end

