-- ==== Sys2Proof/Machine/Events.lean ====
section
/-! DEFINITION. The host's events reset(), irq(), nmi(), forced PC, Peek, disassembly and PPU-side access
(60_exceptions.md, 70_reset_and_hazards.md), and the step of the whole machine (log entries 6, 7, 21). -/

namespace Sys2Proof.Machine

/-- `reset()` (rule R280): writes PC, A, X, Y, SP, P and the cycle counter, and nothing else of the hardware. -/
def resetCpu (s : State) : Access State := do
  let target ← s.readWord resetVector
  .ok { s with
    pc := target, a := 0x00, x := 0x00, y := 0x00, sp := s.cfg.spReset, p := 0x20, cycles := 8, started := true }

/-- `irq()` (rule R253): ignored while I is set. -/
def irq (s : State) : Access State :=
  if s.flag .i then .ok s
  else do
    let t ← trapEntry s.pc (pushedByInterrupt s.p) irqVector s
    .ok (t.setCycles 7)

/-- `nmi()` (rule R254): unconditional. -/
def nmi (s : State) : Access State := do
  let t ← trapEntry s.pc (pushedByInterrupt s.p) nmiVector s
  .ok (t.setCycles 8)

/-- The host sets PC, only at an instruction boundary (rule R265, D40). -/
def forcePc (target : Addr) (s : State) : Outcome :=
  if s.complete then .next (s.setPc target) else .refused .forcePcWhileBusy

/-- An observation changes nothing; an access of its own that no device claims ends the run (rule R49). -/
def observe {α : Type} (answer : Access α) (s : State) : Outcome :=
  match answer with
  | .ok _ => .next s
  | .error f => .fault f

/-- A PPU-side read changes nothing (rule R71); outside CHR_WINDOW it is refused (log entry 11). -/
def observePpu (address : Addr) (s : State) : Outcome :=
  match s.ppuRead address with
  | .ok _ => .next s
  | .error r => .refused r

/-- One event of rule R291. Before the first reset() no CPU event but reset() is accepted (rule R281). -/
def applyEvent (e : HostEvent) (s : State) : Outcome :=
  match e with
  | .reset => conclude (resetCpu s)
  | .clock => clock s
  | .irq => if s.started then conclude (irq s) else .refused .beforeReset
  | .nmi => if s.started then conclude (nmi s) else .refused .beforeReset
  | .forcePc target => if s.started then forcePc target s else .refused .beforeReset
  | .peek address => observe (s.peek address) s
  | .disassemble first last => observe (s.disassemble first last) s
  | .ppuRead address => observePpu address s
  | .ppuWrite address value => s.ppuWrite address value

/-- One step of the machine: nothing after a recorded fault (rule R25); else the host's next call (rule R255), and
one clock() where the host has none waiting. -/
def advance (s : State) : Outcome :=
  match s.fault with
  | some address => .fault (.busAbort address)
  | none =>
    match s.host with
    | [] => clock s
    | e :: later => applyEvent e { s with host := later }

/-- The fault latch of rule R25: the state kept after an outcome, with the address of an abort recorded in it. -/
def State.latch (s : State) : Outcome → State
  | .next t => t
  | .fault (.busAbort address) => { s with fault := some address }
  | .refused _ => s

end Sys2Proof.Machine
end

