-- ==== Sys2Proof/Machine/Cartridge.lean ====
section
/-! DEFINITION. Loading a cartridge image (rules R61 to R63), wiring the bus (rules R46 to R48, R52) and building the
machine the first reset() is applied to (rules R26, R281, R284). -/

namespace Sys2Proof.Machine

/-- Why an image is rejected (rule R63, decisions D23 and D35). -/
inductive LoadError where
  | imageTooShort
  | badMagic
  | zeroPrgBanks
  | unsupportedMapper (mapperId : Byte)
  | unsupportedTvSystem
  | trainerPresent
  deriving DecidableEq, Repr

/-- Header byte `n` of an image (rule R61). -/
def headerByte (image : List Byte) (n : Nat) : Byte := image.getD n 0

/-- `mapperId = (byte7 AND 0xF0) OR (byte6 >> 4)` (rule R61). -/
def headerMapperId (image : List Byte) : Byte :=
  headerByte image 7 &&& 0xF0 ||| headerByte image 6 >>> 4

/-- The mapper a header number names (rules R3 and R63). Where two of the three parameters are equal, NROM comes before
UxROM and UxROM before CNROM (DESIGN CHOICE, unsafe, log entry 22). -/
def mapperOf (cfg : Config) (mapperId : Byte) : Option MapperKind :=
  if mapperId = cfg.mapperIdNrom then some .nrom
  else if mapperId = cfg.mapperIdUxrom then some .uxrom
  else if mapperId = cfg.mapperIdCnrom then some .cnrom
  else none

/-- The magic of bytes 0 to 3 (rule R61). -/
def headerMagic : List Byte := [0x4E, 0x45, 0x53, 0x1A]

/-- The cartridge an image holds, or why it is rejected (rules R61 to R63). The order in which two faults of one
header are reported is the model's (log entry 13). -/
def loadCartridge (cfg : Config) (image : List Byte) : Except LoadError Cartridge :=
  let prgBanks := (headerByte image 4).toNat
  let chrBanks := (headerByte image 5).toNat
  let payload := image.drop 16
  if image.length < 16 then .error .imageTooShort
  else if image.take 4 ≠ headerMagic then .error .badMagic
  else if prgBanks = 0 then .error .zeroPrgBanks
  else
    match mapperOf cfg (headerMapperId image) with
    | none => .error (.unsupportedMapper (headerMapperId image))
    | some mapper =>
      if (headerByte image 10).extractLsb' 0 2 ≠ cfg.tvNtsc then .error .unsupportedTvSystem
      else if (headerByte image 6).getLsbD 2 then .error .trainerPresent
      else if payload.length < prgBanks * 16384 + chrBanks * 8192 then .error .imageTooShort
      else
        .ok {
          mapper := mapper
          mapperId := headerMapperId image
          prgBanks := prgBanks
          chrBanks := chrBanks
          mirroring := (headerByte image 6).getLsbD 0
          extRam := (headerByte image 6).getLsbD 1
          prg := Memory.ofBytes 0 (payload.take (prgBanks * 16384))
          chr := Memory.ofBytes 0 ((payload.drop (prgBanks * 16384)).take (chrBanks * 8192)) }

/-- Why a configuration is refused. -/
inductive WiringError where
  /-- Outside the 16-bit space, or start above end: a device of the CPU bus or the PPU-side device (rule R48, D39). -/
  | illegalRange
  /-- A MirroredRAM whose start or length is no multiple of its page size (rule R52, D17). -/
  | unalignedMirror
  /-- A CPU-side mapper not at 0x8000 to 0xFFFF (rule R65). -/
  | mapperRange
  /-- A CHR_WINDOW that is not 8192 addresses (rule R71). -/
  | chrWindowSize
  /-- A cycle table that is not 256 counts of at least 1 (rule R3). -/
  | cycleTable
  deriving DecidableEq, Repr

/-- Whether one registration is legal, and if not, why. -/
def wiringError (d : Device) : Option WiringError :=
  if d.stop < d.start ∨ 0xFFFF < d.stop then some .illegalRange
  else
    match d.kind with
    | .ram => none
    | .mirroredRam pageSize =>
      if pageSize = 0 ∨ d.start % pageSize ≠ 0 ∨ (d.stop - d.start + 1) % pageSize ≠ 0 then some .unalignedMirror
      else none
    | .prgMapper => if d.start = 0x8000 ∧ d.stop = 0xFFFF then none else some .mapperRange

/-- The first illegal registration of a wiring. -/
def firstWiringError (wiring : List Device) : Option WiringError := wiring.findSome? wiringError

/-- `mapDevice(dev)` during host setup (rules R47 and R48): one more registration at the end of the wiring. -/
def mapDevice (cfg : Config) (d : Device) : Except WiringError Config :=
  match wiringError d with
  | some e => .error e
  | none => .ok { cfg with wiring := cfg.wiring ++ [d] }

/-- Whether the PPU-side device's range is legal (rules R48 and R71), and if not, why. -/
def chrWindowError (cfg : Config) : Option WiringError :=
  if cfg.chrWindowStop < cfg.chrWindowStart ∨ 0xFFFF < cfg.chrWindowStop then some .illegalRange
  else if cfg.chrWindowStop - cfg.chrWindowStart = 0x1FFF then none
  else some .chrWindowSize

/-- Whether the cycle table is whole (rule R3), and if not, the error. -/
def cycleTableError (cfg : Config) : Option WiringError :=
  if cfg.cycleTable.length = 256 ∧ ∀ n ∈ cfg.cycleTable, 1 ≤ n then none else some .cycleTable

/-- The first thing that keeps a machine from being built of a configuration (rules R3, R48, R52, R65, R71). -/
def firstConfigError (cfg : Config) : Option WiringError :=
  [firstWiringError cfg.wiring, chrWindowError cfg, cycleTableError cfg].findSome? id

/-- CPU register values before the first reset(), which the spec leaves unspecified (rule R26; log entry 8). -/
structure Unspecified where
  a : Byte
  x : Byte
  y : Byte
  sp : Byte
  pc : Addr
  p : Byte
  cycles : Nat
  deriving DecidableEq, Repr

/-- A bank-select register when the mapper pair is created: BANK_RESET (rules R26 and R62). A BANK_RESET that names no
bank there is gets masked, since the register never holds one (rule R23); with no bank that is 0 (log entry 5). -/
def bankAtLoad (bankReset banks : Nat) : Nat := if bankReset < banks then bankReset else bankMask bankReset banks

/-- The machine after host setup and before the first reset() (rules R26 and R284): the configuration checked, the
cartridge in place, RAM and CHR-RAM holding the launch memory `RAM_INIT`. -/
def buildMachine (cfg : Config) (cart : Cartridge) (ramInit chrRamInit : Memory) (before : Unspecified) :
    Except WiringError State :=
  match firstConfigError cfg with
  | some e => .error e
  | none =>
    .ok {
      a := before.a, x := before.x, y := before.y, sp := before.sp, pc := before.pc, p := before.p
      cycles := before.cycles
      mem := ramInit
      prgBank := bankAtLoad cfg.bankReset cart.prgBanks
      chrBank := bankAtLoad cfg.bankReset cart.chrBanks
      chrRam := chrRamInit
      cart := cart
      cfg := cfg
      fault := none
      started := false
      host := [] }

end Sys2Proof.Machine
end

