-- ==== Sys2Proof/Safety.lean ====
section
/-! DEFINITION. What counts as a good configuration, a good state and a good outcome, and the terms the statements are
written in. -/

namespace Sys2Proof.Machine

/-- A configuration `buildMachine` builds a machine from: a whole cycle table with no entry below 1 (rules R3 and R289),
a legal wiring (rules R48, R52, R65), an 8 KB CHR window inside the 16-bit space (rules R48 and R71). -/
abbrev configLegal (cfg : Config) : Prop :=
  cfg.cycleTable.length = 256 ∧ (∀ n ∈ cfg.cycleTable, 1 ≤ n) ∧ firstWiringError cfg.wiring = none ∧
    cfg.chrWindowStop = cfg.chrWindowStart + 0x1FFF ∧ cfg.chrWindowStop ≤ 0xFFFF

/-- The invariant every step keeps: the stores are canonical (rules R21, R24), P.U reads as 1 once reset() has been
applied (rule R14), the bank-select registers name banks there are (rule R23). -/
abbrev State.Inv (s : State) : Prop :=
  s.mem.wf = true ∧ s.chrRam.wf = true ∧ (s.started = true → getFlag s.p .u = true) ∧
    s.prgBank ≤ s.cart.prgBanks - 1 ∧ s.chrBank ≤ s.cart.chrBanks - 1

/-- Whether some device claims an address (rule R49). -/
def State.claims (s : State) (a : Addr) : Bool := (s.target a).isSome

/-- The outcome is a next state. -/
def continues : Outcome → Bool
  | .next _ => true
  | .fault _ => false
  | .refused _ => false

/-- What every instruction leaves before its own effect: PC past its bytes, P.U set, the counter at its base cost plus
the extra cycles given (rule R103); everything else as before. -/
def State.after (s : State) (i : Instr) (extra : Nat) : State :=
  { s with
    pc := s.pc + BitVec.ofNat 16 i.length
    p := putFlag s.p .u true
    cycles := baseCycles s.cfg (i.opcode.getD 0) + extra }

/-- The addressing mode of an instruction answers this effective address and extra-cycle request (rule R120). -/
def AddressIs (i : Instr) (s : State) (ea : Ea) : Prop := effective i.operand (s.after i 0) = .ok ea

/-- The addressing mode answers `ea`, and `operand()` the byte `v` (rule R133). -/
def OperandIs (i : Instr) (s : State) (ea : Ea) (v : Byte) : Prop :=
  AddressIs i s ea ∧ operandByte i.operand ea (s.after i 0) = .ok v

/-- The machine `w` reached from `s` by writing bytes downwards from the stack location of `sp` (rule R180). -/
def PushedTo (s : State) (sp : Byte) : List Byte → State → Prop
  | [], w => w = s
  | v :: rest, w => ∃ t, s.write (0x0100#16 + sp.setWidth 16) v = .ok t ∧ PushedTo t (sp - 1) rest w

/-- The flags of a status byte: those listed have the listed value, U is 1, the others are as before (rules R13 and
R14). -/
def FlagsAre (p before : Byte) (written : List (Flag × Bool)) : Prop :=
  ∀ f : Flag, getFlag p f = (written.lookup f).getD (f == .u || getFlag before f)

/-- Z and N of a result byte (rule R200). -/
def resultFlags (v : Byte) : List (Flag × Bool) := [(.z, decide (v = 0)), (.n, decide (128 ≤ v.toNat))]

/-- The n-th pulled byte of a stack pointer, counted from 1, lies at `0x0100 + (SP + n) mod 256` (rule R180). -/
def pullAddr (sp : Byte) (n : Nat) : Addr := 0x0100#16 + (sp + BitVec.ofNat 8 n).setWidth 16

/-- The n-th pushed byte of a stack pointer, counted from 0, goes to `0x0100 + (SP - n) mod 256` (rule R180). -/
def pushAddr (sp : Byte) (n : Nat) : Addr := 0x0100#16 + (sp - BitVec.ofNat 8 n).setWidth 16

/-- The addresses an addressing mode reads its pointer at, in order (rules R130 to R132). -/
def pointerAddresses (s : State) : Operand → List Addr
  | .ind ptr => [ptr, if ptr.toNat % 256 = 255 then ptr - 255 else ptr + 1]
  | .izx b =>
    [BitVec.ofNat 16 ((b.toNat + s.x.toNat) % 256), BitVec.ofNat 16 ((b.toNat + s.x.toNat + 1) % 256)]
  | .izy b => [BitVec.ofNat 16 b.toNat, BitVec.ofNat 16 ((b.toNat + 1) % 256)]
  | .imp | .imm _ | .zp0 _ | .zpx _ | .zpy _ | .rel _ | .abs _ | .abx _ | .aby _ => []

/-- The addresses of a trap's accesses, in order: three pushes and the vector (rule R256). -/
def trapAddresses (sp : Byte) (vector : Addr) : List Addr :=
  [pushAddr sp 0, pushAddr sp 1, pushAddr sp 2, vector, vector + 1]

/-- The addresses of the accesses an instruction makes after its addressing mode, in order (rules R133, R180 to R189);
the read and the write of a read-modify-write go to one address. -/
def operationAddresses (s : State) (ea : Ea) (i : Instr) : List Addr :=
  match i.mnemonic with
  | .pha | .php => [pushAddr s.sp 0]
  | .jsr => [pushAddr s.sp 0, pushAddr s.sp 1]
  | .brk => trapAddresses s.sp 0xFFFE
  | .pla | .plp => [pullAddr s.sp 1]
  | .rts => [pullAddr s.sp 1, pullAddr s.sp 2]
  | .rti => [pullAddr s.sp 1, pullAddr s.sp 2, pullAddr s.sp 3]
  | .adc | .sbc | .and | .ora | .eor | .bit | .cmp | .cpx | .cpy | .lda | .ldx | .ldy | .sta | .stx | .sty
  | .asl | .lsr | .rol | .ror | .inc | .dec => if i.operand.mode ∈ [.imp, .imm] then [] else [ea.addr]
  | .bcc | .bcs | .beq | .bmi | .bne | .bpl | .bvc | .bvs | .jmp | .nop | .undoc
  | .tax | .tay | .tsx | .txa | .txs | .tya | .inx | .iny | .dex | .dey
  | .clc | .cld | .cli | .clv | .sec | .sed | .sei => []

/-- `a` is the first address of a list of accesses that no device claims (rule R49). -/
def FirstUnclaimed (s : State) (accesses : List Addr) (a : Addr) : Prop :=
  accesses.find? (fun b => !s.claims b) = some a

/-- The next tick fetches an instruction: reset() applied, no fault recorded, no host call waiting, the counter at 0
(rule R282). -/
def ReadyToFetch (s : State) : Prop := s.fault = none ∧ s.host = [] ∧ s.started = true ∧ s.cycles = 0

/-- An instruction's opcode byte and default base cost (rule R104). -/
def EncodedAs (i : Instr) (op : Byte) (cost : Nat) : Prop :=
  i.opcode = some op ∧ defaultCycleTable[op.toNat]? = some cost

/-- The opcode bytes of a mnemonic with their formats and default base costs, as the lines of rule R104 list them. -/
def Encodings (f : Operand → Instr) (rows : List (Mode × Byte × Nat)) : Prop :=
  (∀ m : Operand, (f m).opcode = (rows.find? fun r => r.1 = m.mode).map fun r => r.2.1) ∧
    ∀ r ∈ rows, defaultCycleTable[r.2.1.toNat]? = some r.2.2

end Sys2Proof.Machine
end

