-- ==== Sys2Proof/Certificates/Slice0/Obligations.lean ====
section
/-! DEFINITION. The statements for the provers, each about every state or operand the rule it formalises speaks of. -/

open Sys2Proof Sys2Proof.Machine

/-! ## Encoding and decoding -/

/-- Rules R100 to R105: the bytes of a well-formed instruction decode to it, and the bytes after it are left. The
one-byte length of the 105 undocumented instructions is the spec's own decision D6. -/
def Obligations.DecodeOfEncodeIsTheInstruction : Prop :=
  ∀ (i : Instr) (rest : List Byte), WellFormed i → decode (encode i ++ rest) = .ok (i, rest)

/-- Rules R100 to R105: what decodes is a well-formed instruction, and its encoding is the bytes it was read from. The
one-byte length of the 105 undocumented instructions is the spec's own decision D6. -/
def Obligations.EncodeOfDecodeIsTheBytes : Prop :=
  ∀ (bytes rest : List Byte) (i : Instr),
    decode bytes = .ok (i, rest) → WellFormed i ∧ encode i ++ rest = bytes

/-- Rules R100, R103 and R108: every opcode byte decodes to some defined behaviour whatever bytes follow it, and the
opcode byte alone decides mnemonic, format and length. The length of an undocumented byte is the spec's own decision
D6. -/
def Obligations.OpcodeByteAloneDecides : Prop :=
  ∀ (op b1 b2 c1 c2 : Byte), ∃ (i j : Instr) (bs cs : List Byte),
    decode [op, b1, b2] = .ok (i, bs) ∧ decode [op, c1, c2] = .ok (j, cs) ∧ i.opcode = some op ∧
      i.mnemonic = j.mnemonic ∧ i.operand.mode = j.operand.mode ∧ 1 ≤ i.length ∧ i.length ≤ 3 ∧
      i.length + bs.length = 3 ∧ j.length + cs.length = 3

/-- Rule R105: the 105 listed bytes, and no others, decode to the one-byte fallback, whose default cost is 2. That the
fallback is one byte long and costs 2 by default is the spec's own decision D6. -/
def Obligations.UndocumentedBytesDecodeToTheFallback : Prop :=
  undocumentedBytes.length = 105 ∧ undocumentedBytes.Nodup ∧
    (∀ (op : Byte) (rest : List Byte), op ∈ undocumentedBytes ↔ decode (op :: rest) = .ok (.undoc op, rest)) ∧
    ∀ op ∈ undocumentedBytes, defaultCycleTable[op.toNat]? = some 2

/-- Rules R101 and R106: some of the words the spec writes out decode to the instructions they stand for. -/
def Obligations.WrittenOutWordsDecode : Prop :=
  decode [0x18] = .ok (.clc, []) ∧ decode [0x0A] = .ok (.asl .imp, []) ∧
    decode [0xA9, 0x10] = .ok (.lda (.imm 0x10), []) ∧ decode [0xB6, 0x10] = .ok (.ldx (.zpy 0x10), []) ∧
    decode [0xD0, 0xFA] = .ok (.bne 0xFA, []) ∧ decode [0xBD, 0x34, 0x12] = .ok (.lda (.abx 0x1234), []) ∧
    decode [0x6C, 0xFF, 0x10] = .ok (.jmp (.ind 0x10FF), []) ∧ decode [0xA1, 0x10] = .ok (.lda (.izx 0x10), []) ∧
    decode [0xB1, 0x10] = .ok (.lda (.izy 0x10), []) ∧ decode [0x20, 0x00, 0x90] = .ok (.jsr 0x9000, []) ∧
    decode [0x04, 0xA9, 0x55] = .ok (.undoc 0x04, [0xA9, 0x55])

/-! ## The bus, its devices and the cartridge -/

/-- Rules R45, R49 and R50: an address inside a device's range answers reads, peeks (with the same byte) and writes;
an address in no device's range aborts all three, with that address in the fault. A Peek of the host is an event: of a
claimed address it changes nothing, of an unclaimed one it ends the run as any other access does. That the abort ends
the run is the spec's own decision D16; that the host's Peek is a step is the model's choice (log entries 7 and 21).
-/
def Obligations.BusAnswersExactlyOnClaimedAddresses : Prop :=
  ∀ (s : State) (a : Addr),
    ((∃ d ∈ s.cfg.wiring, d.start ≤ a.toNat ∧ a.toNat ≤ d.stop) →
      (∃ v, s.read a = .ok v ∧ s.peek a = .ok v ∧ ∀ b, ∃ t, s.write a b = .ok t) ∧
        applyEvent (.peek a) s = .next s) ∧
    ((∀ d ∈ s.cfg.wiring, ¬(d.start ≤ a.toNat ∧ a.toNat ≤ d.stop)) →
      s.read a = .error (.busAbort a) ∧ s.peek a = .error (.busAbort a) ∧
        (∀ b, s.write a b = .error (.busAbort a)) ∧
        ∀ later, s.fault = none → step { s with host := .peek a :: later } = .fault (.busAbort a))

/-- Rule R47: a registration claims every address of its range, and the earlier devices keep the others. -/
def Obligations.LaterRegistrationWins : Prop :=
  ∀ (s : State) (d : Device) (cfg : Config), mapDevice s.cfg d = .ok cfg → ∀ a : Addr,
    { s with cfg := cfg }.target a =
      if d.start ≤ a.toNat ∧ a.toNat ≤ d.stop then some (targetIn s.cfg.wiring.length d a.toNat) else s.target a

/-- Rules R51, R56 and R59: after a write to a RAM byte every address backed by that byte reads the written value, and
every other address reads what it read before. -/
def Obligations.RamReadsTheMostRecentWrite : Prop :=
  ∀ (s : State) (a : Addr) (v : Byte) (key : Nat), s.mem.wf = true → s.target a = some (.cell key) →
    ∃ t, s.write a v = .ok t ∧ (∀ b, s.target b = s.target a → t.read b = .ok v) ∧
      ∀ b, s.target b ≠ s.target a → t.read b = s.read b

/-- Rules R21, R51 and R52: two addresses of one MirroredRAM share their byte exactly when they agree modulo the page
size; an address of a RAM shares its byte with no other; addresses of two different devices, RAM or MirroredRAM, never
share one. That the offset is counted from the device's start is the spec's own decision D17. -/
def Obligations.MirroredRamRepeatsItsPage : Prop :=
  ∀ (s : State) (a b : Addr) (v : Byte) (i j : Nat) (d e : Device), s.mem.wf = true →
    claimFrom 0 a.toNat s.cfg.wiring = some (i, d) → claimFrom 0 b.toNat s.cfg.wiring = some (j, e) →
    (∀ pageSize, 1 ≤ pageSize → d.kind = .mirroredRam pageSize →
      ∃ t, s.write a v = .ok t ∧
        (i = j → (b.toNat - d.start) % pageSize = (a.toNat - d.start) % pageSize → t.read b = .ok v) ∧
        (i = j → (b.toNat - d.start) % pageSize ≠ (a.toNat - d.start) % pageSize → t.read b = s.read b) ∧
        (i ≠ j → t.read b = s.read b)) ∧
    (d.kind = .ram →
      ∃ t, s.write a v = .ok t ∧ (b = a → t.read b = .ok v) ∧ (b ≠ a → t.read b = s.read b))

/-- Rules R66 and R69: NROM and CNROM show PRG byte `addr mod 16384` with one bank and `addr mod 32768` otherwise; a
write to NROM has no effect. More than two banks, and the ignored write, are the spec's own decisions D21 and D18. -/
def Obligations.NromAndCnromShowFixedPrg : Prop :=
  ∀ (s : State) (a : Addr) (v : Byte), s.target a = some .mapper → s.cart.mapper = .nrom ∨ s.cart.mapper = .cnrom →
    s.read a =
        .ok (s.cart.prg.read (if s.cart.prgBanks = 1 then a.toNat % 16384 else a.toNat % 32768)) ∧
      (s.cart.mapper = .nrom → s.write a v = .ok s)

/-- Rules R64, R67 and R68: a write anywhere in the PRG range of UxROM selects the masked bank for 0x8000 to 0xBFFF,
at once; 0xC000 to 0xFFFF shows the last bank; nothing else changes. The mask names a present bank, and is `mod` for a
power of two. The AND and the range written are the spec's own decisions D19 and D37. -/
def Obligations.UxromSwitchesTheLowerWindow : Prop :=
  (∀ (s : State) (a b : Addr) (v : Byte), s.cart.mapper = .uxrom → 1 ≤ s.cart.prgBanks →
    s.target a = some .mapper → s.target b = some .mapper →
    ∃ bank, bank ≤ s.cart.prgBanks - 1 ∧ bank = v.toNat &&& (s.cart.prgBanks - 1) ∧
      (∀ k, s.cart.prgBanks = 2 ^ k → bank = v.toNat % s.cart.prgBanks) ∧
      s.write a v = .ok { s with prgBank := bank } ∧
      { s with prgBank := bank }.read b =
        .ok (s.cart.prg.read
          ((if b.toNat < 0xC000 then bank else s.cart.prgBanks - 1) * 16384 + b.toNat % 16384)))

/-- Rules R64, R70, R71 and R72: a write anywhere in the PRG range of CNROM selects the CHR bank that PPU-side reads
then show; with CHR-RAM the register stays 0. The AND for a count that is no power of two, the case of no CHR-ROM and
the PPU-side window are the spec's own decisions D19, D36 and D25. -/
def Obligations.CnromSelectsTheChrBank : Prop :=
  ∀ (s : State) (a c : Addr) (v : Byte), s.cart.mapper = .cnrom → s.target a = some .mapper →
    s.cfg.chrWindowStart ≤ c.toNat → c.toNat ≤ s.cfg.chrWindowStop →
    ∃ bank, s.write a v = .ok { s with chrBank := bank } ∧
      (s.cart.chrBanks = 0 → bank = 0) ∧
      (1 ≤ s.cart.chrBanks → bank = v.toNat &&& (s.cart.chrBanks - 1) ∧ bank ≤ s.cart.chrBanks - 1 ∧
        { s with chrBank := bank }.ppuRead c =
          .ok (s.cart.chr.read (bank * 8192 + (c.toNat - s.cfg.chrWindowStart) % 8192)))

/-- Rules R24 and R71: the PPU-side device of every mapper. CHR-RAM reads back what the PPU side wrote and keeps its
other bytes; a write to CHR-ROM has no effect; NROM and UxROM show bank 0; a PPU-side read changes nothing. The
window, the offsets and the ignored write are the spec's own decisions D25 and D18; an access outside the window is
refused (the model's choice, log entry 11). -/
def Obligations.PpuSideDevice : Prop :=
  (∀ (s : State) (c e : Addr) (v : Byte), s.chrRam.wf = true → configLegal s.cfg →
    s.cfg.chrWindowStart ≤ c.toNat → c.toNat ≤ s.cfg.chrWindowStop →
    s.cfg.chrWindowStart ≤ e.toNat → e.toNat ≤ s.cfg.chrWindowStop →
    (s.cart.chrBanks = 0 → ∃ t, applyEvent (.ppuWrite c v) s = .next t ∧ t.ppuRead c = .ok v ∧
      (e ≠ c → t.ppuRead e = s.ppuRead e) ∧ t = { s with chrRam := t.chrRam }) ∧
    (s.cart.chrBanks ≠ 0 → applyEvent (.ppuWrite c v) s = .next s) ∧
    (s.cart.chrBanks ≠ 0 → s.cart.mapper ≠ .cnrom →
      s.ppuRead c = .ok (s.cart.chr.read (c.toNat - s.cfg.chrWindowStart))) ∧
    applyEvent (.ppuRead c) s = .next s) ∧
  ∀ (s : State) (c : Addr) (v : Byte), c.toNat < s.cfg.chrWindowStart ∨ s.cfg.chrWindowStop < c.toNat →
    applyEvent (.ppuRead c) s = .refused .outsideChrWindow ∧
      applyEvent (.ppuWrite c v) s = .refused .outsideChrWindow

/-- Rules R61, R62 and R63: which images are accepted, and the cartridge an accepted image is. The trainer and length
refusals and the ignored fields are the spec's own decisions D23, D35 and D33; that an image with bytes after its
payload is accepted is the model's choice (log entry 13), and so is the mapper where two of the three mapper numbers
are equal (log entry 22). -/
def Obligations.CartridgeLoadFollowsTheHeader : Prop :=
  ∀ (cfg : Config) (image : List Byte),
    let byte := fun n => image.getD n 0
    let mapperId := byte 7 &&& 0xF0 ||| byte 6 >>> 4
    let accepted := 16 ≤ image.length ∧ byte 0 = 0x4E ∧ byte 1 = 0x45 ∧ byte 2 = 0x53 ∧ byte 3 = 0x1A ∧
      1 ≤ (byte 4).toNat ∧ mapperId ∈ [cfg.mapperIdNrom, cfg.mapperIdUxrom, cfg.mapperIdCnrom] ∧
      (byte 10).extractLsb' 0 2 = cfg.tvNtsc ∧ (byte 6).getLsbD 2 = false ∧
      16 + (byte 4).toNat * 16384 + (byte 5).toNat * 8192 ≤ image.length
    (accepted ↔ ∃ c, loadCartridge cfg image = .ok c) ∧
      ∀ c, loadCartridge cfg image = .ok c →
        c.prgBanks = (byte 4).toNat ∧ c.chrBanks = (byte 5).toNat ∧ c.mapperId = mapperId ∧
          mapperOf cfg mapperId = some c.mapper ∧ c.mirroring = (byte 6).getLsbD 0 ∧
          c.extRam = (byte 6).getLsbD 1 ∧ c.prg.wf = true ∧ c.chr.wf = true ∧
          (∀ n, n < c.prgBanks * 16384 → c.prg.read n = byte (16 + n)) ∧
          ∀ n, n < c.chrBanks * 8192 → c.chr.read n = byte (16 + c.prgBanks * 16384 + n)

/-- Rules R3, R48, R52, R65 and R71: a machine is built exactly from a configuration in which every range is legal
(the PPU-side device's 8192 addresses among them), every MirroredRAM starts at and fills a multiple of its page, a
CPU-side mapper claims 0x8000 to 0xFFFF, and the cycle table is 256 counts of at least 1. Rules R23, R26, R62 and R284:
the machine built has that configuration, the cartridge and the launch memory, no fault, no reset() yet, and its
bank-select registers at BANK_RESET, or at 0 for CHR with no banks. The cases of an inverted range, of a page that does
not fit and of the window are the spec's own decisions D39, D17 and D25; refusing a mapper with another range is the
model's choice (log entry 19), and so is the 0 where BANK_RESET is another number (log entry 5). Any other BANK_RESET
that names no present bank is left out here. -/
def Obligations.IllegalWiringBuildsNoMachine : Prop :=
  ∀ (cfg : Config) (cart : Cartridge) (ramInit chrRamInit : Memory) (before : Unspecified),
    ((∃ s, buildMachine cfg cart ramInit chrRamInit before = .ok s) ↔
      (∀ d ∈ cfg.wiring, d.start ≤ d.stop ∧ d.stop ≤ 0xFFFF ∧
        (∀ pageSize, d.kind = .mirroredRam pageSize →
          pageSize ≠ 0 ∧ pageSize ∣ d.start ∧ pageSize ∣ d.stop - d.start + 1) ∧
        (d.kind = .prgMapper → d.start = 0x8000 ∧ d.stop = 0xFFFF)) ∧
      cfg.chrWindowStop = cfg.chrWindowStart + 0x1FFF ∧ cfg.chrWindowStop ≤ 0xFFFF ∧
      cfg.cycleTable.length = 256 ∧ ∀ n ∈ cfg.cycleTable, 1 ≤ n) ∧
    ∀ s, buildMachine cfg cart ramInit chrRamInit before = .ok s →
      s.cfg = cfg ∧ s.cart = cart ∧ s.mem = ramInit ∧ s.chrRam = chrRamInit ∧ s.fault = none ∧ s.started = false ∧
        (cfg.bankReset < cart.prgBanks → s.prgBank = cfg.bankReset) ∧
        (cfg.bankReset < cart.chrBanks → s.chrBank = cfg.bankReset) ∧ (cart.chrBanks = 0 → s.chrBank = 0)

/-! ## Addressing modes -/

/-- Rules R122 to R125 and R127: the modes that make no pointer read. Page-zero indexing stays in the zero page and
requests no extra cycle. The wrap inside the zero page is the spec's own decision D13. -/
def Obligations.DirectModesAddress : Prop :=
  ∀ (s : State) (b : Byte) (w : Addr),
    effective (.imm b) s = .ok { addr := s.pc - 1, crossed := false } ∧
      effective (.zp0 b) s = .ok { addr := BitVec.ofNat 16 b.toNat, crossed := false } ∧
      effective (.zpx b) s = .ok { addr := BitVec.ofNat 16 ((b.toNat + s.x.toNat) % 256), crossed := false } ∧
      effective (.zpy b) s = .ok { addr := BitVec.ofNat 16 ((b.toNat + s.y.toNat) % 256), crossed := false } ∧
      effective (.abs w) s = .ok { addr := w, crossed := false }

/-- Rules R128 and R129: the sum wraps `mod 65536`, and the extra cycle is requested exactly when the low bytes' sum
leaves the page. The wrap at 0xFFFF is the spec's own decision D15. -/
def Obligations.IndexedModesAddress : Prop :=
  ∀ (s : State) (base : Addr),
    (∃ ea, effective (.abx base) s = .ok ea ∧ ea.addr.toNat = (base.toNat + s.x.toNat) % 65536 ∧
      (ea.crossed = true ↔ 256 ≤ base.toNat % 256 + s.x.toNat)) ∧
    ∃ ea, effective (.aby base) s = .ok ea ∧ ea.addr.toNat = (base.toNat + s.y.toNat) % 65536 ∧
      (ea.crossed = true ↔ 256 ≤ base.toNat % 256 + s.y.toNat)

/-- Rule R130: the pointer's high byte comes from the start of the same page when its low byte is 0xFF. -/
def Obligations.IndirectModeWrapsInThePage : Prop :=
  ∀ (s : State) (ptr : Addr) (lo hi : Byte), s.read ptr = .ok lo →
    s.read (if ptr.toNat % 256 = 255 then ptr - 255 else ptr + 1) = .ok hi →
    effective (.ind ptr) s = .ok { addr := BitVec.ofNat 16 (hi.toNat * 256 + lo.toNat), crossed := false }

/-- Rules R131 and R132: both pointer bytes come from the zero page; IZX adds X before the pointer read and never asks
for a cycle, IZY adds Y after it and asks for one when the sum leaves the page. The wraps of the second pointer byte
and of the sum are the spec's own decisions D13 and D15. -/
def Obligations.ZeroPagePointerModesAddress : Prop :=
  (∀ (s : State) (b lo hi : Byte),
    s.read (BitVec.ofNat 16 ((b.toNat + s.x.toNat) % 256)) = .ok lo →
    s.read (BitVec.ofNat 16 ((b.toNat + s.x.toNat + 1) % 256)) = .ok hi →
    effective (.izx b) s = .ok { addr := BitVec.ofNat 16 (hi.toNat * 256 + lo.toNat), crossed := false }) ∧
  ∀ (s : State) (b lo hi : Byte),
    s.read (BitVec.ofNat 16 b.toNat) = .ok lo → s.read (BitVec.ofNat 16 ((b.toNat + 1) % 256)) = .ok hi →
    ∃ ea, effective (.izy b) s = .ok ea ∧
      ea.addr.toNat = (hi.toNat * 256 + lo.toNat + s.y.toNat) % 65536 ∧
      (ea.crossed = true ↔ 256 ≤ lo.toNat + s.y.toNat)

/-! ## Arithmetic, logic, shifts, compares -/

/-- Rule R140. -/
def Obligations.AdcAddsWithCarry : Prop :=
  Encodings .adc [(.imm, 0x69, 2), (.zp0, 0x65, 3), (.zpx, 0x75, 4), (.abs, 0x6D, 4), (.abx, 0x7D, 4),
      (.aby, 0x79, 4), (.izx, 0x61, 6), (.izy, 0x71, 5)] ∧
    .adc ∈ defaultAgreesExtra ∧
    ∀ (m : Operand) (s : State) (ea : Ea) (v : Byte), WellFormed (.adc m) → OperandIs (.adc m) s ea v →
      let sum := s.a.toNat + v.toNat + (s.flag .c).toNat
      let signed := s.a.toInt + v.toInt + (s.flag .c).toNat
      ∃ r p, exec (.adc m) s = .next { s.after (.adc m) (extraCycles s.cfg .adc ea.crossed) with a := r, p := p } ∧
        r.toNat = sum % 256 ∧
        FlagsAre p s.p ([(.c, decide (255 < sum)), (.v, decide (signed < -128 ∨ 127 < signed))] ++ resultFlags r)

/-- Rule R141: the carry is NOT borrow. That SBC is ADC of the one's complement the spec itself marks as general
knowledge. -/
def Obligations.SbcSubtractsWithBorrow : Prop :=
  Encodings .sbc [(.imm, 0xE9, 2), (.zp0, 0xE5, 3), (.zpx, 0xF5, 4), (.abs, 0xED, 4), (.abx, 0xFD, 4),
      (.aby, 0xF9, 4), (.izx, 0xE1, 6), (.izy, 0xF1, 5)] ∧
    .sbc ∈ defaultAgreesExtra ∧
    ∀ (m : Operand) (s : State) (ea : Ea) (v : Byte), WellFormed (.sbc m) → OperandIs (.sbc m) s ea v →
      let borrow := 1 - (s.flag .c).toNat
      let signed := s.a.toInt - v.toInt - borrow
      ∃ r p, exec (.sbc m) s = .next { s.after (.sbc m) (extraCycles s.cfg .sbc ea.crossed) with a := r, p := p } ∧
        (r.toNat : Int) = ((s.a.toNat : Int) - v.toNat - borrow) % 256 ∧
        FlagsAre p s.p ([(.c, decide (v.toNat + borrow ≤ s.a.toNat)),
          (.v, decide (signed < -128 ∨ 127 < signed))] ++ resultFlags r)

/-- What a shift or rotate does in both forms: the result byte goes where the operand came from, in memory by one
write of the address it was read from; C is the bit shifted out. -/
def Sys2Proof.Machine.ShiftIs (f : Operand → Instr) (mn : Mnemonic) (result : Byte → Nat → Nat)
    (carry : Byte → Bool) : Prop :=
  ∀ (m : Operand) (s : State) (ea : Ea) (v : Byte), WellFormed (f m) → OperandIs (f m) s ea v →
    ∃ r p : Byte, r.toNat = result v (s.flag .c).toNat ∧ FlagsAre p s.p ([(.c, carry v)] ++ resultFlags r) ∧
      (m = .imp → exec (f m) s = .next { s.after (f m) 0 with a := r, p := p }) ∧
      (m ≠ .imp → ∃ w, s.write ea.addr r = .ok w ∧
        exec (f m) s = .next { s.after (f m) (extraCycles s.cfg mn ea.crossed) with
          mem := w.mem, prgBank := w.prgBank, chrBank := w.chrBank, p := p })

/-- Rules R150 to R153. -/
def Obligations.ShiftsMoveByOneBit : Prop :=
  Encodings .asl [(.imp, 0x0A, 2), (.zp0, 0x06, 5), (.zpx, 0x16, 6), (.abs, 0x0E, 6), (.abx, 0x1E, 7)] ∧
    Encodings .lsr [(.imp, 0x4A, 2), (.zp0, 0x46, 5), (.zpx, 0x56, 6), (.abs, 0x4E, 6), (.abx, 0x5E, 7)] ∧
    Encodings .rol [(.imp, 0x2A, 2), (.zp0, 0x26, 5), (.zpx, 0x36, 6), (.abs, 0x2E, 6), (.abx, 0x3E, 7)] ∧
    Encodings .ror [(.imp, 0x6A, 2), (.zp0, 0x66, 5), (.zpx, 0x76, 6), (.abs, 0x6E, 6), (.abx, 0x7E, 7)] ∧
    (∀ mn ∈ [Mnemonic.asl, .lsr, .rol, .ror], mn ∉ defaultAgreesExtra) ∧
    ShiftIs .asl .asl (fun v _ => v.toNat * 2 % 256) (fun v => decide (128 ≤ v.toNat)) ∧
    ShiftIs .lsr .lsr (fun v _ => v.toNat / 2) (fun v => decide (v.toNat % 2 = 1)) ∧
    ShiftIs .rol .rol (fun v c => (v.toNat * 2 + c) % 256) (fun v => decide (128 ≤ v.toNat)) ∧
    ShiftIs .ror .ror (fun v c => c * 128 + v.toNat / 2) (fun v => decide (v.toNat % 2 = 1))

/-- What a compare does: flags from the register and the operand, and no other write. -/
def Sys2Proof.Machine.CompareIs (f : Operand → Instr) (mn : Mnemonic) (register : State → Byte) : Prop :=
  ∀ (m : Operand) (s : State) (ea : Ea) (v : Byte), WellFormed (f m) → OperandIs (f m) s ea v →
    ∃ p, exec (f m) s = .next { s.after (f m) (extraCycles s.cfg mn ea.crossed) with p := p } ∧
      FlagsAre p s.p [(.c, decide (v.toNat ≤ (register s).toNat)), (.z, decide (register s = v)),
        (.n, decide (128 ≤ ((register s).toNat + 256 - v.toNat) % 256))]

/-- Rules R160 to R162. -/
def Obligations.ComparesSetCarryZeroNegative : Prop :=
  Encodings .cmp [(.imm, 0xC9, 2), (.zp0, 0xC5, 3), (.zpx, 0xD5, 4), (.abs, 0xCD, 4), (.abx, 0xDD, 4),
      (.aby, 0xD9, 4), (.izx, 0xC1, 6), (.izy, 0xD1, 5)] ∧
    Encodings .cpx [(.imm, 0xE0, 2), (.zp0, 0xE4, 3), (.abs, 0xEC, 4)] ∧
    Encodings .cpy [(.imm, 0xC0, 2), (.zp0, 0xC4, 3), (.abs, 0xCC, 4)] ∧
    .cmp ∈ defaultAgreesExtra ∧ .cpx ∉ defaultAgreesExtra ∧ .cpy ∉ defaultAgreesExtra ∧
    CompareIs .cmp .cmp State.a ∧ CompareIs .cpx .cpx State.x ∧ CompareIs .cpy .cpy State.y

/-- What a read instruction with a register result does: the register and Z, N of the result. -/
def Sys2Proof.Machine.ReadIs (f : Operand → Instr) (mn : Mnemonic) (put : State → Byte → State)
    (result : State → Byte → Byte) : Prop :=
  ∀ (m : Operand) (s : State) (ea : Ea) (v : Byte), WellFormed (f m) → OperandIs (f m) s ea v →
    ∃ p, exec (f m) s = .next { put (s.after (f m) (extraCycles s.cfg mn ea.crossed)) (result s v) with p := p } ∧
      FlagsAre p s.p (resultFlags (result s v))

/-- Rules R240 to R242. The spec marks these rules as general knowledge (47_logic_nop.md, opening). -/
def Obligations.LogicInstructionsCombineWithA : Prop :=
  Encodings .and [(.imm, 0x29, 2), (.zp0, 0x25, 3), (.zpx, 0x35, 4), (.abs, 0x2D, 4), (.abx, 0x3D, 4),
      (.aby, 0x39, 4), (.izx, 0x21, 6), (.izy, 0x31, 5)] ∧
    Encodings .ora [(.imm, 0x09, 2), (.zp0, 0x05, 3), (.zpx, 0x15, 4), (.abs, 0x0D, 4), (.abx, 0x1D, 4),
      (.aby, 0x19, 4), (.izx, 0x01, 6), (.izy, 0x11, 5)] ∧
    Encodings .eor [(.imm, 0x49, 2), (.zp0, 0x45, 3), (.zpx, 0x55, 4), (.abs, 0x4D, 4), (.abx, 0x5D, 4),
      (.aby, 0x59, 4), (.izx, 0x41, 6), (.izy, 0x51, 5)] ∧
    (∀ mn ∈ [Mnemonic.and, .ora, .eor], mn ∈ defaultAgreesExtra) ∧
    ReadIs .and .and (fun t r => { t with a := r }) (fun s v => s.a &&& v) ∧
    ReadIs .ora .ora (fun t r => { t with a := r }) (fun s v => s.a ||| v) ∧
    ReadIs .eor .eor (fun t r => { t with a := r }) (fun s v => s.a ^^^ v)

/-- Rule R243: N and V come from the memory byte, Z from the AND; nothing else changes. The spec marks this rule as
general knowledge (47_logic_nop.md, opening). -/
def Obligations.BitTestsMemory : Prop :=
  Encodings .bit [(.zp0, 0x24, 3), (.abs, 0x2C, 4)] ∧ .bit ∉ defaultAgreesExtra ∧
    ∀ (m : Operand) (s : State) (ea : Ea) (v : Byte), WellFormed (.bit m) → OperandIs (.bit m) s ea v →
      ∃ p, exec (.bit m) s = .next { s.after (.bit m) (extraCycles s.cfg .bit ea.crossed) with p := p } ∧
        FlagsAre p s.p [(.z, decide (s.a &&& v = 0)), (.n, v.getLsbD 7), (.v, v.getLsbD 6)]

/-- Rules R244 and R245: NOP and every undocumented byte change PC (by 1), P.U and the counter, and nothing else. The
fallback's length and cost are the spec's own decision D6. -/
def Obligations.NopAndFallbackHaveNoEffect : Prop :=
  EncodedAs .nop 0xEA 2 ∧ (∀ s : State, exec .nop s = .next (s.after .nop 0)) ∧
    ∀ op ∈ undocumentedBytes, EncodedAs (.undoc op) op 2 ∧
      ∀ s : State, exec (.undoc op) s =
        .next { s with pc := s.pc + 1, p := s.p ||| 0x20, cycles := s.cfg.cycleTable.getD op.toNat 1 }

/-! ## Loads, stores, transfers, increments, flags -/

/-- Rules R201 to R203. -/
def Obligations.LoadsReadTheOperand : Prop :=
  Encodings .lda [(.imm, 0xA9, 2), (.zp0, 0xA5, 3), (.zpx, 0xB5, 4), (.abs, 0xAD, 4), (.abx, 0xBD, 4),
      (.aby, 0xB9, 4), (.izx, 0xA1, 6), (.izy, 0xB1, 5)] ∧
    Encodings .ldx [(.imm, 0xA2, 2), (.zp0, 0xA6, 3), (.zpy, 0xB6, 4), (.abs, 0xAE, 4), (.aby, 0xBE, 4)] ∧
    Encodings .ldy [(.imm, 0xA0, 2), (.zp0, 0xA4, 3), (.zpx, 0xB4, 4), (.abs, 0xAC, 4), (.abx, 0xBC, 4)] ∧
    (∀ mn ∈ [Mnemonic.lda, .ldx, .ldy], mn ∈ defaultAgreesExtra) ∧
    ReadIs .lda .lda (fun t r => { t with a := r }) (fun _ v => v) ∧
    ReadIs .ldx .ldx (fun t r => { t with x := r }) (fun _ v => v) ∧
    ReadIs .ldy .ldy (fun t r => { t with y := r }) (fun _ v => v)

/-- What a store does: one write of a register at the effective address, and no flag. -/
def Sys2Proof.Machine.StoreIs (f : Operand → Instr) (mn : Mnemonic) (register : State → Byte) : Prop :=
  ∀ (m : Operand) (s w : State) (ea : Ea), WellFormed (f m) → AddressIs (f m) s ea →
    s.write ea.addr (register s) = .ok w →
    exec (f m) s = .next { s.after (f m) (extraCycles s.cfg mn ea.crossed) with
      mem := w.mem, prgBank := w.prgBank, chrBank := w.chrBank }

/-- Rules R204 to R206. -/
def Obligations.StoresWriteTheRegister : Prop :=
  Encodings .sta [(.zp0, 0x85, 3), (.zpx, 0x95, 4), (.abs, 0x8D, 4), (.abx, 0x9D, 5), (.aby, 0x99, 5),
      (.izx, 0x81, 6), (.izy, 0x91, 6)] ∧
    Encodings .stx [(.zp0, 0x86, 3), (.zpy, 0x96, 4), (.abs, 0x8E, 4)] ∧
    Encodings .sty [(.zp0, 0x84, 3), (.zpx, 0x94, 4), (.abs, 0x8C, 4)] ∧
    (∀ mn ∈ [Mnemonic.sta, .stx, .sty], mn ∉ defaultAgreesExtra) ∧
    StoreIs .sta .sta State.a ∧ StoreIs .stx .stx State.x ∧ StoreIs .sty .sty State.y

/-- Rules R207 to R212: TXS is the one transfer that writes no flag. -/
def Obligations.TransfersCopyARegister : Prop :=
  EncodedAs .tax 0xAA 2 ∧ EncodedAs .tay 0xA8 2 ∧ EncodedAs .tsx 0xBA 2 ∧ EncodedAs .txa 0x8A 2 ∧
    EncodedAs .txs 0x9A 2 ∧ EncodedAs .tya 0x98 2 ∧
    ∀ s : State,
      (∃ p, exec .tax s = .next { s.after .tax 0 with x := s.a, p := p } ∧ FlagsAre p s.p (resultFlags s.a)) ∧
      (∃ p, exec .tay s = .next { s.after .tay 0 with y := s.a, p := p } ∧ FlagsAre p s.p (resultFlags s.a)) ∧
      (∃ p, exec .tsx s = .next { s.after .tsx 0 with x := s.sp, p := p } ∧ FlagsAre p s.p (resultFlags s.sp)) ∧
      (∃ p, exec .txa s = .next { s.after .txa 0 with a := s.x, p := p } ∧ FlagsAre p s.p (resultFlags s.x)) ∧
      exec .txs s = .next { s.after .txs 0 with sp := s.x } ∧
      (∃ p, exec .tya s = .next { s.after .tya 0 with a := s.y, p := p } ∧ FlagsAre p s.p (resultFlags s.y))

/-- What INC and DEC do: one read and one write of the same address, Z and N of the result, C and V untouched. -/
def Sys2Proof.Machine.StepMemoryIs (f : Operand → Instr) (mn : Mnemonic) (delta : Nat) : Prop :=
  ∀ (m : Operand) (s : State) (ea : Ea) (v : Byte), WellFormed (f m) → OperandIs (f m) s ea v →
    ∃ (r p : Byte) (w : State), r.toNat = (v.toNat + delta) % 256 ∧ FlagsAre p s.p (resultFlags r) ∧
      s.write ea.addr r = .ok w ∧
      exec (f m) s = .next { s.after (f m) (extraCycles s.cfg mn ea.crossed) with
        mem := w.mem, prgBank := w.prgBank, chrBank := w.chrBank, p := p }

/-- Rules R213 and R216: INC adds 1, DEC subtracts 1 (adds 255) modulo 256. -/
def Obligations.IncAndDecStepMemory : Prop :=
  Encodings .inc [(.zp0, 0xE6, 5), (.zpx, 0xF6, 6), (.abs, 0xEE, 6), (.abx, 0xFE, 7)] ∧
    Encodings .dec [(.zp0, 0xC6, 5), (.zpx, 0xD6, 6), (.abs, 0xCE, 6), (.abx, 0xDE, 7)] ∧
    .inc ∉ defaultAgreesExtra ∧ .dec ∉ defaultAgreesExtra ∧
    StepMemoryIs .inc .inc 1 ∧ StepMemoryIs .dec .dec 255

/-- Rules R214, R215, R217 and R218: the index registers step by one modulo 256. -/
def Obligations.IndexRegistersStepByOne : Prop :=
  EncodedAs .inx 0xE8 2 ∧ EncodedAs .iny 0xC8 2 ∧ EncodedAs .dex 0xCA 2 ∧ EncodedAs .dey 0x88 2 ∧
    ∀ s : State,
      (∃ r p, exec .inx s = .next { s.after .inx 0 with x := r, p := p } ∧ r.toNat = (s.x.toNat + 1) % 256 ∧
        FlagsAre p s.p (resultFlags r)) ∧
      (∃ r p, exec .iny s = .next { s.after .iny 0 with y := r, p := p } ∧ r.toNat = (s.y.toNat + 1) % 256 ∧
        FlagsAre p s.p (resultFlags r)) ∧
      (∃ r p, exec .dex s = .next { s.after .dex 0 with x := r, p := p } ∧ r.toNat = (s.x.toNat + 255) % 256 ∧
        FlagsAre p s.p (resultFlags r)) ∧
      (∃ r p, exec .dey s = .next { s.after .dey 0 with y := r, p := p } ∧ r.toNat = (s.y.toNat + 255) % 256 ∧
        FlagsAre p s.p (resultFlags r))

/-- What a flag instruction does: one flag, nothing else. -/
def Sys2Proof.Machine.FlagInstructionIs (i : Instr) (op : Byte) (f : Flag) (value : Bool) : Prop :=
  EncodedAs i op 2 ∧
    ∀ s : State, ∃ p, exec i s = .next { s.after i 0 with p := p } ∧ FlagsAre p s.p [(f, value)]

/-- Rules R219 to R225: what each of the seven writes. What R221 and R225 say of the irq(), nmi() and BRK after them
is in IrqIsMaskedByI, NmiIsUnconditional and BrkTakesTheTrap, what R220 and R224 say of Decimal in
DecimalFlagChangesNoResult. -/
def Obligations.FlagInstructionsWriteOneFlag : Prop :=
  FlagInstructionIs .clc 0x18 .c false ∧ FlagInstructionIs .cld 0xD8 .d false ∧
    FlagInstructionIs .cli 0x58 .i false ∧ FlagInstructionIs .clv 0xB8 .v false ∧
    FlagInstructionIs .sec 0x38 .c true ∧ FlagInstructionIs .sed 0xF8 .d true ∧
    FlagInstructionIs .sei 0x78 .i true

/-! ## Branches, jumps, the stack, traps -/

/-- What a branch does: the target counts from the following instruction; 1 extra cycle when taken, 2 when the target's
page is not the following instruction's. -/
def Sys2Proof.Machine.BranchIs (f : Byte → Instr) (op : Byte) (flag : Flag) (value : Bool) : Prop :=
  ∀ rel8 : Byte, EncodedAs (f rel8) op 2 ∧
    ∀ s : State,
      (s.flag flag ≠ value → exec (f rel8) s = .next (s.after (f rel8) 0)) ∧
      (s.flag flag = value → ∃ target : Addr, ∃ extra : Nat,
        exec (f rel8) s = .next { s.after (f rel8) extra with pc := target } ∧
        (target.toNat : Int) = (((s.pc + 2).toNat : Int) + rel8.toInt) % 65536 ∧
        extra = if target.toNat / 256 = (s.pc + 2).toNat / 256 then 1 else 2)

/-- Rules R170 to R178. The wrap of the target and how the extras add to the base cost are the spec's own decisions
D15 and D32. -/
def Obligations.BranchesTestOneFlag : Prop :=
  BranchIs .bcc 0x90 .c false ∧ BranchIs .bcs 0xB0 .c true ∧ BranchIs .beq 0xF0 .z true ∧
    BranchIs .bmi 0x30 .n true ∧ BranchIs .bne 0xD0 .z false ∧ BranchIs .bpl 0x10 .n false ∧
    BranchIs .bvc 0x50 .v false ∧ BranchIs .bvs 0x70 .v true

/-- Rule R189, with the indirect form's address from rule R130. -/
def Obligations.JumpsGoToTheEffectiveAddress : Prop :=
  Encodings .jmp [(.abs, 0x4C, 3), (.ind, 0x6C, 5)] ∧
    ∀ (m : Operand) (s : State) (ea : Ea), WellFormed (.jmp m) → AddressIs (.jmp m) s ea →
      exec (.jmp m) s = .next { s.after (.jmp m) 0 with pc := ea.addr }

/-- Rules R180, R181 and R182: PHA stores A, PHP stores P with B and U set, at 0x0100 + SP, and SP goes down by one; P
is unchanged but for U, its B included. The direction and the post-decrement are the spec's own decision D12, the
unchanged B its own decision D9. -/
def Obligations.PushesStoreAndDecrement : Prop :=
  EncodedAs .pha 0x48 3 ∧ EncodedAs .php 0x08 3 ∧
    ∀ s : State, s.claims (0x0100#16 + s.sp.setWidth 16) = true →
      (∃ w, PushedTo (s.after .pha 0) s.sp [s.a] w ∧ exec .pha s = .next { w with sp := s.sp - 1 }) ∧
      ∃ w, PushedTo (s.after .php 0) s.sp [s.p ||| 0x30] w ∧ exec .php s = .next { w with sp := s.sp - 1 }

/-- Rules R180, R183 and R184. The pre-increment and the loading of B are the spec's own decisions D12 and D9. -/
def Obligations.PullsIncrementAndLoad : Prop :=
  EncodedAs .pla 0x68 4 ∧ EncodedAs .plp 0x28 4 ∧
    ∀ (s : State) (v : Byte), s.read (pullAddr s.sp 1) = .ok v →
      (∃ p, exec .pla s = .next { s.after .pla 0 with a := v, sp := s.sp + 1, p := p } ∧
        FlagsAre p s.p (resultFlags v)) ∧
      exec .plp s = .next { s.after .plp 0 with sp := s.sp + 1, p := v ||| 0x20 }

/-- Rule R185: JSR pushes the address of its own third byte, high byte first, and jumps. The stack direction and the
operand reads before the pushes are the spec's own decisions D12 and D34. -/
def Obligations.JsrPushesItsLastByte : Prop :=
  (∀ target : Addr, EncodedAs (.jsr target) 0x20 6) ∧
    ∀ (s : State) (target : Addr), s.claims (0x0100#16 + s.sp.setWidth 16) = true →
      s.claims (0x0100#16 + (s.sp - 1).setWidth 16) = true →
      ∃ w hi lo, PushedTo (s.after (.jsr target) 0) s.sp [hi, lo] w ∧
        BitVec.ofNat 16 (hi.toNat * 256 + lo.toNat) = s.pc + 2 ∧
        exec (.jsr target) s = .next { w with sp := s.sp - 2, pc := target }

/-- Rules R186 and R187: RTS pulls the low and the high byte of PC and adds 1; RTI pulls P, then PC, and adds nothing.
The pull discipline is the spec's own decision D12, and that RTI loads B from the pulled byte its own decision D9. -/
def Obligations.ReturnsPullThePc : Prop :=
  EncodedAs .rts 0x60 6 ∧ EncodedAs .rti 0x40 6 ∧
    (∀ (s : State) (lo hi : Byte), s.read (pullAddr s.sp 1) = .ok lo → s.read (pullAddr s.sp 2) = .ok hi →
      exec .rts s = .next { s.after .rts 0 with
        sp := s.sp + 2, pc := BitVec.ofNat 16 (hi.toNat * 256 + lo.toNat + 1) }) ∧
    ∀ (s : State) (v lo hi : Byte), s.read (pullAddr s.sp 1) = .ok v → s.read (pullAddr s.sp 2) = .ok lo →
      s.read (pullAddr s.sp 3) = .ok hi →
      exec .rti s = .next { s.after .rti 0 with
        sp := s.sp + 3, p := v ||| 0x20, pc := BitVec.ofNat 16 (hi.toNat * 256 + lo.toNat) }

/-- The three pushes, the vector read and the jump of a trap taken in state `s` (rule R256); `t` is the state after it
but for the cycle counter. -/
def Sys2Proof.Machine.TrapTaken (s t : State) (returnAddress : Addr) (status : Byte) (vector : Addr) : Prop :=
  ∃ w hi lo vlo vhi, PushedTo s s.sp [hi, lo, status] w ∧
    BitVec.ofNat 16 (hi.toNat * 256 + lo.toNat) = returnAddress ∧
    w.read vector = .ok vlo ∧ w.read (vector + 1) = .ok vhi ∧
    t = { w with sp := s.sp - 3, p := s.p ||| 0x04, pc := BitVec.ofNat 16 (vhi.toNat * 256 + vlo.toNat) }

/-- The bus accesses of a trap are claimed (rule R256). -/
def Sys2Proof.Machine.TrapAccessesClaimed (s : State) (vector : Addr) : Prop :=
  ∀ a ∈ trapAddresses s.sp vector, s.claims a = true

/-- Rules R188 and R256: BRK is taken whatever I holds; it pushes its address + 2 and P with B and U set, sets I and
goes through 0xFFFE. The return address, the setting of I and the stack direction are the spec's own decisions D11 and
D12; that the register's B stays as it was is its own decision D9. -/
def Obligations.BrkTakesTheTrap : Prop :=
  EncodedAs .brk 0x00 7 ∧
    ∀ s : State, TrapAccessesClaimed s 0xFFFE →
      ∃ t, exec .brk s = .next t ∧ TrapTaken (s.after .brk 0) t (s.pc + 2) (s.p ||| 0x30) 0xFFFE

/-- Rules R49, R250, R253 and R256: irq() is ignored while I is set; otherwise it pushes the current PC and P with B
cleared, sets I, goes through 0xFFFE, and the counter is 7; the first of its accesses that no device claims ends it in
BusAbort of that address. The overwriting of the counter and the stack direction are the spec's own decisions D10 and
D12; that the register's B stays as it was is its own decision D9. That the abort ends the run is the spec's own
decision D16. -/
def Obligations.IrqIsMaskedByI : Prop :=
  ∀ s : State, s.started = true →
    (s.flag .i = true → applyEvent .irq s = .next s) ∧
    (s.flag .i = false → TrapAccessesClaimed s 0xFFFE →
      ∃ t, applyEvent .irq s = .next { t with cycles := 7 } ∧
        TrapTaken s t s.pc (s.p &&& 0xEF ||| 0x20) 0xFFFE) ∧
    (s.flag .i = false → ∀ a, FirstUnclaimed s (trapAddresses s.sp 0xFFFE) a →
      applyEvent .irq s = .fault (.busAbort a))

/-- Rules R49, R250, R254, R255 and R256: nmi() is taken whatever I holds, through 0xFFFA, and the counter is 8; an
irq() called right after it is ignored; the first of its accesses that no device claims ends it in BusAbort of that
address. The overwriting of the counter and the stack direction are the spec's own decisions D10 and D12; that the
register's B stays as it was is its own decision D9. That the abort ends the run is the spec's own decision D16. -/
def Obligations.NmiIsUnconditional : Prop :=
  ∀ s : State, s.started = true →
    (TrapAccessesClaimed s 0xFFFA →
      ∃ t, applyEvent .nmi s = .next { t with cycles := 8 } ∧
        TrapTaken s t s.pc (s.p &&& 0xEF ||| 0x20) 0xFFFA ∧
        applyEvent .irq { t with cycles := 8 } = .next { t with cycles := 8 }) ∧
    ∀ a, FirstUnclaimed s (trapAddresses s.sp 0xFFFA) a → applyEvent .nmi s = .fault (.busAbort a)

/-- The `n` stack bytes below a stack pointer lie in RAM, each in a byte of its own. -/
def Sys2Proof.Machine.StackInRam (s : State) (n : Nat) : Prop :=
  s.mem.wf = true ∧
    (∀ j, j < n → ∃ key, s.target (0x0100#16 + (s.sp - BitVec.ofNat 8 j).setWidth 16) = some (.cell key)) ∧
    ∀ j k, j < n → k < n → j ≠ k →
      s.target (0x0100#16 + (s.sp - BitVec.ofNat 8 j).setWidth 16) ≠
        s.target (0x0100#16 + (s.sp - BitVec.ofNat 8 k).setWidth 16)

/-- Rules R185 and R186 together: RTS after JSR resumes at the next instruction with the registers as they were. The
stack discipline is the spec's own decision D12. -/
def Obligations.RtsAfterJsrReturns : Prop :=
  ∀ (s : State) (target : Addr), StackInRam s 2 →
    ∃ t u, exec (.jsr target) s = .next t ∧ exec .rts t = .next u ∧
      u.pc = s.pc + 3 ∧ u.sp = s.sp ∧ u.a = s.a ∧ u.x = s.x ∧ u.y = s.y ∧ FlagsAre u.p s.p []

/-- Rules R187, R188, R253, R254 and R258: RTI after a trap resumes where the trap came from, with the flags and the
stack pointer of that moment; B is 1 after BRK and 0 after an interrupt. The value of B, BRK's return address and the
stack discipline are the spec's own decisions D9, D11 and D12. -/
def Obligations.RtiAfterATrapResumes : Prop :=
  ∀ s t : State, StackInRam s 3 →
    (exec .brk s = .next t → ∃ u, exec .rti t = .next u ∧ u.pc = s.pc + 2 ∧ u.sp = s.sp ∧
      u.a = s.a ∧ u.x = s.x ∧ u.y = s.y ∧ FlagsAre u.p s.p [(.b, true)]) ∧
    (s.started = true → (s.flag .i = false ∧ applyEvent .irq s = .next t) ∨ applyEvent .nmi s = .next t →
      ∃ u, exec .rti t = .next u ∧ u.pc = s.pc ∧ u.sp = s.sp ∧
        u.a = s.a ∧ u.x = s.x ∧ u.y = s.y ∧ FlagsAre u.p s.p [(.b, false)])

/-! ## Reset, the clock, the host -/

/-- Rules R49, R74 and R280: what reset() writes, whatever the state before it; nothing else changes. The first of its
vector bytes that no device claims ends it in BusAbort of that address. The order of the two reads is the spec's own,
and that the abort ends the run its own decision D16. -/
def Obligations.ResetWritesTheCpuAlone : Prop :=
  (∀ (s : State) (lo hi : Byte), s.read 0xFFFC = .ok lo → s.read 0xFFFD = .ok hi →
    applyEvent .reset s = .next { s with
      pc := BitVec.ofNat 16 (hi.toNat * 256 + lo.toNat), a := 0, x := 0, y := 0, sp := s.cfg.spReset, p := 0x20,
      cycles := 8, started := true }) ∧
  ∀ (s : State) (a : Addr), FirstUnclaimed s [0xFFFC, 0xFFFD] a → applyEvent .reset s = .fault (.busAbort a)

/-- Rule R26: the state after reset() of a machine built on the spec's default parameters. The wiring, the blank
cartridge and the empty launch memory are the model's choice (log entries 1, 2 and 3). The default parameters are log
entry 4. -/
def Obligations.ResetStateIsTheBuiltMachineReset : Prop :=
  State.reset.a = 0 ∧ State.reset.x = 0 ∧ State.reset.y = 0 ∧ State.reset.sp = 0xFD ∧ State.reset.p = 0x20 ∧
    State.reset.cycles = 8 ∧ State.reset.fault = none ∧ State.reset.prgBank = 0 ∧ State.reset.chrBank = 0 ∧
    ∀ before : Unspecified, ∃ s,
      buildMachine (defaultConfig (referenceWiring false)) blankCartridge [] [] before = .ok s ∧
        applyEvent .reset s = .next State.reset

/-- Rules R281, R25 and R265: clock(), irq() and nmi() are refused before the first reset(); the latch records the
address of an abort; no step is taken after a recorded fault, and the latch keeps it; PC is forced at an instruction
boundary only. These are the spec's own decisions D27, D16 and D40; the form of the latch and of the refusal are log
entries 6 and 17. -/
def Obligations.EventsOutOfPlaceAreRefused : Prop :=
  ∀ (s : State) (a : Addr),
    (s.started = false → applyEvent .clock s = .refused .beforeReset ∧ applyEvent .irq s = .refused .beforeReset ∧
      applyEvent .nmi s = .refused .beforeReset) ∧
    (s.latch (.fault (.busAbort a))).fault = some a ∧
    (s.fault = some a → step s = .fault (.busAbort a) ∧ s.latch (step s) = s) ∧
    (s.started = true → s.cycles = 0 → applyEvent (.forcePc a) s = .next { s with pc := a }) ∧
    (s.started = true → s.cycles ≠ 0 → applyEvent (.forcePc a) s = .refused .forcePcWhileBusy)

/-- Rules R255, R282, R283 and R291: a step is the host's next call, or one clock() where none waits; a tick with the
counter above zero only counts down, and complete() is true exactly at zero. The list of waiting calls is the model's
choice (log entries 7 and 21). -/
def Obligations.StepIsTheNextCallOrOneTick : Prop :=
  ∀ s : State, s.fault = none →
    (∀ e later, s.host = e :: later → step s = applyEvent e { s with host := later }) ∧
    (s.host = [] → step s = applyEvent .clock s) ∧
    (s.started = true → s.cycles ≠ 0 → applyEvent .clock s = .next { s with cycles := s.cycles - 1 }) ∧
    (s.complete = true ↔ s.cycles = 0)

/-- Rules R59, R103 and R282: at an instruction boundary, with no host call waiting, a step runs the instruction whose
bytes stand at PC, and counts its first cycle; the first of those bytes, in address order, whose address no device
claims ends it in BusAbort of that address (rule R49). That the tick which runs the instruction counts its first cycle
too is the spec's own decision D2, the order of the bytes its D14, and that the abort ends the run its D16. That the
operand bytes are read before the rest of the mode runs is log entry 9; a step of one tick is log entry 21. -/
def Obligations.StepRunsTheInstructionAtPc : Prop :=
  (∀ (s : State) (i : Instr), ReadyToFetch s → WellFormed i →
    (∀ (k : Nat) (v : Byte), (encode i)[k]? = some v → s.read (s.pc + BitVec.ofNat 16 k) = .ok v) →
    step s =
      match exec i s with
      | .next t => .next { t with cycles := t.cycles - 1 }
      | .fault f => .fault f
      | .refused r => .refused r) ∧
  (∀ s : State, ReadyToFetch s → s.claims s.pc = false → step s = .fault (.busAbort s.pc)) ∧
  ∀ (s : State) (op : Byte) (a : Addr), ReadyToFetch s → s.read s.pc = .ok op →
    FirstUnclaimed s ((List.range (formatOf op).length).map fun k => s.pc + BitVec.ofNat 16 k) a →
    step s = .fault (.busAbort a)

/-- Rules R282 and R289: an instruction of cost T occupies exactly T ticks: after them the machine stands at the next
boundary with the instruction's effects. The cost is at least 1 (rule R3) and at most the table's count plus 2 (rules
R17, R134 and R170). The order inside a tick and the adding of the branch extras are the spec's own decisions D2 and
D32; that one step is one tick is the model's choice (log entry 21). -/
def Obligations.InstructionOccupiesItsCostInTicks : Prop :=
  ∀ (s t : State) (i : Instr), configLegal s.cfg → ReadyToFetch s → WellFormed i →
    (∀ (k : Nat) (v : Byte), (encode i)[k]? = some v → s.read (s.pc + BitVec.ofNat 16 k) = .ok v) →
    exec i s = .next t →
    1 ≤ t.cycles ∧ t.cycles ≤ baseCycles s.cfg (i.opcode.getD 0) + 2 ∧
      Host.Core.run Sys2Proof.core t.cycles s = .next { t with cycles := 0 }

/-- Rules R49 and R107: the disassembly of an inclusive range walks from its first address: it reads the instruction
whose bytes stand at an address, with Peek, and goes on at the address after it; it stops when the address passes the
end of the range; the first byte it needs whose address no device claims ends it in BusAbort. `fuel` never cuts the
walk short. As an event it changes no state. The form of a line is the model's choice, and so is that the last line is
shown whole, its operand bytes read past the end of the range, modulo 65536 (log entry 16). That the abort ends the
run is the spec's own decision D16. -/
def Obligations.DisassemblyReadsTheInstructions : Prop :=
  (∀ (s : State) (i : Instr) (a last fuel : Nat), WellFormed i → a ≤ last → last ≤ 0xFFFF →
    (∀ (k : Nat) (v : Byte), (encode i)[k]? = some v → s.peek (BitVec.ofNat 16 (a + k)) = .ok v) →
    s.disassembleFrom last (fuel + 1) a =
      (s.disassembleFrom last fuel (a + i.length)).map
        fun lines => { address := BitVec.ofNat 16 a, instr := i } :: lines) ∧
  (∀ (s : State) (a last fuel : Nat), last < a → s.disassembleFrom last fuel a = .ok []) ∧
  (∀ (s : State) (a last fuel : Nat), a ≤ last → last ≤ 0xFFFF → s.claims (BitVec.ofNat 16 a) = false →
    s.disassembleFrom last (fuel + 1) a = .error (.busAbort (BitVec.ofNat 16 a))) ∧
  (∀ (s : State) (op : Byte) (b : Addr) (a last fuel : Nat), a ≤ last → last ≤ 0xFFFF →
    s.peek (BitVec.ofNat 16 a) = .ok op →
    FirstUnclaimed s ((List.range (formatOf op).length).map fun k => BitVec.ofNat 16 (a + k)) b →
    s.disassembleFrom last (fuel + 1) a = .error (.busAbort b)) ∧
  (∀ (s : State) (first last : Addr) (fuel : Nat), last.toNat + 1 - first.toNat ≤ fuel →
    s.disassemble first last = s.disassembleFrom last.toNat fuel first.toNat) ∧
  ∀ (s : State) (first last : Addr),
    (∀ lines, s.disassemble first last = .ok lines → applyEvent (.disassemble first last) s = .next s) ∧
      ∀ f, s.disassemble first last = .error f → applyEvent (.disassemble first last) s = .fault f

/-! ## The whole machine -/

/-- Rules R49, R250 and R251: an instruction ends in a next state, or in BusAbort at an address no device claims;
there is no other exception. It ends in BusAbort exactly where an access of its own is unclaimed, of the address of
the first: the pointer bytes of its addressing mode, then the operand, the store, the stack bytes and the vector bytes
of its operation. The instruction's own bytes, an immediate operand among them, are fetched before exec, so an
immediate form makes no access here (log entry 9, DEDUCED; rules R122 and R133 read it at EA). That the abort ends the
run is the spec's own decision D16, the list and order of the accesses its own decisions D14 and D12. -/
def Obligations.InstructionsOnlyAbortOnUnclaimedAddresses : Prop :=
  ∀ (i : Instr) (s : State), WellFormed i →
    ((∃ t, exec i s = .next t) ∨ ∃ a, exec i s = .fault (.busAbort a) ∧ s.claims a = false) ∧
    (∀ a, FirstUnclaimed s (pointerAddresses s i.operand) a → exec i s = .fault (.busAbort a)) ∧
    ((∀ a ∈ pointerAddresses s i.operand, s.claims a = true) → ∃ ea, AddressIs i s ea ∧
      (∀ a, FirstUnclaimed s (operationAddresses s ea i) a → exec i s = .fault (.busAbort a)) ∧
      ((∀ a ∈ operationAddresses s ea i, s.claims a = true) → ∃ t, exec i s = .next t))

/-- Rules R49, R75, R105 and R260: on a bus whose every address is claimed, every instruction completes in every
state. -/
def Obligations.EveryInstructionCompletesOnAClaimedBus : Prop :=
  ∀ (i : Instr) (s : State), WellFormed i → (∀ a, s.claims a = true) → ∃ t, exec i s = .next t

/-- Rules R14, R21, R23 and R24: every step keeps the invariant: the stores canonical, P.U set, the bank registers
naming present banks. When U is forced is the spec's own decision D8 (log entry 15). -/
def Obligations.EveryStepKeepsTheInvariant : Prop :=
  ∀ s t : State, s.Inv → step s = .next t → t.Inv

/-- The invariant holds after reset. The board, cartridge and launch memory of State.reset are choices (log entries 1,
2 and 3). -/
def Obligations.ResetStateHasTheInvariant : Prop := State.reset.Inv

/-- Rules R20, R22, R25 and R27: no step changes the wiring, the parameters or the cartridge, records a fault in a next
state, or undoes the first reset(). -/
def Obligations.EveryStepKeepsTheConfiguration : Prop :=
  ∀ s t : State, step s = .next t →
    t.cfg = s.cfg ∧ t.cart = s.cart ∧ t.fault = none ∧ (s.started = true → t.started = true)

/-- Rules R10, R11 and R12: which instructions write A, X, Y and SP, and which leave PC anywhere but after their own
bytes. Rules R20, R22, R24, R25, R27 and R40: none writes CHR-RAM, which stands on the PPU-side bus, the cartridge,
the wiring and parameters, or the fault latch. The host's calls and the flag of the first reset(), which none writes
either, are fields of the model's own (log entries 7 and 8). The spec marks its table of writers as general knowledge.
-/
def Obligations.OnlyTheNamedInstructionsWriteARegister : Prop :=
  ∀ (i : Instr) (s t : State), exec i s = .next t →
    (i.mnemonic ∉ [.adc, .sbc, .and, .ora, .eor, .lda, .pla, .txa, .tya] →
      ¬(i.mnemonic ∈ [.asl, .lsr, .rol, .ror] ∧ i.operand = .imp) → t.a = s.a) ∧
    (i.mnemonic ∉ [.ldx, .tax, .tsx, .inx, .dex] → t.x = s.x) ∧
    (i.mnemonic ∉ [.ldy, .tay, .iny, .dey] → t.y = s.y) ∧
    (i.mnemonic ∉ [.pha, .php, .pla, .plp, .jsr, .rts, .rti, .brk, .txs] → t.sp = s.sp) ∧
    (i.mnemonic ∉ [.bcc, .bcs, .beq, .bmi, .bne, .bpl, .bvc, .bvs, .jmp, .jsr, .rts, .rti, .brk] →
      t.pc = s.pc + BitVec.ofNat 16 i.length) ∧
    t.chrRam = s.chrRam ∧ t.cart = s.cart ∧ t.cfg = s.cfg ∧ t.fault = s.fault ∧ t.started = s.started ∧
    t.host = s.host

/-- Rules R13 and R14: which instructions write which flag, the table of rule R13; U is 1 after every one. The spec
marks its table of writers as derived; B and U are its own decisions D9 and D8. -/
def Obligations.OnlyTheNamedInstructionsWriteAFlag : Prop :=
  ∀ (i : Instr) (s t : State), exec i s = .next t →
    t.flag .u = true ∧
    (i.mnemonic ∉ [.adc, .sbc, .cmp, .cpx, .cpy, .asl, .lsr, .rol, .ror, .clc, .sec, .plp, .rti] →
      t.flag .c = s.flag .c) ∧
    (i.mnemonic ∉ [.lda, .ldx, .ldy, .tax, .tay, .tsx, .txa, .tya, .inc, .inx, .iny, .dec, .dex, .dey, .and, .ora, .eor,
        .asl, .lsr, .rol, .ror, .adc, .sbc, .cmp, .cpx, .cpy, .pla, .bit, .plp, .rti] →
      t.flag .z = s.flag .z ∧ t.flag .n = s.flag .n) ∧
    (i.mnemonic ∉ [.sei, .cli, .plp, .rti, .brk] → t.flag .i = s.flag .i) ∧
    (i.mnemonic ∉ [.sed, .cld, .plp, .rti] → t.flag .d = s.flag .d) ∧
    (i.mnemonic ∉ [.plp, .rti] → t.flag .b = s.flag .b) ∧
    (i.mnemonic ∉ [.adc, .sbc, .bit, .clv, .plp, .rti] → t.flag .v = s.flag .v)

/-- Rules R58, R133 and R180: what an instruction leaves of memory. An instruction that does not store leaves every
byte and bank register; a store or read-modify-write leaves every address whose byte is not the one its effective
address names; a pushing instruction every address whose byte is not one of its stack bytes. The list of accesses and
the stack direction are the spec's own decisions D14 and D12. -/
def Obligations.InstructionsStoreOnlyWhereTheySay : Prop :=
  ∀ (i : Instr) (s t : State), exec i s = .next t →
    (i.mnemonic ∉ [.sta, .stx, .sty, .inc, .dec, .asl, .lsr, .rol, .ror, .pha, .php, .jsr, .brk] →
      t.mem = s.mem ∧ t.prgBank = s.prgBank ∧ t.chrBank = s.chrBank ∧ ∀ b, t.read b = s.read b) ∧
    (i.mnemonic ∈ [.asl, .lsr, .rol, .ror] → i.operand = .imp →
      t.mem = s.mem ∧ t.prgBank = s.prgBank ∧ t.chrBank = s.chrBank ∧ ∀ b, t.read b = s.read b) ∧
    (i.mnemonic ∈ [.sta, .stx, .sty, .inc, .dec, .asl, .lsr, .rol, .ror] →
      ∀ ea, AddressIs i s ea → ∀ b, s.target b ≠ s.target ea.addr → t.read b = s.read b) ∧
    (i.mnemonic ∈ [.pha, .php] →
      ∀ b, s.target b ≠ s.target (0x0100#16 + s.sp.setWidth 16) → t.read b = s.read b) ∧
    (i.mnemonic = .jsr →
      ∀ b, (∀ n ∈ [0, 1], s.target b ≠ s.target (0x0100#16 + (s.sp - BitVec.ofNat 8 n).setWidth 16)) →
        t.read b = s.read b) ∧
    (i.mnemonic = .brk →
      ∀ b, (∀ n ∈ [0, 1, 2], s.target b ≠ s.target (0x0100#16 + (s.sp - BitVec.ofNat 8 n).setWidth 16)) →
        t.read b = s.read b)

/-- Rule R287: no instruction reads the cycle counter. -/
def Obligations.InstructionsDoNotReadTheCycleCounter : Prop :=
  ∀ (i : Instr) (s : State) (n : Nat), exec i { s with cycles := n } = exec i s

/-- Rule R16: the Decimal flag changes no result. An instruction that neither writes D nor pushes P does the same with
D set and with D clear, D itself apart. -/
def Obligations.DecimalFlagChangesNoResult : Prop :=
  ∀ (i : Instr) (s t : State) (value : Bool), i.mnemonic ∉ [.php, .brk, .plp, .rti, .cld, .sed] →
    exec i s = .next t → exec i (s.setFlag .d value) = .next (t.setFlag .d value)
end

