-- ==== Sys2Proof/Laws/Flags.lean ====
section
/-! SUPPORT. Reading a flag after writing one, and the flags each status computation leaves. -/

namespace Sys2Proof.Machine

/-- The bit number of a flag (rule R13). -/
def Flag.index : Flag → Nat
  | .c => 0
  | .z => 1
  | .i => 2
  | .d => 3
  | .b => 4
  | .u => 5
  | .v => 6
  | .n => 7

/-- A flag is a bit of the status byte. -/
theorem getFlag_eq_bit (p : Byte) (f : Flag) : getFlag p f = p.getLsbD f.index := by
  revert p; cases f <;> decide

/-- A status byte is its eight flags. -/
theorem status_ext {p q : Byte} (h : ∀ f, getFlag p f = getFlag q f) : p = q := by
  refine BitVec.eq_of_getLsbD_eq fun i hi => ?_
  have key : ∀ f : Flag, p.getLsbD f.index = q.getLsbD f.index := fun f => by
    rw [← getFlag_eq_bit, ← getFlag_eq_bit, h f]
  interval_cases i
  · exact key .c
  · exact key .z
  · exact key .i
  · exact key .d
  · exact key .b
  · exact key .u
  · exact key .v
  · exact key .n

/-- The masks of rule R13 are the single bits. -/
theorem mask_bit (f g : Flag) : f.mask.getLsbD g.index = decide (g = f) := by
  cases f <;> cases g <;> rfl

theorem Flag.index_lt (f : Flag) : f.index < 8 := by cases f <;> decide

/-- One flag after one was written. -/
theorem getFlag_putFlag (p : Byte) (f g : Flag) (value : Bool) :
    getFlag (putFlag p f value) g = if g = f then value else getFlag p g := by
  rw [getFlag_eq_bit, getFlag_eq_bit]
  cases value <;> by_cases h : g = f <;>
    simp only [putFlag, h, if_true, if_false, Bool.false_eq_true, BitVec.getLsbD_or, BitVec.getLsbD_and,
      BitVec.getLsbD_not, mask_bit, decide_true, decide_false, Flag.index_lt] <;> simp

@[simp] theorem getFlag_putFlag_same (p : Byte) (f : Flag) (value : Bool) : getFlag (putFlag p f value) f = value := by
  simp [getFlag_putFlag]

theorem getFlag_putFlag_other (p : Byte) {f g : Flag} (h : g ≠ f) (value : Bool) :
    getFlag (putFlag p f value) g = getFlag p g := by
  simp [getFlag_putFlag, h]

/-- Setting U is the `OR 0x20` of the rules. -/
theorem putFlag_u_true (p : Byte) : putFlag p .u true = p ||| 0x20 := rfl

/-- The flags after Z and N are recomputed from a byte (rule R200). -/
theorem getFlag_setZN (p v : Byte) (g : Flag) :
    getFlag (setZN p v) g = if g = .n then v.msb else if g = .z then v == 0 else getFlag p g := by
  simp only [setZN, getFlag_putFlag]

/-- The flags after an addition (rules R140 and R141). -/
theorem getFlag_addStatus (p a m : Byte) (g : Flag) :
    getFlag (addStatus p a m) g =
      match g with
      | .c => addCarry a m (getFlag p .c)
      | .z => addByte a m (getFlag p .c) == 0
      | .n => (addByte a m (getFlag p .c)).msb
      | .v => addOverflow a m (addByte a m (getFlag p .c))
      | g => getFlag p g := by
  cases g <;> simp [addStatus, getFlag_putFlag, getFlag_setZN]

/-- The flags after a shift (rules R150 to R153). -/
theorem getFlag_shiftStatus (p : Byte) (carryOut : Bool) (r : Byte) (g : Flag) :
    getFlag (shiftStatus p carryOut r) g =
      match g with
      | .c => carryOut
      | .z => r == 0
      | .n => r.msb
      | g => getFlag p g := by
  cases g <;> simp [shiftStatus, getFlag_putFlag, getFlag_setZN]

/-- The flags after a compare (43_compare.md). -/
theorem getFlag_compareStatus (p r m : Byte) (g : Flag) :
    getFlag (compareStatus p r m) g =
      match g with
      | .c => decide (m.toNat ≤ r.toNat)
      | .z => r - m == 0
      | .n => (r - m).msb
      | g => getFlag p g := by
  cases g <;> simp [compareStatus, getFlag_putFlag, getFlag_setZN]

/-- The flags after BIT (rule R243). -/
theorem getFlag_bitStatus (p a m : Byte) (g : Flag) :
    getFlag (bitStatus p a m) g =
      match g with
      | .z => a &&& m == 0
      | .n => m.msb
      | .v => m.getLsbD 6
      | g => getFlag p g := by
  cases g <;> simp [bitStatus, getFlag_putFlag]

/-- A pulled status has U set and every other flag from the byte (rules R184 and R187). -/
theorem getFlag_pulledStatus (v : Byte) (g : Flag) :
    getFlag (pulledStatus v) g = if g = .u then true else getFlag v g :=
  getFlag_putFlag v .u g true

end Sys2Proof.Machine
end

