-- ==== Sys2Proof/Laws/Values.lean ====
section
/-! SUPPORT. The result bytes, carries and overflows of the flag computations, the paired bytes and the branch target as
plain arithmetic on naturals and integers. -/

namespace Sys2Proof.Machine

/-- Comparing flags is deciding their equality. -/
@[simp] theorem flag_beq (f g : Flag) : (f == g) = decide (f = g) := by cases f <;> cases g <;> rfl

theorem byte_beq (a b : Byte) : (a == b) = decide (a = b) := by by_cases h : a = b <;> simp [h]

/-- Bit 7 of a byte is set from 128 up. -/
theorem msb_decide : ∀ v : Byte, v.msb = decide (128 ≤ v.toNat) := by decide

/-- Bit 0 of a byte is set in the odd ones. -/
theorem lsb_decide : ∀ v : Byte, v.getLsbD 0 = decide (v.toNat % 2 = 1) := by decide

/-! Addition and subtraction (rules R140 and R141). -/

theorem addByte_toNat (a m : Byte) (c : Bool) : (addByte a m c).toNat = (a.toNat + m.toNat + c.toNat) % 256 := by
  simp [addByte, addSum]

theorem addCarry_eq (a m : Byte) (c : Bool) : addCarry a m c = decide (255 < a.toNat + m.toNat + c.toNat) := by
  have h1 := a.isLt; have h2 := m.isLt
  have h3 : c.toNat ≤ 1 := by cases c <;> decide
  simp only [addCarry, addSum, Nat.testBit_eq_decide_div_mod_eq, decide_eq_decide]
  omega

/-- The overflow formula by sign bits. -/
theorem addOverflow_msb (a m r : Byte) : addOverflow a m r = (a.msb == m.msb && a.msb != r.msb) := by
  have sign : ∀ x : Byte, (x &&& 0x80 != 0) = x.msb := by decide
  rw [addOverflow, sign]
  simp only [BitVec.msb_and, BitVec.msb_xor, BitVec.msb_not]
  cases a.msb <;> cases m.msb <;> cases r.msb <;> rfl

/-- V of an addition: the signed sum is out of the range of a byte. -/
theorem addOverflow_eq (a m : Byte) (c : Bool) : addOverflow a m (addByte a m c) =
    decide (a.toInt + m.toInt + c.toNat < -128 ∨ 127 < a.toInt + m.toInt + c.toNat) := by
  have h1 := a.isLt; have h2 := m.isLt
  have h3 : c.toNat ≤ 1 := by cases c <;> decide
  rw [addOverflow_msb, msb_decide, msb_decide, msb_decide, addByte_toNat, BitVec.toInt_eq_toNat_cond,
    BitVec.toInt_eq_toNat_cond, Bool.eq_iff_iff]
  simp only [Bool.and_eq_true, beq_iff_eq, bne_iff_ne, decide_eq_true_eq, ne_eq, decide_eq_decide]
  split <;> split <;> omega

theorem not_toNat (m : Byte) : (~~~m).toNat = 255 - m.toNat := by
  rw [BitVec.toNat_not]

theorem not_toInt (m : Byte) : (~~~m).toInt = -1 - m.toInt := by
  have h := m.isLt
  rw [BitVec.toInt_eq_toNat_cond, BitVec.toInt_eq_toNat_cond, not_toNat]
  split <;> split <;> omega

/-- The result of SBC, the carry being NOT borrow. -/
theorem subByte_toNat (a m : Byte) (c : Bool) :
    ((addByte a (~~~m) c).toNat : Int) = ((a.toNat : Int) - m.toNat - (1 - c.toNat : Nat)) % 256 := by
  have h1 := a.isLt; have h2 := m.isLt
  have h3 : c.toNat ≤ 1 := by cases c <;> decide
  rw [addByte_toNat, not_toNat]
  omega

theorem subCarry_eq (a m : Byte) (c : Bool) :
    addCarry a (~~~m) c = decide (m.toNat + (1 - c.toNat) ≤ a.toNat) := by
  have h1 := a.isLt; have h2 := m.isLt
  have h3 : c.toNat ≤ 1 := by cases c <;> decide
  rw [addCarry_eq, not_toNat, decide_eq_decide]
  omega

/-- V of SBC: the signed difference is out of the range of a byte. -/
theorem subOverflow_eq (a m : Byte) (c : Bool) : addOverflow a (~~~m) (addByte a (~~~m) c) =
    decide (a.toInt - m.toInt - (1 - c.toNat : Nat) < -128 ∨ 127 < a.toInt - m.toInt - (1 - c.toNat : Nat)) := by
  have h3 : c.toNat ≤ 1 := by cases c <;> decide
  rw [addOverflow_eq, not_toInt, decide_eq_decide]
  omega

/-! Shifts and rotates (rules R150 to R153). -/

theorem aslByte_toNat : ∀ v : Byte, (aslByte v).toNat = v.toNat * 2 % 256 := by decide
theorem lsrByte_toNat : ∀ v : Byte, (lsrByte v).toNat = v.toNat / 2 := by decide
theorem rolByte_toNat (v : Byte) (c : Bool) : (rolByte v c).toNat = (v.toNat * 2 + c.toNat) % 256 := by
  revert v; cases c <;> decide
theorem rorByte_toNat (v : Byte) (c : Bool) : (rorByte v c).toNat = c.toNat * 128 + v.toNat / 2 := by
  revert v; cases c <;> decide

/-! Byte pairs and pages (rule R42, glossary "Page"). -/

theorem wordOf_toNat (lo hi : Byte) : (wordOf lo hi).toNat = hi.toNat * 256 + lo.toNat := by
  have h1 := lo.isLt
  rw [wordOf, BitVec.toNat_append, ← Nat.shiftLeft_add_eq_or_of_lt h1, Nat.shiftLeft_eq]

theorem wordOf_eq_ofNat (lo hi : Byte) : wordOf lo hi = BitVec.ofNat 16 (hi.toNat * 256 + lo.toNat) := by
  have h1 := lo.isLt; have h2 := hi.isLt
  apply BitVec.eq_of_toNat_eq
  rw [wordOf_toNat, BitVec.toNat_ofNat]
  omega

theorem loByte_toNat (w : Addr) : (loByte w).toNat = w.toNat % 256 := by
  simp [loByte]

theorem hiByte_toNat (w : Addr) : (hiByte w).toNat = w.toNat / 256 := by
  have h := w.isLt
  simp only [hiByte, BitVec.extractLsb'_toNat, Nat.shiftRight_eq_div_pow]
  omega

/-- The two bytes of an address give it back. -/
theorem wordOf_loByte_hiByte (w : Addr) : wordOf (loByte w) (hiByte w) = w := by
  apply BitVec.eq_of_toNat_eq
  rw [wordOf_toNat, loByte_toNat, hiByte_toNat]
  omega

theorem zeroPage_toNat (b : Byte) : (zeroPage b).toNat = b.toNat := by
  have h := b.isLt
  simp only [zeroPage, BitVec.toNat_setWidth]
  omega

/-- The page of a sum is the base's page exactly where the low bytes' sum stays below 256 (rule R128). -/
theorem page_crossed (base : Addr) (index : Byte) :
    hiByte (base + zeroPage index) ≠ hiByte base ↔ 256 ≤ base.toNat % 256 + index.toNat := by
  have h1 := base.isLt; have h2 := index.isLt
  rw [Ne, BitVec.toNat_eq, hiByte_toNat, hiByte_toNat, BitVec.toNat_add, zeroPage_toNat]
  omega

/-- A branch's displacement as an integer (rule R102). -/
theorem signExtend8_toNat (b : Byte) : ((signExtend8 b).toNat : Int) = b.toInt % 65536 := by
  revert b; decide

/-- The target of a taken branch (rule R170). -/
theorem branchTarget_toNat (next : Addr) (rel8 : Byte) :
    ((branchTarget next rel8).toNat : Int) = ((next.toNat : Int) + rel8.toInt) % 65536 := by
  have h := signExtend8_toNat rel8
  rw [branchTarget, BitVec.toNat_add]
  omega

/-- The stack location of a stack pointer (rule R55). -/
theorem stackAddr_eq (sp : Byte) : stackAddr sp = 0x0100#16 + sp.setWidth 16 := by
  revert sp; decide

end Sys2Proof.Machine
end

