-- ==== Sys2Proof/Laws/Decode.lean ====
section
/-! SUPPORT. The opcode map and the encoder's opcode bytes agree entry by entry (rule R104), the undocumented bytes are
the map's empty slots (rule R105), and what one decode answers. -/

namespace Sys2Proof

/-- One entry of the opcode map is right: a documented byte names a mnemonic in one of its formats whose opcode byte it
is; every other byte is in the list of rule R105. -/
def entryGood (op : Byte) : Bool :=
  match opcodeEntry op with
  | some (mn, md) => decide (mn ≠ .undoc) && decide (md ∈ mn.modes) && decide (opcodeOf mn md = some op)
  | none => decide (op ∈ undocumentedBytes)

theorem entry_good : ∀ op : Byte, entryGood op = true := by decide

/-- What the map says of a documented byte (rule R104). -/
theorem opcodeEntry_some {op : Byte} {mn : Mnemonic} {md : Mode} (h : opcodeEntry op = some (mn, md)) :
    mn ≠ .undoc ∧ md ∈ mn.modes ∧ opcodeOf mn md = some op := by
  have := entry_good op
  simpa [entryGood, h, and_assoc] using this

/-- A byte without an entry is listed in rule R105, and the other way round. -/
theorem opcodeEntry_none {op : Byte} : opcodeEntry op = none ↔ op ∈ undocumentedBytes := by
  constructor
  · intro h
    have := entry_good op
    simpa [entryGood, h] using this
  · revert op
    decide

/-- The map's entry of an encoder's opcode byte is the mnemonic and the format it came from. -/
theorem opcodeEntry_of_opcodeOf {mn : Mnemonic} {md : Mode} {op : Byte} (h : opcodeOf mn md = some op) :
    opcodeEntry op = some (mn, md) := by
  cases mn <;> cases md <;> simp [opcodeOf] at h <;> subst h <;> rfl

/-- An instruction's fields give it back (rule R101). -/
theorem make_of_instr (i : Instr) (h : i.mnemonic ≠ .undoc) : Instr.make i.mnemonic i.operand = some i := by
  cases i <;> first | rfl | exact absurd rfl h

/-- What `Instr.make` builds has the mnemonic and the operand it was built from. -/
def MakeFits (mn : Mnemonic) (m : Operand) : Prop := ∀ i, Instr.make mn m = some i → i.mnemonic = mn ∧ i.operand = m

theorem makeFits_of_some {mn : Mnemonic} {m : Operand} {j : Instr} (h : Instr.make mn m = some j)
    (h1 : j.mnemonic = mn) (h2 : j.operand = m) : MakeFits mn m := by
  intro i hi
  rw [h] at hi
  cases hi
  exact ⟨h1, h2⟩

theorem makeFits_of_none {mn : Mnemonic} {m : Operand} (h : Instr.make mn m = none) : MakeFits mn m := by
  intro i hi
  rw [h] at hi
  cases hi

theorem makeFits (mn : Mnemonic) (m : Operand) : MakeFits mn m := by
  cases mn <;> first
    | exact makeFits_of_some rfl rfl rfl
    | (cases m <;> first | exact makeFits_of_some rfl rfl rfl | exact makeFits_of_none rfl)

theorem make_some {mn : Mnemonic} {m : Operand} {i : Instr} (h : Instr.make mn m = some i) :
    i.mnemonic = mn ∧ i.operand = m := makeFits mn m i h

theorem eq_imp_of_mode {m : Operand} (h : m.mode = .imp) : m = .imp := by cases m <;> first | rfl | cases h

theorem eq_rel_of_mode {m : Operand} (h : m.mode = .rel) : ∃ b, m = .rel b := by
  cases m <;> first | exact ⟨_, rfl⟩ | cases h

theorem eq_abs_of_mode {m : Operand} (h : m.mode = .abs) : ∃ w, m = .abs w := by
  cases m <;> first | exact ⟨_, rfl⟩ | cases h

/-- A mnemonic and an operand in one of its formats are an instruction. -/
theorem make_isSome {mn : Mnemonic} {m : Operand} (hne : mn ≠ .undoc) (h : m.mode ∈ mn.modes) :
    ∃ i, Instr.make mn m = some i := by
  cases mn
  case undoc => exact absurd rfl hne
  all_goals first
    | exact ⟨_, rfl⟩
    | (obtain rfl := eq_imp_of_mode (List.mem_singleton.mp h); exact ⟨_, rfl⟩)
    | (obtain ⟨b, rfl⟩ := eq_rel_of_mode (List.mem_singleton.mp h); exact ⟨_, rfl⟩)
    | (obtain ⟨w, rfl⟩ := eq_abs_of_mode (List.mem_singleton.mp h); exact ⟨_, rfl⟩)

@[simp] theorem assemble_mode (b1 b2 : Byte) (md : Mode) : (md.assemble b1 b2).mode = md := by cases md <;> rfl

/-- The length of an operand's bytes is its format's length without the opcode byte (rule R101). -/
theorem bytes_length (m : Operand) : m.bytes.length + 1 = m.mode.length := by cases m <;> rfl

theorem mode_length_pos (md : Mode) : 1 ≤ md.length ∧ md.length ≤ 3 := by cases md <;> decide

/-- The opcode byte of a documented instruction is the encoder's. -/
theorem opcode_eq {i : Instr} (h : i.mnemonic ≠ .undoc) : i.opcode = opcodeOf i.mnemonic i.operand.mode := by
  cases i <;> first | rfl | exact absurd rfl h

/-- What the decoder reads under an opcode byte exists whatever the operand bytes (rule R103). -/
theorem instrOf_ok (op b1 b2 : Byte) : ∃ i, instrOf op b1 b2 = .ok i ∧ i.opcode = some op ∧
    i.operand.mode = formatOf op ∧ WellFormed i := by
  cases he : opcodeEntry op with
  | none =>
    refine ⟨.undoc op, by simp [instrOf, he], by simp [Instr.opcode, he], by simp [formatOf, he, Instr.operand,
      Operand.mode], List.mem_singleton.mpr rfl, opcodeEntry_none.mp he⟩
  | some e =>
    obtain ⟨mn, md⟩ := e
    obtain ⟨hne, hmd, hop⟩ := opcodeEntry_some he
    obtain ⟨i, hi⟩ := make_isSome (m := md.assemble b1 b2) hne (by simpa using hmd)
    obtain ⟨h1, h2⟩ := make_some hi
    have hmode : i.operand.mode = md := by rw [h2, assemble_mode]
    refine ⟨i, by simp [instrOf, he, hi], ?_, by simp [formatOf, he, hmode], by rw [hmode, h1]; exact hmd, ?_⟩
    · rw [opcode_eq (by rw [h1]; exact hne), h1, hmode, hop]
    · cases i <;> first | trivial | exact absurd h1.symm hne

/-- A well-formed instruction has an opcode byte, whose format is its operand's. -/
theorem opcode_of_wf {i : Instr} (h : WellFormed i) : ∃ op, i.opcode = some op ∧ formatOf op = i.operand.mode := by
  by_cases hm : i.mnemonic = .undoc
  · cases i <;> simp [Instr.mnemonic] at hm
    next op =>
      have he := opcodeEntry_none.mpr h.2
      exact ⟨op, by simp [Instr.opcode, he], by simp [formatOf, he, Instr.operand, Operand.mode]⟩
  · have hop : ∃ op, opcodeOf i.mnemonic i.operand.mode = some op := by
      have hmd := h.1
      revert hm hmd
      generalize i.mnemonic = mn
      generalize i.operand.mode = md
      cases mn <;> cases md <;> simp [Mnemonic.modes, opcodeOf]
    obtain ⟨op, hop⟩ := hop
    exact ⟨op, (opcode_eq hm).trans hop, by simp [formatOf, opcodeEntry_of_opcodeOf hop]⟩

/-- The encoding of a well-formed instruction is as long as the instruction (rule R100). -/
theorem encode_length {i : Instr} (h : WellFormed i) : (encode i).length = i.length := by
  obtain ⟨op, hop, -⟩ := opcode_of_wf h
  simp [encode, hop, Instr.length, bytes_length]

end Sys2Proof
end

