-- ==== Sys2Proof/Laws/Memory.lean ====
section
/-! SUPPORT. The laws of the sparse byte store: read after write, canonical form kept, equal contents are equal data. -/

namespace Sys2Proof

@[simp] theorem Memory.read_nil (key : Nat) : Memory.read [] key = Memory.unlisted := rfl

/-- A key below every listed key is unlisted. -/
theorem Memory.read_below {m : Memory} {key : Nat} (h : ∀ c ∈ m, key < c.1) : Memory.read m key = Memory.unlisted := by
  induction m with
  | nil => rfl
  | cons c rest ih =>
    have := h c (by simp)
    simp only [Memory.read]
    rw [if_neg (by omega), ih fun d hd => h d (by simp [hd])]

/-- The canonical form of a non-empty store, entry by entry. -/
theorem Memory.wf_cons {k : Nat} {v : Byte} {rest : Memory} :
    Memory.wf ((k, v) :: rest) = true ↔ v ≠ Memory.unlisted ∧ (∀ c ∈ rest, k < c.1) ∧ Memory.wf rest = true := by
  simp [Memory.wf, and_assoc]

/-- What the written key reads as: the written byte. -/
theorem Memory.read_write_same {m : Memory} (h : Memory.wf m = true) (key : Nat) (v : Byte) :
    Memory.read (Memory.write m key v) key = v := by
  induction m with
  | nil => by_cases hv : v = Memory.unlisted <;> simp [Memory.write, Memory.read, hv]
  | cons c rest ih =>
    obtain ⟨k, w⟩ := c
    obtain ⟨-, hk, hr⟩ := Memory.wf_cons.mp h
    simp only [Memory.write]
    split
    · rw [Memory.read, if_neg (by omega), ih hr]
    · by_cases hv : v = Memory.unlisted
      · subst hv
        simp only [if_true]
        split
        · next he => exact Memory.read_below fun d hd => by have := hk d hd; omega
        · next hne =>
          refine Memory.read_below fun d hd => ?_
          rcases List.mem_cons.mp hd with rfl | hd
          · show key < k; omega
          · have := hk d hd; omega
      · simp [hv, Memory.read]

/-- What every other key reads as: what it read as before. -/
theorem Memory.read_write_other (m : Memory) {key other : Nat} (h : other ≠ key) (v : Byte) :
    Memory.read (Memory.write m key v) other = Memory.read m other := by
  induction m with
  | nil =>
    by_cases hv : v = Memory.unlisted <;> simp [Memory.write, Memory.read, hv]
    intro he; exact absurd he.symm h
  | cons c rest ih =>
    obtain ⟨k, w⟩ := c
    simp only [Memory.write]
    split
    · simp only [Memory.read, ih]
    · split <;> split
      · next he => subst he; rw [Memory.read, if_neg (Ne.symm h)]
      · rfl
      · next he => subst he; simp only [Memory.read, if_neg (Ne.symm h)]
      · simp only [Memory.read, if_neg (Ne.symm h)]

/-- The keys of a store after a write are the written key and keys it had. -/
theorem Memory.mem_write {m : Memory} {key : Nat} {v : Byte} {c : Host.Cell} (h : c ∈ Memory.write m key v) :
    c.1 = key ∨ c ∈ m := by
  induction m with
  | nil =>
    simp only [Memory.write] at h
    split at h <;> simp_all
  | cons d rest ih =>
    obtain ⟨k, w⟩ := d
    simp only [Memory.write] at h
    split at h
    · rcases List.mem_cons.mp h with rfl | h
      · simp
      · rcases ih h with h | h <;> simp [h]
    · split at h <;> split at h <;> simp_all
      · rcases h with rfl | h <;> simp_all
      · rcases h with rfl | rfl | h <;> simp_all

/-- A write keeps the canonical form. -/
theorem Memory.wf_write {m : Memory} (h : Memory.wf m = true) (key : Nat) (v : Byte) :
    Memory.wf (Memory.write m key v) = true := by
  induction m with
  | nil => by_cases hv : v = Memory.unlisted <;> simp [Memory.write, Memory.wf, hv]
  | cons c rest ih =>
    obtain ⟨k, w⟩ := c
    obtain ⟨hw, hk, hr⟩ := Memory.wf_cons.mp h
    simp only [Memory.write]
    split
    · next hlt =>
      refine Memory.wf_cons.mpr ⟨hw, fun d hd => ?_, ih hr⟩
      rcases Memory.mem_write hd with hd | hd
      · omega
      · exact hk d hd
    · next hge =>
      by_cases he : k = key
      · subst he
        by_cases hv : v = Memory.unlisted
        · simpa [hv] using hr
        · simpa [hv] using Memory.wf_cons.mpr ⟨hv, hk, hr⟩
      · by_cases hv : v = Memory.unlisted
        · simpa [hv, he] using h
        · simp only [if_neg he, if_neg hv]
          refine Memory.wf_cons.mpr ⟨hv, fun d hd => ?_, h⟩
          rcases List.mem_cons.mp hd with rfl | hd
          · show key < k; omega
          · have := hk d hd; omega

/-- Two canonical stores that read the same everywhere are the same list. -/
theorem Memory.eq_of_read_eq {m n : Memory} (hm : Memory.wf m = true) (hn : Memory.wf n = true)
    (h : ∀ key, Memory.read m key = Memory.read n key) : m = n := by
  induction m generalizing n with
  | nil =>
    cases n with
    | nil => rfl
    | cons d t =>
      obtain ⟨k, w⟩ := d
      have := h k
      simp [Memory.read] at this
      exact absurd this.symm (Memory.wf_cons.mp hn).1
  | cons c rest ih =>
    obtain ⟨k, w⟩ := c
    obtain ⟨hw, hk, hr⟩ := Memory.wf_cons.mp hm
    cases n with
    | nil => have := h k; simp [Memory.read] at this; exact absurd this hw
    | cons d t =>
      obtain ⟨j, u⟩ := d
      obtain ⟨hu, hj, ht⟩ := Memory.wf_cons.mp hn
      have key_eq : k = j := by
        rcases Nat.lt_trichotomy k j with hlt | heq | hlt
        · have := h k
          rw [Memory.read, if_pos rfl, Memory.read, if_neg (by omega),
            Memory.read_below fun c hc => by have := hj c hc; omega] at this
          exact absurd this hw
        · exact heq
        · have := h j
          rw [Memory.read, if_neg (by omega), Memory.read, if_pos rfl,
            Memory.read_below fun c hc => by have := hk c hc; omega] at this
          exact absurd this.symm hu
      subst key_eq
      have byte_eq : w = u := by simpa [Memory.read] using h k
      subst byte_eq
      refine congrArg ((k, w) :: ·) (ih hr ht fun key => ?_)
      by_cases he : k = key
      · subst he; rw [Memory.read_below hk, Memory.read_below hj]
      · simpa [Memory.read, he] using h key

/-- Every key of a stored byte string lies at or after its first key. -/
theorem Memory.le_of_mem_ofBytes {bytes : List Byte} {key : Nat} {c : Host.Cell} (h : c ∈ Memory.ofBytes key bytes) :
    key ≤ c.1 := by
  induction bytes generalizing key with
  | nil => simp [Memory.ofBytes] at h
  | cons v rest ih =>
    simp only [Memory.ofBytes] at h
    split at h
    · have := ih h; omega
    · rcases List.mem_cons.mp h with rfl | h
      · exact Nat.le_refl _
      · have := ih h; omega

/-- A stored byte string is canonical. -/
theorem Memory.wf_ofBytes (key : Nat) (bytes : List Byte) : Memory.wf (Memory.ofBytes key bytes) = true := by
  induction bytes generalizing key with
  | nil => rfl
  | cons v rest ih =>
    simp only [Memory.ofBytes]
    split
    · exact ih _
    · next hv => exact Memory.wf_cons.mpr ⟨hv, fun c hc => by have := Memory.le_of_mem_ofBytes hc; omega, ih _⟩

/-- The byte a stored byte string shows at each key. -/
theorem Memory.read_ofBytes (key : Nat) (bytes : List Byte) (n : Nat) :
    Memory.read (Memory.ofBytes key bytes) (key + n) = bytes.getD n Memory.unlisted := by
  induction bytes generalizing key n with
  | nil => simp [Memory.ofBytes]
  | cons v rest ih =>
    simp only [Memory.ofBytes]
    cases n with
    | zero =>
      split
      · next hv =>
        rw [hv, Memory.read_below fun c hc => by have := Memory.le_of_mem_ofBytes hc; omega]; rfl
      · simp [Memory.read]
    | succ n =>
      have shift : key + (n + 1) = key + 1 + n := by omega
      split
      · rw [shift, ih]; rfl
      · rw [Memory.read, if_neg (by omega), shift, ih]; rfl

end Sys2Proof
end

