-- ==== Sys2Proof/Laws/State.lean ====
section
/-! SUPPORT. One lemma per field per named update of State (Machine/State.lean): what the update writes and what it
leaves. -/

namespace Sys2Proof.Machine

variable (s : State)

/-! `setA` writes `a` only. -/

@[simp] theorem State.setA_a (v : Byte) : (s.setA v).a = v := rfl
@[simp] theorem State.setA_x (v : Byte) : (s.setA v).x = s.x := rfl
@[simp] theorem State.setA_y (v : Byte) : (s.setA v).y = s.y := rfl
@[simp] theorem State.setA_sp (v : Byte) : (s.setA v).sp = s.sp := rfl
@[simp] theorem State.setA_pc (v : Byte) : (s.setA v).pc = s.pc := rfl
@[simp] theorem State.setA_p (v : Byte) : (s.setA v).p = s.p := rfl
@[simp] theorem State.setA_cycles (v : Byte) : (s.setA v).cycles = s.cycles := rfl
@[simp] theorem State.setA_mem (v : Byte) : (s.setA v).mem = s.mem := rfl
@[simp] theorem State.setA_prgBank (v : Byte) : (s.setA v).prgBank = s.prgBank := rfl
@[simp] theorem State.setA_chrBank (v : Byte) : (s.setA v).chrBank = s.chrBank := rfl
@[simp] theorem State.setA_chrRam (v : Byte) : (s.setA v).chrRam = s.chrRam := rfl
@[simp] theorem State.setA_cart (v : Byte) : (s.setA v).cart = s.cart := rfl
@[simp] theorem State.setA_cfg (v : Byte) : (s.setA v).cfg = s.cfg := rfl
@[simp] theorem State.setA_fault (v : Byte) : (s.setA v).fault = s.fault := rfl
@[simp] theorem State.setA_started (v : Byte) : (s.setA v).started = s.started := rfl
@[simp] theorem State.setA_host (v : Byte) : (s.setA v).host = s.host := rfl

/-! `setX` writes `x` only. -/

@[simp] theorem State.setX_a (v : Byte) : (s.setX v).a = s.a := rfl
@[simp] theorem State.setX_x (v : Byte) : (s.setX v).x = v := rfl
@[simp] theorem State.setX_y (v : Byte) : (s.setX v).y = s.y := rfl
@[simp] theorem State.setX_sp (v : Byte) : (s.setX v).sp = s.sp := rfl
@[simp] theorem State.setX_pc (v : Byte) : (s.setX v).pc = s.pc := rfl
@[simp] theorem State.setX_p (v : Byte) : (s.setX v).p = s.p := rfl
@[simp] theorem State.setX_cycles (v : Byte) : (s.setX v).cycles = s.cycles := rfl
@[simp] theorem State.setX_mem (v : Byte) : (s.setX v).mem = s.mem := rfl
@[simp] theorem State.setX_prgBank (v : Byte) : (s.setX v).prgBank = s.prgBank := rfl
@[simp] theorem State.setX_chrBank (v : Byte) : (s.setX v).chrBank = s.chrBank := rfl
@[simp] theorem State.setX_chrRam (v : Byte) : (s.setX v).chrRam = s.chrRam := rfl
@[simp] theorem State.setX_cart (v : Byte) : (s.setX v).cart = s.cart := rfl
@[simp] theorem State.setX_cfg (v : Byte) : (s.setX v).cfg = s.cfg := rfl
@[simp] theorem State.setX_fault (v : Byte) : (s.setX v).fault = s.fault := rfl
@[simp] theorem State.setX_started (v : Byte) : (s.setX v).started = s.started := rfl
@[simp] theorem State.setX_host (v : Byte) : (s.setX v).host = s.host := rfl

/-! `setY` writes `y` only. -/

@[simp] theorem State.setY_a (v : Byte) : (s.setY v).a = s.a := rfl
@[simp] theorem State.setY_x (v : Byte) : (s.setY v).x = s.x := rfl
@[simp] theorem State.setY_y (v : Byte) : (s.setY v).y = v := rfl
@[simp] theorem State.setY_sp (v : Byte) : (s.setY v).sp = s.sp := rfl
@[simp] theorem State.setY_pc (v : Byte) : (s.setY v).pc = s.pc := rfl
@[simp] theorem State.setY_p (v : Byte) : (s.setY v).p = s.p := rfl
@[simp] theorem State.setY_cycles (v : Byte) : (s.setY v).cycles = s.cycles := rfl
@[simp] theorem State.setY_mem (v : Byte) : (s.setY v).mem = s.mem := rfl
@[simp] theorem State.setY_prgBank (v : Byte) : (s.setY v).prgBank = s.prgBank := rfl
@[simp] theorem State.setY_chrBank (v : Byte) : (s.setY v).chrBank = s.chrBank := rfl
@[simp] theorem State.setY_chrRam (v : Byte) : (s.setY v).chrRam = s.chrRam := rfl
@[simp] theorem State.setY_cart (v : Byte) : (s.setY v).cart = s.cart := rfl
@[simp] theorem State.setY_cfg (v : Byte) : (s.setY v).cfg = s.cfg := rfl
@[simp] theorem State.setY_fault (v : Byte) : (s.setY v).fault = s.fault := rfl
@[simp] theorem State.setY_started (v : Byte) : (s.setY v).started = s.started := rfl
@[simp] theorem State.setY_host (v : Byte) : (s.setY v).host = s.host := rfl

/-! `setSp` writes `sp` only. -/

@[simp] theorem State.setSp_a (v : Byte) : (s.setSp v).a = s.a := rfl
@[simp] theorem State.setSp_x (v : Byte) : (s.setSp v).x = s.x := rfl
@[simp] theorem State.setSp_y (v : Byte) : (s.setSp v).y = s.y := rfl
@[simp] theorem State.setSp_sp (v : Byte) : (s.setSp v).sp = v := rfl
@[simp] theorem State.setSp_pc (v : Byte) : (s.setSp v).pc = s.pc := rfl
@[simp] theorem State.setSp_p (v : Byte) : (s.setSp v).p = s.p := rfl
@[simp] theorem State.setSp_cycles (v : Byte) : (s.setSp v).cycles = s.cycles := rfl
@[simp] theorem State.setSp_mem (v : Byte) : (s.setSp v).mem = s.mem := rfl
@[simp] theorem State.setSp_prgBank (v : Byte) : (s.setSp v).prgBank = s.prgBank := rfl
@[simp] theorem State.setSp_chrBank (v : Byte) : (s.setSp v).chrBank = s.chrBank := rfl
@[simp] theorem State.setSp_chrRam (v : Byte) : (s.setSp v).chrRam = s.chrRam := rfl
@[simp] theorem State.setSp_cart (v : Byte) : (s.setSp v).cart = s.cart := rfl
@[simp] theorem State.setSp_cfg (v : Byte) : (s.setSp v).cfg = s.cfg := rfl
@[simp] theorem State.setSp_fault (v : Byte) : (s.setSp v).fault = s.fault := rfl
@[simp] theorem State.setSp_started (v : Byte) : (s.setSp v).started = s.started := rfl
@[simp] theorem State.setSp_host (v : Byte) : (s.setSp v).host = s.host := rfl

/-! `setPc` writes `pc` only. -/

@[simp] theorem State.setPc_a (v : Addr) : (s.setPc v).a = s.a := rfl
@[simp] theorem State.setPc_x (v : Addr) : (s.setPc v).x = s.x := rfl
@[simp] theorem State.setPc_y (v : Addr) : (s.setPc v).y = s.y := rfl
@[simp] theorem State.setPc_sp (v : Addr) : (s.setPc v).sp = s.sp := rfl
@[simp] theorem State.setPc_pc (v : Addr) : (s.setPc v).pc = v := rfl
@[simp] theorem State.setPc_p (v : Addr) : (s.setPc v).p = s.p := rfl
@[simp] theorem State.setPc_cycles (v : Addr) : (s.setPc v).cycles = s.cycles := rfl
@[simp] theorem State.setPc_mem (v : Addr) : (s.setPc v).mem = s.mem := rfl
@[simp] theorem State.setPc_prgBank (v : Addr) : (s.setPc v).prgBank = s.prgBank := rfl
@[simp] theorem State.setPc_chrBank (v : Addr) : (s.setPc v).chrBank = s.chrBank := rfl
@[simp] theorem State.setPc_chrRam (v : Addr) : (s.setPc v).chrRam = s.chrRam := rfl
@[simp] theorem State.setPc_cart (v : Addr) : (s.setPc v).cart = s.cart := rfl
@[simp] theorem State.setPc_cfg (v : Addr) : (s.setPc v).cfg = s.cfg := rfl
@[simp] theorem State.setPc_fault (v : Addr) : (s.setPc v).fault = s.fault := rfl
@[simp] theorem State.setPc_started (v : Addr) : (s.setPc v).started = s.started := rfl
@[simp] theorem State.setPc_host (v : Addr) : (s.setPc v).host = s.host := rfl

/-! `setP` writes `p` only. -/

@[simp] theorem State.setP_a (v : Byte) : (s.setP v).a = s.a := rfl
@[simp] theorem State.setP_x (v : Byte) : (s.setP v).x = s.x := rfl
@[simp] theorem State.setP_y (v : Byte) : (s.setP v).y = s.y := rfl
@[simp] theorem State.setP_sp (v : Byte) : (s.setP v).sp = s.sp := rfl
@[simp] theorem State.setP_pc (v : Byte) : (s.setP v).pc = s.pc := rfl
@[simp] theorem State.setP_p (v : Byte) : (s.setP v).p = v := rfl
@[simp] theorem State.setP_cycles (v : Byte) : (s.setP v).cycles = s.cycles := rfl
@[simp] theorem State.setP_mem (v : Byte) : (s.setP v).mem = s.mem := rfl
@[simp] theorem State.setP_prgBank (v : Byte) : (s.setP v).prgBank = s.prgBank := rfl
@[simp] theorem State.setP_chrBank (v : Byte) : (s.setP v).chrBank = s.chrBank := rfl
@[simp] theorem State.setP_chrRam (v : Byte) : (s.setP v).chrRam = s.chrRam := rfl
@[simp] theorem State.setP_cart (v : Byte) : (s.setP v).cart = s.cart := rfl
@[simp] theorem State.setP_cfg (v : Byte) : (s.setP v).cfg = s.cfg := rfl
@[simp] theorem State.setP_fault (v : Byte) : (s.setP v).fault = s.fault := rfl
@[simp] theorem State.setP_started (v : Byte) : (s.setP v).started = s.started := rfl
@[simp] theorem State.setP_host (v : Byte) : (s.setP v).host = s.host := rfl

/-! `setCycles` writes `cycles` only. -/

@[simp] theorem State.setCycles_a (v : Nat) : (s.setCycles v).a = s.a := rfl
@[simp] theorem State.setCycles_x (v : Nat) : (s.setCycles v).x = s.x := rfl
@[simp] theorem State.setCycles_y (v : Nat) : (s.setCycles v).y = s.y := rfl
@[simp] theorem State.setCycles_sp (v : Nat) : (s.setCycles v).sp = s.sp := rfl
@[simp] theorem State.setCycles_pc (v : Nat) : (s.setCycles v).pc = s.pc := rfl
@[simp] theorem State.setCycles_p (v : Nat) : (s.setCycles v).p = s.p := rfl
@[simp] theorem State.setCycles_cycles (v : Nat) : (s.setCycles v).cycles = v := rfl
@[simp] theorem State.setCycles_mem (v : Nat) : (s.setCycles v).mem = s.mem := rfl
@[simp] theorem State.setCycles_prgBank (v : Nat) : (s.setCycles v).prgBank = s.prgBank := rfl
@[simp] theorem State.setCycles_chrBank (v : Nat) : (s.setCycles v).chrBank = s.chrBank := rfl
@[simp] theorem State.setCycles_chrRam (v : Nat) : (s.setCycles v).chrRam = s.chrRam := rfl
@[simp] theorem State.setCycles_cart (v : Nat) : (s.setCycles v).cart = s.cart := rfl
@[simp] theorem State.setCycles_cfg (v : Nat) : (s.setCycles v).cfg = s.cfg := rfl
@[simp] theorem State.setCycles_fault (v : Nat) : (s.setCycles v).fault = s.fault := rfl
@[simp] theorem State.setCycles_started (v : Nat) : (s.setCycles v).started = s.started := rfl
@[simp] theorem State.setCycles_host (v : Nat) : (s.setCycles v).host = s.host := rfl

/-! `setMem` writes `mem` only. -/

@[simp] theorem State.setMem_a (v : Memory) : (s.setMem v).a = s.a := rfl
@[simp] theorem State.setMem_x (v : Memory) : (s.setMem v).x = s.x := rfl
@[simp] theorem State.setMem_y (v : Memory) : (s.setMem v).y = s.y := rfl
@[simp] theorem State.setMem_sp (v : Memory) : (s.setMem v).sp = s.sp := rfl
@[simp] theorem State.setMem_pc (v : Memory) : (s.setMem v).pc = s.pc := rfl
@[simp] theorem State.setMem_p (v : Memory) : (s.setMem v).p = s.p := rfl
@[simp] theorem State.setMem_cycles (v : Memory) : (s.setMem v).cycles = s.cycles := rfl
@[simp] theorem State.setMem_mem (v : Memory) : (s.setMem v).mem = v := rfl
@[simp] theorem State.setMem_prgBank (v : Memory) : (s.setMem v).prgBank = s.prgBank := rfl
@[simp] theorem State.setMem_chrBank (v : Memory) : (s.setMem v).chrBank = s.chrBank := rfl
@[simp] theorem State.setMem_chrRam (v : Memory) : (s.setMem v).chrRam = s.chrRam := rfl
@[simp] theorem State.setMem_cart (v : Memory) : (s.setMem v).cart = s.cart := rfl
@[simp] theorem State.setMem_cfg (v : Memory) : (s.setMem v).cfg = s.cfg := rfl
@[simp] theorem State.setMem_fault (v : Memory) : (s.setMem v).fault = s.fault := rfl
@[simp] theorem State.setMem_started (v : Memory) : (s.setMem v).started = s.started := rfl
@[simp] theorem State.setMem_host (v : Memory) : (s.setMem v).host = s.host := rfl

/-! `setPrgBank` writes `prgBank` only. -/

@[simp] theorem State.setPrgBank_a (v : Nat) : (s.setPrgBank v).a = s.a := rfl
@[simp] theorem State.setPrgBank_x (v : Nat) : (s.setPrgBank v).x = s.x := rfl
@[simp] theorem State.setPrgBank_y (v : Nat) : (s.setPrgBank v).y = s.y := rfl
@[simp] theorem State.setPrgBank_sp (v : Nat) : (s.setPrgBank v).sp = s.sp := rfl
@[simp] theorem State.setPrgBank_pc (v : Nat) : (s.setPrgBank v).pc = s.pc := rfl
@[simp] theorem State.setPrgBank_p (v : Nat) : (s.setPrgBank v).p = s.p := rfl
@[simp] theorem State.setPrgBank_cycles (v : Nat) : (s.setPrgBank v).cycles = s.cycles := rfl
@[simp] theorem State.setPrgBank_mem (v : Nat) : (s.setPrgBank v).mem = s.mem := rfl
@[simp] theorem State.setPrgBank_prgBank (v : Nat) : (s.setPrgBank v).prgBank = v := rfl
@[simp] theorem State.setPrgBank_chrBank (v : Nat) : (s.setPrgBank v).chrBank = s.chrBank := rfl
@[simp] theorem State.setPrgBank_chrRam (v : Nat) : (s.setPrgBank v).chrRam = s.chrRam := rfl
@[simp] theorem State.setPrgBank_cart (v : Nat) : (s.setPrgBank v).cart = s.cart := rfl
@[simp] theorem State.setPrgBank_cfg (v : Nat) : (s.setPrgBank v).cfg = s.cfg := rfl
@[simp] theorem State.setPrgBank_fault (v : Nat) : (s.setPrgBank v).fault = s.fault := rfl
@[simp] theorem State.setPrgBank_started (v : Nat) : (s.setPrgBank v).started = s.started := rfl
@[simp] theorem State.setPrgBank_host (v : Nat) : (s.setPrgBank v).host = s.host := rfl

/-! `setChrBank` writes `chrBank` only. -/

@[simp] theorem State.setChrBank_a (v : Nat) : (s.setChrBank v).a = s.a := rfl
@[simp] theorem State.setChrBank_x (v : Nat) : (s.setChrBank v).x = s.x := rfl
@[simp] theorem State.setChrBank_y (v : Nat) : (s.setChrBank v).y = s.y := rfl
@[simp] theorem State.setChrBank_sp (v : Nat) : (s.setChrBank v).sp = s.sp := rfl
@[simp] theorem State.setChrBank_pc (v : Nat) : (s.setChrBank v).pc = s.pc := rfl
@[simp] theorem State.setChrBank_p (v : Nat) : (s.setChrBank v).p = s.p := rfl
@[simp] theorem State.setChrBank_cycles (v : Nat) : (s.setChrBank v).cycles = s.cycles := rfl
@[simp] theorem State.setChrBank_mem (v : Nat) : (s.setChrBank v).mem = s.mem := rfl
@[simp] theorem State.setChrBank_prgBank (v : Nat) : (s.setChrBank v).prgBank = s.prgBank := rfl
@[simp] theorem State.setChrBank_chrBank (v : Nat) : (s.setChrBank v).chrBank = v := rfl
@[simp] theorem State.setChrBank_chrRam (v : Nat) : (s.setChrBank v).chrRam = s.chrRam := rfl
@[simp] theorem State.setChrBank_cart (v : Nat) : (s.setChrBank v).cart = s.cart := rfl
@[simp] theorem State.setChrBank_cfg (v : Nat) : (s.setChrBank v).cfg = s.cfg := rfl
@[simp] theorem State.setChrBank_fault (v : Nat) : (s.setChrBank v).fault = s.fault := rfl
@[simp] theorem State.setChrBank_started (v : Nat) : (s.setChrBank v).started = s.started := rfl
@[simp] theorem State.setChrBank_host (v : Nat) : (s.setChrBank v).host = s.host := rfl

/-! `setChrRam` writes `chrRam` only. -/

@[simp] theorem State.setChrRam_a (v : Memory) : (s.setChrRam v).a = s.a := rfl
@[simp] theorem State.setChrRam_x (v : Memory) : (s.setChrRam v).x = s.x := rfl
@[simp] theorem State.setChrRam_y (v : Memory) : (s.setChrRam v).y = s.y := rfl
@[simp] theorem State.setChrRam_sp (v : Memory) : (s.setChrRam v).sp = s.sp := rfl
@[simp] theorem State.setChrRam_pc (v : Memory) : (s.setChrRam v).pc = s.pc := rfl
@[simp] theorem State.setChrRam_p (v : Memory) : (s.setChrRam v).p = s.p := rfl
@[simp] theorem State.setChrRam_cycles (v : Memory) : (s.setChrRam v).cycles = s.cycles := rfl
@[simp] theorem State.setChrRam_mem (v : Memory) : (s.setChrRam v).mem = s.mem := rfl
@[simp] theorem State.setChrRam_prgBank (v : Memory) : (s.setChrRam v).prgBank = s.prgBank := rfl
@[simp] theorem State.setChrRam_chrBank (v : Memory) : (s.setChrRam v).chrBank = s.chrBank := rfl
@[simp] theorem State.setChrRam_chrRam (v : Memory) : (s.setChrRam v).chrRam = v := rfl
@[simp] theorem State.setChrRam_cart (v : Memory) : (s.setChrRam v).cart = s.cart := rfl
@[simp] theorem State.setChrRam_cfg (v : Memory) : (s.setChrRam v).cfg = s.cfg := rfl
@[simp] theorem State.setChrRam_fault (v : Memory) : (s.setChrRam v).fault = s.fault := rfl
@[simp] theorem State.setChrRam_started (v : Memory) : (s.setChrRam v).started = s.started := rfl
@[simp] theorem State.setChrRam_host (v : Memory) : (s.setChrRam v).host = s.host := rfl

end Sys2Proof.Machine
end

