-- ==== Sys2Proof/Laws/Bus.lean ====
section
/-! SUPPORT. What the bus and the devices do: which fields a device write touches, that reads and writes succeed exactly
on claimed addresses, and read after write. -/

namespace Sys2Proof.Machine

variable (s : State)

/-! Accesses in `Except`: the three laws a meaning's `do` block is opened with. -/

@[simp] theorem access_ok_bind {α β : Type} (v : α) (f : α → Access β) : (Except.ok v >>= f : Access β) = f v := rfl
@[simp] theorem access_error_bind {α β : Type} (e : Fault) (f : α → Access β) :
    ((Except.error e : Access α) >>= f) = .error e := rfl

/-- A sequence of two accesses answers exactly where both do. -/
theorem access_bind_ok {α β : Type} {x : Access α} {f : α → Access β} {r : β} :
    (x >>= f) = .ok r ↔ ∃ v, x = .ok v ∧ f v = .ok r := by
  cases x <;> simp

/-- A sequence of two accesses fails where the first fails, or the second after it. -/
theorem access_bind_error {α β : Type} {x : Access α} {f : α → Access β} {e : Fault} :
    (x >>= f) = .error e ↔ x = .error e ∨ ∃ v, x = .ok v ∧ f v = .error e := by
  cases x <;> simp

/-! A device write touches the RAM bytes and the bank-select registers only. -/

theorem mapperWrite_eq (v : Byte) : ∃ n k, s.mapperWrite v = { s with prgBank := n, chrBank := k } := by
  unfold State.mapperWrite
  split
  · exact ⟨_, _, rfl⟩
  · exact ⟨_, _, rfl⟩
  · exact ⟨_, _, rfl⟩

theorem deviceWrite_eq (v : Byte) (t : Target) :
    ∃ m n k, s.deviceWrite v t = { s with mem := m, prgBank := n, chrBank := k } := by
  cases t with
  | cell key => exact ⟨_, _, _, rfl⟩
  | mapper =>
    obtain ⟨n, k, h⟩ := mapperWrite_eq s v
    exact ⟨_, n, k, h⟩

@[simp] theorem deviceWrite_a (v : Byte) (t : Target) : (s.deviceWrite v t).a = s.a := by
  obtain ⟨m, n, k, h⟩ := deviceWrite_eq s v t; rw [h]
@[simp] theorem deviceWrite_x (v : Byte) (t : Target) : (s.deviceWrite v t).x = s.x := by
  obtain ⟨m, n, k, h⟩ := deviceWrite_eq s v t; rw [h]
@[simp] theorem deviceWrite_y (v : Byte) (t : Target) : (s.deviceWrite v t).y = s.y := by
  obtain ⟨m, n, k, h⟩ := deviceWrite_eq s v t; rw [h]
@[simp] theorem deviceWrite_sp (v : Byte) (t : Target) : (s.deviceWrite v t).sp = s.sp := by
  obtain ⟨m, n, k, h⟩ := deviceWrite_eq s v t; rw [h]
@[simp] theorem deviceWrite_pc (v : Byte) (t : Target) : (s.deviceWrite v t).pc = s.pc := by
  obtain ⟨m, n, k, h⟩ := deviceWrite_eq s v t; rw [h]
@[simp] theorem deviceWrite_p (v : Byte) (t : Target) : (s.deviceWrite v t).p = s.p := by
  obtain ⟨m, n, k, h⟩ := deviceWrite_eq s v t; rw [h]
@[simp] theorem deviceWrite_cycles (v : Byte) (t : Target) : (s.deviceWrite v t).cycles = s.cycles := by
  obtain ⟨m, n, k, h⟩ := deviceWrite_eq s v t; rw [h]
@[simp] theorem deviceWrite_chrRam (v : Byte) (t : Target) : (s.deviceWrite v t).chrRam = s.chrRam := by
  obtain ⟨m, n, k, h⟩ := deviceWrite_eq s v t; rw [h]
@[simp] theorem deviceWrite_cart (v : Byte) (t : Target) : (s.deviceWrite v t).cart = s.cart := by
  obtain ⟨m, n, k, h⟩ := deviceWrite_eq s v t; rw [h]
@[simp] theorem deviceWrite_cfg (v : Byte) (t : Target) : (s.deviceWrite v t).cfg = s.cfg := by
  obtain ⟨m, n, k, h⟩ := deviceWrite_eq s v t; rw [h]
@[simp] theorem deviceWrite_fault (v : Byte) (t : Target) : (s.deviceWrite v t).fault = s.fault := by
  obtain ⟨m, n, k, h⟩ := deviceWrite_eq s v t; rw [h]
@[simp] theorem deviceWrite_started (v : Byte) (t : Target) : (s.deviceWrite v t).started = s.started := by
  obtain ⟨m, n, k, h⟩ := deviceWrite_eq s v t; rw [h]
@[simp] theorem deviceWrite_host (v : Byte) (t : Target) : (s.deviceWrite v t).host = s.host := by
  obtain ⟨m, n, k, h⟩ := deviceWrite_eq s v t; rw [h]

@[simp] theorem deviceWrite_cell (v : Byte) (key : Nat) :
    s.deviceWrite v (.cell key) = s.setMem (s.mem.write key v) := rfl
@[simp] theorem deviceWrite_mapper (v : Byte) : s.deviceWrite v .mapper = s.mapperWrite v := rfl

@[simp] theorem mapperWrite_mem (v : Byte) : (s.mapperWrite v).mem = s.mem := by
  obtain ⟨n, k, h⟩ := mapperWrite_eq s v; rw [h]

/-! Which device claims an address (rules R46, R47 and R49). -/

theorem claimFrom_none {first a : Nat} {l : List Device} :
    claimFrom first a l = none ↔ ∀ d ∈ l, ¬(d.start ≤ a ∧ a ≤ d.stop) := by
  induction l generalizing first with
  | nil => simp [claimFrom]
  | cons d l ih =>
    simp only [claimFrom, List.mem_cons, forall_eq_or_imp]
    rw [← ih (first := first + 1)]
    cases claimFrom (first + 1) a l <;> simp [deviceContains]

theorem claimFrom_some {first a index : Nat} {d : Device} {l : List Device}
    (h : claimFrom first a l = some (index, d)) :
    first ≤ index ∧ l[index - first]? = some d ∧ d.start ≤ a ∧ a ≤ d.stop := by
  induction l generalizing first with
  | nil => simp [claimFrom] at h
  | cons e l ih =>
    simp only [claimFrom] at h
    cases hl : claimFrom (first + 1) a l with
    | some f =>
      simp only [hl, Option.some.injEq] at h
      subst h
      obtain ⟨h1, h2, h3⟩ := ih hl
      refine ⟨by omega, ?_, h3⟩
      rw [show index - first = (index - (first + 1)) + 1 by omega]
      simpa using h2
    | none =>
      simp [hl, deviceContains] at h
      obtain ⟨⟨h1, h2⟩, rfl, rfl⟩ := h
      simp [h1, h2]

/-- The last registration claims its whole range (rule R47). -/
theorem claimFrom_append (first a : Nat) (l : List Device) (d : Device) :
    claimFrom first a (l ++ [d]) =
      if d.start ≤ a ∧ a ≤ d.stop then some (first + l.length, d) else claimFrom first a l := by
  induction l generalizing first with
  | nil => simp [claimFrom, deviceContains]
  | cons e l ih =>
    simp only [List.cons_append, claimFrom, ih]
    by_cases h : d.start ≤ a ∧ a ≤ d.stop <;> simp [h, Nat.add_comm, Nat.add_left_comm]

/-- The offset in a bank of 16384 bytes (rule R64). -/
theorem toNat_and_o14 (a : Addr) : (a &&& 0x3FFF#16).toNat = a.toNat % 16384 := by
  rw [BitVec.toNat_and]
  exact Nat.and_two_pow_sub_one_eq_mod a.toNat 14

/-- The offset in 32768 bytes (rule R66). -/
theorem toNat_and_o15 (a : Addr) : (a &&& 0x7FFF#16).toNat = a.toNat % 32768 := by
  rw [BitVec.toNat_and]
  exact Nat.and_two_pow_sub_one_eq_mod a.toNat 15

/-! The decode table is a function of the wiring alone (rule R20). -/

theorem target_congr {s t : State} (h : s.cfg = t.cfg) (a : Addr) : s.target a = t.target a := by
  simp only [State.target, h]

/-- A read depends on the wiring, the RAM bytes, the cartridge and the PRG bank alone. -/
theorem read_congr {s t : State} (hcfg : s.cfg = t.cfg) (hmem : s.mem = t.mem) (hcart : s.cart = t.cart)
    (hbank : s.prgBank = t.prgBank) (a : Addr) : s.read a = t.read a := by
  simp only [State.read, State.target, State.deviceRead, State.prgIndex, hcfg, hmem, hcart, hbank]

@[simp] theorem target_setA (v : Byte) (a : Addr) : (s.setA v).target a = s.target a := rfl
@[simp] theorem target_setX (v : Byte) (a : Addr) : (s.setX v).target a = s.target a := rfl
@[simp] theorem target_setY (v : Byte) (a : Addr) : (s.setY v).target a = s.target a := rfl
@[simp] theorem target_setSp (v : Byte) (a : Addr) : (s.setSp v).target a = s.target a := rfl
@[simp] theorem target_setPc (v : Addr) (a : Addr) : (s.setPc v).target a = s.target a := rfl
@[simp] theorem target_setP (v : Byte) (a : Addr) : (s.setP v).target a = s.target a := rfl
@[simp] theorem target_setCycles (v : Nat) (a : Addr) : (s.setCycles v).target a = s.target a := rfl
@[simp] theorem target_setMem (v : Memory) (a : Addr) : (s.setMem v).target a = s.target a := rfl
@[simp] theorem target_setPrgBank (v : Nat) (a : Addr) : (s.setPrgBank v).target a = s.target a := rfl
@[simp] theorem target_setChrBank (v : Nat) (a : Addr) : (s.setChrBank v).target a = s.target a := rfl
@[simp] theorem target_setChrRam (v : Memory) (a : Addr) : (s.setChrRam v).target a = s.target a := rfl

@[simp] theorem read_setA (v : Byte) (a : Addr) : (s.setA v).read a = s.read a := rfl
@[simp] theorem read_setX (v : Byte) (a : Addr) : (s.setX v).read a = s.read a := rfl
@[simp] theorem read_setY (v : Byte) (a : Addr) : (s.setY v).read a = s.read a := rfl
@[simp] theorem read_setSp (v : Byte) (a : Addr) : (s.setSp v).read a = s.read a := rfl
@[simp] theorem read_setPc (v : Addr) (a : Addr) : (s.setPc v).read a = s.read a := rfl
@[simp] theorem read_setP (v : Byte) (a : Addr) : (s.setP v).read a = s.read a := rfl
@[simp] theorem read_setCycles (v : Nat) (a : Addr) : (s.setCycles v).read a = s.read a := rfl

/-! Reads and writes answer exactly on claimed addresses (rules R45 and R49). -/

theorem read_ok {a : Addr} {v : Byte} :
    s.read a = .ok v ↔ ∃ t, s.target a = some t ∧ s.deviceRead false a t = v := by
  unfold State.read; cases s.target a <;> simp

theorem read_error {a : Addr} {f : Fault} : s.read a = .error f ↔ s.target a = none ∧ f = .busAbort a := by
  unfold State.read; cases s.target a <;> simp [eq_comm]

theorem write_ok {a : Addr} {v : Byte} {w : State} :
    s.write a v = .ok w ↔ ∃ t, s.target a = some t ∧ s.deviceWrite v t = w := by
  unfold State.write; cases s.target a <;> simp

theorem write_error {a : Addr} {v : Byte} {f : Fault} :
    s.write a v = .error f ↔ s.target a = none ∧ f = .busAbort a := by
  unfold State.write; cases s.target a <;> simp [eq_comm]

theorem read_of_target {a : Addr} {t : Target} (h : s.target a = some t) :
    s.read a = .ok (s.deviceRead false a t) := by simp [State.read, h]

theorem write_of_target {a : Addr} {t : Target} (h : s.target a = some t) (v : Byte) :
    s.write a v = .ok (s.deviceWrite v t) := by simp [State.write, h]

/-- What a write leaves: the RAM bytes and the bank-select registers may differ, nothing else does. -/
theorem write_eq {s w : State} {a : Addr} {v : Byte} (h : s.write a v = .ok w) :
    ∃ m n k, w = { s with mem := m, prgBank := n, chrBank := k } := by
  obtain ⟨t, -, rfl⟩ := (write_ok s).mp h
  exact deviceWrite_eq s v t

/-- A write leaves the decode table. -/
theorem write_target {s w : State} {a : Addr} {v : Byte} (h : s.write a v = .ok w) (b : Addr) :
    w.target b = s.target b := by
  obtain ⟨m, n, k, rfl⟩ := write_eq h; rfl

/-- After a write to a RAM byte a read of the same address answers the written byte. -/
theorem read_after_write {s w : State} {a : Addr} {v : Byte} {key : Nat} (hwf : s.mem.wf = true)
    (ht : s.target a = some (.cell key)) (h : s.write a v = .ok w) : w.read a = .ok v := by
  rw [write_of_target s ht] at h
  cases h
  rw [read_of_target _ (t := .cell key) (by simpa using ht)]
  simp [State.deviceRead, Memory.read_write_same hwf]

/-- A write leaves every address whose accesses land elsewhere. -/
theorem read_other_after_write {s w : State} {a b : Addr} {v : Byte} (h : s.write a v = .ok w)
    (hne : s.target b ≠ s.target a) : w.read b = s.read b := by
  obtain ⟨t, ht, rfl⟩ := (write_ok s).mp h
  have htb : (s.deviceWrite v t).target b = s.target b := target_congr (by simp) b
  cases hb : s.target b with
  | none => simp [State.read, htb, hb]
  | some u =>
    rw [read_of_target s hb, read_of_target _ (htb.trans hb)]
    rw [hb, ht] at hne
    congr 1
    cases u with
    | cell j =>
      cases t with
      | cell k =>
        have : j ≠ k := fun he => hne (by rw [he])
        simp [State.deviceRead, Memory.read_write_other _ this]
      | mapper => simp [State.deviceRead]
    | mapper =>
      cases t with
      | cell k => rfl
      | mapper => exact absurd rfl hne

/-- What a write does to the RAM bytes and the bank-select registers does not depend on the other fields but the wiring
and the cartridge. -/
theorem write_congr {s t w : State} {a : Addr} {v : Byte} (hcfg : t.cfg = s.cfg) (hcart : t.cart = s.cart)
    (hmem : t.mem = s.mem) (hprg : t.prgBank = s.prgBank) (hchr : t.chrBank = s.chrBank) (h : s.write a v = .ok w) :
    t.write a v = .ok { t with mem := w.mem, prgBank := w.prgBank, chrBank := w.chrBank } := by
  obtain ⟨u, hu, rfl⟩ := (write_ok s).mp h
  rw [write_of_target t ((target_congr hcfg a).trans hu)]
  cases s
  cases t
  simp only at hcfg hcart hmem hprg hchr
  subst hcfg hcart hmem hprg hchr
  cases u with
  | cell key => rfl
  | mapper =>
    simp only [deviceWrite_mapper, State.mapperWrite]
    split <;> rfl

/-- A masked bank index names a bank there is (rule R64). -/
theorem bankMask_le (v n : Nat) : bankMask v n ≤ n - 1 := Nat.and_le_right

end Sys2Proof.Machine
end

