-- ==== Sys2Proof/Laws/Ops.lean ====
section
/-! SUPPORT. What the shared operations do: addressing, operand fetch, write-back, the stack, trap entry and return,
and the common part of an instruction. Proofs cite these instead of unfolding the operations. -/

namespace Sys2Proof.Machine

/-! The state in which an operation runs. -/

section Enter

variable (s : State) (op : Byte) (md : Mode)

@[simp] theorem enter_a : (s.enter op md).a = s.a := rfl
@[simp] theorem enter_x : (s.enter op md).x = s.x := rfl
@[simp] theorem enter_y : (s.enter op md).y = s.y := rfl
@[simp] theorem enter_sp : (s.enter op md).sp = s.sp := rfl
@[simp] theorem enter_pc : (s.enter op md).pc = s.pc + BitVec.ofNat 16 md.length := rfl
@[simp] theorem enter_p : (s.enter op md).p = putFlag s.p .u true := rfl
@[simp] theorem enter_cycles : (s.enter op md).cycles = baseCycles s.cfg op := rfl
@[simp] theorem enter_mem : (s.enter op md).mem = s.mem := rfl
@[simp] theorem enter_prgBank : (s.enter op md).prgBank = s.prgBank := rfl
@[simp] theorem enter_chrBank : (s.enter op md).chrBank = s.chrBank := rfl
@[simp] theorem enter_chrRam : (s.enter op md).chrRam = s.chrRam := rfl
@[simp] theorem enter_cart : (s.enter op md).cart = s.cart := rfl
@[simp] theorem enter_cfg : (s.enter op md).cfg = s.cfg := rfl
@[simp] theorem enter_fault : (s.enter op md).fault = s.fault := rfl
@[simp] theorem enter_started : (s.enter op md).started = s.started := rfl
@[simp] theorem enter_host : (s.enter op md).host = s.host := rfl
@[simp] theorem enter_target (a : Addr) : (s.enter op md).target a = s.target a := rfl
@[simp] theorem enter_read (a : Addr) : (s.enter op md).read a = s.read a := rfl

end Enter

/-- What a change of state outside the devices leaves of the effective address: it depends on PC, X, Y and reads. -/
theorem effective_congr {s t : State} (m : Operand) (hpc : s.pc = t.pc) (hx : s.x = t.x) (hy : s.y = t.y)
    (hread : ∀ a, s.read a = t.read a) : effective m s = effective m t := by
  cases m <;> simp only [effective, State.readPageWord, State.readZeroPageWord, hpc, hx, hy, hread]

/-- `operand()` depends on A and reads. -/
theorem operandByte_congr {s t : State} (m : Operand) (ea : Ea) (ha : s.a = t.a)
    (hread : ∀ a, s.read a = t.read a) : operandByte m ea s = operandByte m ea t := by
  cases m <;> simp only [operandByte, ha, hread]

/-- An addressing mode fails only by an access to an unclaimed address. -/
theorem effective_error {m : Operand} {s : State} {f : Fault} (h : effective m s = .error f) :
    ∃ a, s.target a = none ∧ f = .busAbort a := by
  have word {a b : Addr} : (do let lo ← s.read a; let hi ← s.read b; (.ok (wordOf lo hi) : Access Addr)) = .error f →
      ∃ a, s.target a = none ∧ f = .busAbort a := fun h => by
    rcases access_bind_error.mp h with h | ⟨_, -, h⟩
    · exact ⟨a, (read_error s).mp h⟩
    · rcases access_bind_error.mp h with h | ⟨_, -, h⟩
      · exact ⟨b, (read_error s).mp h⟩
      · cases h
  cases m with
  | ind w =>
    rcases access_bind_error.mp h with h | ⟨_, -, h⟩
    · exact word h
    · cases h
  | izx b =>
    rcases access_bind_error.mp h with h | ⟨_, -, h⟩
    · exact word h
    · cases h
  | izy b =>
    rcases access_bind_error.mp h with h | ⟨_, -, h⟩
    · exact word h
    · cases h
  | _ => simp [effective] at h

/-- `operand()` fails only by an access to an unclaimed address. -/
theorem operandByte_error {m : Operand} {ea : Ea} {s : State} {f : Fault} (h : operandByte m ea s = .error f) :
    s.target ea.addr = none ∧ f = .busAbort ea.addr := by
  cases m <;> first | (simp [operandByte] at h; done) | exact (read_error s).mp h

/-- A write-back writes A in accumulator form, and otherwise what one bus write writes. -/
theorem writeback_ok {m : Operand} {ea : Ea} {v : Byte} {s t : State} (h : writeback m ea v s = .ok t) :
    (m = .imp ∧ t = s.setA v) ∨ (m ≠ .imp ∧ s.write ea.addr v = .ok t) := by
  cases m <;> simp_all [writeback, eq_comm]

/-! The stack (rule R180). -/

/-- A push is one write at the stack location and a lower stack pointer. -/
theorem push_ok {s t : State} {v : Byte} :
    s.push v = .ok t ↔ ∃ w, s.write (stackAddr s.sp) v = .ok w ∧ t = w.setSp (s.sp - 1) := by
  simp only [State.push, access_bind_ok, Except.ok.injEq, eq_comm (a := t)]

/-- A pull is one read above the stack pointer and a higher stack pointer. -/
theorem pull_ok {s : State} {r : Byte × State} :
    s.pull = .ok r ↔ ∃ v, s.read (stackAddr (s.sp + 1)) = .ok v ∧ r = (v, s.setSp (s.sp + 1)) := by
  simp only [State.pull, access_bind_ok, Except.ok.injEq, eq_comm (a := r)]

/-- Pushing a word is two pushes, the high byte first. -/
theorem pushWord_ok {s t : State} {w : Addr} :
    s.pushWord w = .ok t ↔ ∃ u, s.push (hiByte w) = .ok u ∧ u.push (loByte w) = .ok t := by
  simp [State.pushWord, access_bind_ok]

/-- Pulling a word is two reads above the stack pointer. -/
theorem pullWord_ok {s : State} {r : Addr × State} :
    s.pullWord = .ok r ↔ ∃ lo hi, s.read (stackAddr (s.sp + 1)) = .ok lo ∧
      s.read (stackAddr (s.sp + 1 + 1)) = .ok hi ∧ r = (wordOf lo hi, s.setSp (s.sp + 1 + 1)) := by
  constructor
  · intro h
    obtain ⟨p, hp, h⟩ := access_bind_ok.mp h
    obtain ⟨lo, hlo, rfl⟩ := pull_ok.mp hp
    obtain ⟨q, hq, h⟩ := access_bind_ok.mp h
    obtain ⟨hi, hhi, rfl⟩ := pull_ok.mp hq
    cases h
    exact ⟨lo, hi, hlo, hhi, rfl⟩
  · rintro ⟨lo, hi, hlo, hhi, rfl⟩
    refine access_bind_ok.mpr ⟨_, pull_ok.mpr ⟨lo, hlo, rfl⟩, access_bind_ok.mpr ⟨_, pull_ok.mpr ⟨hi, ?_, rfl⟩, rfl⟩⟩
    simpa using hhi

/-- A vector or other word is two reads, the low byte first. -/
theorem readWord_ok {s : State} {a w : Addr} :
    s.readWord a = .ok w ↔ ∃ lo hi, s.read a = .ok lo ∧ s.read (a + 1) = .ok hi ∧ w = wordOf lo hi := by
  simp only [State.readWord, access_bind_ok, Except.ok.injEq, exists_and_left, eq_comm (a := w)]

/-- Trap entry (rule R256): three pushes, I set, PC from the vector as memory stands after the pushes. -/
theorem trapEntry_ok {s t : State} {ret vector : Addr} {status : Byte} :
    trapEntry ret status vector s = .ok t ↔
      ∃ u w target, s.pushWord ret = .ok u ∧ u.push status = .ok w ∧
        (w.setFlag .i true).readWord vector = .ok target ∧ t = (w.setFlag .i true).setPc target := by
  simp only [trapEntry, access_bind_ok]
  constructor
  · rintro ⟨u, hu, w, hw, target, ht, h⟩
    cases h
    exact ⟨u, w, target, hu, hw, ht, rfl⟩
  · rintro ⟨u, w, target, hu, hw, ht, rfl⟩
    exact ⟨u, hu, w, hw, target, ht, rfl⟩

/-- Trap return (rule R187): three reads above the stack pointer. -/
theorem trapReturn_ok {s t : State} :
    trapReturn s = .ok t ↔ ∃ status lo hi, s.read (stackAddr (s.sp + 1)) = .ok status ∧
      s.read (stackAddr (s.sp + 1 + 1)) = .ok lo ∧ s.read (stackAddr (s.sp + 1 + 1 + 1)) = .ok hi ∧
      t = ((s.setP (pulledStatus status)).setSp (s.sp + 1 + 1 + 1)).setPc (wordOf lo hi) := by
  constructor
  · intro h
    obtain ⟨p, hp, h⟩ := access_bind_ok.mp h
    obtain ⟨status, hs, rfl⟩ := pull_ok.mp hp
    obtain ⟨q, hq, h⟩ := access_bind_ok.mp h
    obtain ⟨lo, hi, hlo, hhi, rfl⟩ := pullWord_ok.mp hq
    cases h
    exact ⟨status, lo, hi, hs, hlo, hhi, rfl⟩
  · rintro ⟨status, lo, hi, hs, hlo, hhi, rfl⟩
    refine access_bind_ok.mpr ⟨_, pull_ok.mpr ⟨status, hs, rfl⟩, access_bind_ok.mpr ⟨_, pullWord_ok.mpr
      ⟨lo, hi, ?_, ?_, rfl⟩, rfl⟩⟩
    · simpa using hlo
    · simpa using hhi

/-! The common part of an instruction (rule R103). -/

/-- An instruction completes where its addressing mode and its operation do. -/
theorem execute_next {mn : Mnemonic} {m : Operand} {operation : Ea → State → Access State} {s t : State} {op : Byte}
    {ea : Ea} (hop : opcodeOf mn m.mode = some op) (hea : effective m (s.enter op m.mode) = .ok ea)
    (ht : operation ea (s.enter op m.mode) = .ok t) :
    execute mn m operation s = .next (t.addCycles (extraCycles s.cfg mn ea.crossed)) := by
  simp [execute, hop, runOperation, hea, ht, conclude]

/-- An instruction that completes did so by its addressing mode and its operation. -/
theorem execute_eq_next {mn : Mnemonic} {m : Operand} {operation : Ea → State → Access State} {s u : State}
    (h : execute mn m operation s = .next u) :
    ∃ op ea t, opcodeOf mn m.mode = some op ∧ effective m (s.enter op m.mode) = .ok ea ∧
      operation ea (s.enter op m.mode) = .ok t ∧ u = t.addCycles (extraCycles s.cfg mn ea.crossed) := by
  unfold execute at h
  split at h
  · cases h
  · next op hop =>
    unfold conclude at h
    split at h
    · next t ht =>
      cases h
      obtain ⟨ea, hea, ht⟩ := access_bind_ok.mp ht
      obtain ⟨v, hv, ht⟩ := access_bind_ok.mp ht
      cases ht
      exact ⟨op, ea, v, hop, hea, hv, rfl⟩
    · cases h

/-- An instruction with an encoding ends in a next state or in the fault of its addressing mode or operation. -/
theorem execute_cases {mn : Mnemonic} {m : Operand} (operation : Ea → State → Access State) (s : State) {op : Byte}
    (hop : opcodeOf mn m.mode = some op) :
    (∃ t, execute mn m operation s = .next t) ∨
      (∃ f, execute mn m operation s = .fault f ∧ effective m (s.enter op m.mode) = .error f) ∨
      (∃ f ea, execute mn m operation s = .fault f ∧ effective m (s.enter op m.mode) = .ok ea ∧
        operation ea (s.enter op m.mode) = .error f) := by
  cases hea : effective m (s.enter op m.mode) with
  | error f => right; left; exact ⟨f, by simp [execute, hop, runOperation, hea, conclude], rfl⟩
  | ok ea =>
    cases ht : operation ea (s.enter op m.mode) with
    | error f => right; right; exact ⟨f, ea, by simp [execute, hop, runOperation, hea, ht, conclude], rfl, ht⟩
    | ok t => left; exact ⟨_, execute_next hop hea ht⟩

/-- A read instruction completes where its operand is readable. -/
theorem executeRead_next {mn : Mnemonic} {m : Operand} {operation : Byte → State → State} {s : State} {op : Byte}
    {ea : Ea} {v : Byte} (hop : opcodeOf mn m.mode = some op) (hea : effective m (s.enter op m.mode) = .ok ea)
    (hv : operandByte m ea (s.enter op m.mode) = .ok v) :
    executeRead mn m operation s =
      .next ((operation v (s.enter op m.mode)).addCycles (extraCycles s.cfg mn ea.crossed)) :=
  execute_next hop hea (by simp [hv])

/-- A store completes where its address is claimed. -/
theorem executeStore_next {mn : Mnemonic} {m : Operand} {register : State → Byte} {s w : State} {op : Byte} {ea : Ea}
    (hop : opcodeOf mn m.mode = some op) (hea : effective m (s.enter op m.mode) = .ok ea)
    (hw : (s.enter op m.mode).write ea.addr (register (s.enter op m.mode)) = .ok w) :
    executeStore mn m register s = .next (w.addCycles (extraCycles s.cfg mn ea.crossed)) :=
  execute_next hop hea hw

/-- An instruction of format IMP without a bus access completes in every state. -/
theorem executeImplied_next {mn : Mnemonic} {operation : State → State} {s : State} {op : Byte}
    (hop : opcodeOf mn .imp = some op) :
    executeImplied mn operation s = .next ((operation (s.enter op .imp)).addCycles 0) :=
  execute_next (m := .imp) (ea := { addr := 0, crossed := false }) hop rfl rfl

end Sys2Proof.Machine
end

