-- ==== Sys2Proof/Laws/Exec.lean ====
section
/-! SUPPORT. The common part of an instruction in the terms of Safety.lean: the state an operation runs in is
`State.after`, and each shape of meaning completes where its accesses are claimed. -/

namespace Sys2Proof.Machine

/-- A mnemonic has an opcode byte in each of its formats (rule R104). -/
theorem opcodeOf_of_mode {mn : Mnemonic} {md : Mode} (hne : mn ≠ .undoc) (h : md ∈ mn.modes) :
    ∃ op, opcodeOf mn md = some op := by
  revert hne h
  cases mn <;> cases md <;> simp [Mnemonic.modes, opcodeOf]

/-- A format a mnemonic has no opcode byte in is none of its formats. -/
theorem mode_of_opcodeOf {mn : Mnemonic} {md : Mode} {op : Byte} (h : opcodeOf mn md = some op) : md ∈ mn.modes := by
  revert h
  cases mn <;> cases md <;> simp [Mnemonic.modes, opcodeOf]

section After

variable (s : State) (i : Instr) (n : Nat)

@[simp] theorem after_a : (s.after i n).a = s.a := rfl
@[simp] theorem after_x : (s.after i n).x = s.x := rfl
@[simp] theorem after_y : (s.after i n).y = s.y := rfl
@[simp] theorem after_sp : (s.after i n).sp = s.sp := rfl
@[simp] theorem after_pc : (s.after i n).pc = s.pc + BitVec.ofNat 16 i.length := rfl
@[simp] theorem after_p : (s.after i n).p = putFlag s.p .u true := rfl
@[simp] theorem after_cycles : (s.after i n).cycles = baseCycles s.cfg (i.opcode.getD 0) + n := rfl
@[simp] theorem after_mem : (s.after i n).mem = s.mem := rfl
@[simp] theorem after_prgBank : (s.after i n).prgBank = s.prgBank := rfl
@[simp] theorem after_chrBank : (s.after i n).chrBank = s.chrBank := rfl
@[simp] theorem after_chrRam : (s.after i n).chrRam = s.chrRam := rfl
@[simp] theorem after_cart : (s.after i n).cart = s.cart := rfl
@[simp] theorem after_cfg : (s.after i n).cfg = s.cfg := rfl
@[simp] theorem after_fault : (s.after i n).fault = s.fault := rfl
@[simp] theorem after_started : (s.after i n).started = s.started := rfl
@[simp] theorem after_host : (s.after i n).host = s.host := rfl
@[simp] theorem after_target (a : Addr) : (s.after i n).target a = s.target a := rfl
@[simp] theorem after_read (a : Addr) : (s.after i n).read a = s.read a := rfl

theorem after_addCycles (k : Nat) : (s.after i n).addCycles k = s.after i (n + k) := by
  simp [State.after, State.addCycles, State.setCycles, Nat.add_assoc]

end After

/-- The state an instruction's operation runs in. -/
theorem enter_eq_after (s : State) {i : Instr} {op : Byte} (h : i.opcode = some op) :
    s.enter op i.operand.mode = s.after i 0 := by
  simp [State.enter, State.after, h, State.setPc, State.setP, State.setCycles, Instr.length]

/-- A flag other than U is the one before. -/
theorem getFlag_after (p : Byte) {f : Flag} (h : f ≠ .u) : getFlag (putFlag p .u true) f = getFlag p f :=
  getFlag_putFlag_other p h true

/-- `getFlag_after` for the carry the meanings read. -/
@[simp] theorem flag_c_after (s : State) (i : Instr) (n : Nat) : (s.after i n).flag .c = s.flag .c :=
  getFlag_after s.p (by decide)

/-- An instruction completes where its addressing mode and its operation do. -/
theorem execute_after {i : Instr} {mn : Mnemonic} {operation : Ea → State → Access State} {s t : State} {ea : Ea}
    (hi : i.opcode = opcodeOf mn i.operand.mode) (hwf : i.operand.mode ∈ mn.modes) (hne : mn ≠ .undoc)
    (hea : AddressIs i s ea) (ht : operation ea (s.after i 0) = .ok t) :
    execute mn i.operand operation s = .next (t.addCycles (extraCycles s.cfg mn ea.crossed)) := by
  obtain ⟨op, hop⟩ := opcodeOf_of_mode hne hwf
  have e := enter_eq_after s (hi.trans hop)
  exact execute_next hop (by rw [e]; exact hea) (by rw [e]; exact ht)

/-- A read instruction completes where its operand is readable. -/
theorem executeRead_after {i : Instr} {mn : Mnemonic} {operation : Byte → State → State} {s : State} {ea : Ea} {v : Byte}
    (hi : i.opcode = opcodeOf mn i.operand.mode) (hwf : i.operand.mode ∈ mn.modes) (hne : mn ≠ .undoc)
    (h : OperandIs i s ea v) :
    executeRead mn i.operand operation s =
      .next ((operation v (s.after i 0)).addCycles (extraCycles s.cfg mn ea.crossed)) :=
  execute_after hi hwf hne h.1 (by simp [h.2])

/-- A read-modify-write instruction completes where its operand is readable and its result writable. -/
theorem executeModify_after {i : Instr} {mn : Mnemonic} {result status : Byte → Byte → Byte} {s t : State} {ea : Ea}
    {v : Byte} (hi : i.opcode = opcodeOf mn i.operand.mode) (hwf : i.operand.mode ∈ mn.modes) (hne : mn ≠ .undoc)
    (h : OperandIs i s ea v)
    (ht : writeback i.operand ea (result (putFlag s.p .u true) v)
      ((s.after i 0).setP (status (putFlag s.p .u true) v)) = .ok t) :
    executeModify mn i.operand result status s = .next (t.addCycles (extraCycles s.cfg mn ea.crossed)) :=
  execute_after hi hwf hne h.1 (by simp [h.2]; exact ht)

/-- A store completes where its address is claimed. -/
theorem executeStore_after {i : Instr} {mn : Mnemonic} {register : State → Byte} {s w : State} {ea : Ea}
    (hi : i.opcode = opcodeOf mn i.operand.mode) (hwf : i.operand.mode ∈ mn.modes) (hne : mn ≠ .undoc)
    (h : AddressIs i s ea) (hw : s.write ea.addr (register (s.after i 0)) = .ok w) :
    executeStore mn i.operand register s =
      .next { s.after i (extraCycles s.cfg mn ea.crossed) with
        mem := w.mem, prgBank := w.prgBank, chrBank := w.chrBank } :=
  (execute_after hi hwf hne h (write_congr (s := s) (t := s.after i 0) rfl rfl rfl rfl rfl hw)).trans
    (by simp [State.addCycles, State.setCycles, State.after])

/-- An operand byte that is read was read at a claimed address. -/
theorem target_of_operandIs {i : Instr} {s : State} {ea : Ea} {v : Byte} (h : OperandIs i s ea v)
    (himp : i.operand.mode ≠ .imp) (himm : i.operand.mode ≠ .imm) : ∃ t, s.target ea.addr = some t := by
  have h2 := h.2
  cases ho : i.operand <;>
    simp only [ho, Operand.mode, ne_eq, not_true, operandByte, after_read, reduceCtorEq, not_false_eq_true] at * <;>
    exact ⟨_, ((read_ok s).mp h2).choose_spec.1⟩

/-- An instruction without an operand byte has no effective address and asks for no cycle. -/
theorem address_imp {i : Instr} (h : i.operand = .imp) (s : State) : AddressIs i s { addr := 0, crossed := false } := by
  simp [AddressIs, h, effective]

/-- The flags `resultFlags` gives, over any status whose flags are known (rule R200). -/
theorem flagsAre_setZN (p v : Byte) : FlagsAre (setZN (putFlag p .u true) v) p (resultFlags v) := by
  intro f
  rw [getFlag_setZN, getFlag_putFlag]
  cases f <;> simp [resultFlags, List.lookup, msb_decide, byte_beq]

/-- P after an instruction that writes no flag. -/
theorem flagsAre_u (p : Byte) : FlagsAre (putFlag p .u true) p [] := by
  intro f
  rw [getFlag_putFlag]
  cases f <;> simp

end Sys2Proof.Machine
end

