-- ==== Sys2Proof/Laws/Accesses.lean ====
section
/-! SUPPORT. Which bus accesses an operation makes, and that the first unclaimed one ends it in BusAbort of its address
(rules R49 and R251): one lemma per shared operation, composed by `accesses_bind`. -/

namespace Sys2Proof.Machine

/-- `x` makes accesses at the addresses of the list, in its order: it ends in BusAbort of the first of them that no
device claims in `s`, and answers a value where all are claimed. -/
def AccessesAt (s : State) (l : List Addr) {α : Type} (x : Access α) : Prop :=
  (∀ a, FirstUnclaimed s l a → x = .error (.busAbort a)) ∧ ((∀ a ∈ l, s.claims a = true) → ∃ v, x = .ok v)

section Compose

variable {s t : State} {α β : Type}

theorem claims_false {a : Addr} : s.claims a = false ↔ s.target a = none := by
  simp [State.claims]

theorem claims_true {a : Addr} : s.claims a = true ↔ ∃ u, s.target a = some u := by
  simp [State.claims, Option.isSome_iff_exists]

/-- The claimed addresses are a function of the wiring (rule R20). -/
theorem claims_congr (h : t.cfg = s.cfg) (a : Addr) : t.claims a = s.claims a := by
  simp [State.claims, target_congr h]

/-- Some access of a list is the first unclaimed one, or all are claimed. -/
theorem firstUnclaimed_or (s : State) (l : List Addr) :
    (∃ a, FirstUnclaimed s l a) ∨ ∀ a ∈ l, s.claims a = true := by
  cases h : l.find? fun b => !s.claims b with
  | some a => exact .inl ⟨a, h⟩
  | none => exact .inr fun a ha => by simpa using List.find?_eq_none.mp h a ha

theorem firstUnclaimed_claims {l : List Addr} {a : Addr} (h : FirstUnclaimed s l a) : s.claims a = false := by
  simpa using List.find?_some h

theorem firstUnclaimed_congr (h : t.cfg = s.cfg) (l : List Addr) (a : Addr) :
    FirstUnclaimed t l a ↔ FirstUnclaimed s l a := by
  simp [FirstUnclaimed, claims_congr h]

theorem accesses_congr {l : List Addr} {x : Access α} (h : t.cfg = s.cfg) (hx : AccessesAt t l x) :
    AccessesAt s l x :=
  ⟨fun a ha => hx.1 a ((firstUnclaimed_congr h l a).mpr ha),
    fun hl => hx.2 fun a ha => (claims_congr h a).trans (hl a ha)⟩

theorem accesses_ok (s : State) (v : α) : AccessesAt s [] (.ok v) := ⟨nofun, fun _ => ⟨v, rfl⟩⟩

/-- Accesses made one after the other. -/
theorem accesses_bind {l m : List Addr} {x : Access α} {f : α → Access β} (hx : AccessesAt s l x)
    (hf : ∀ v, x = .ok v → AccessesAt s m (f v)) : AccessesAt s (l ++ m) (x >>= f) := by
  constructor
  · intro a ha
    rw [FirstUnclaimed, List.find?_append] at ha
    cases hl : l.find? fun b => !s.claims b with
    | some b =>
      rw [hl] at ha
      cases ha
      rw [hx.1 a hl]
      rfl
    | none =>
      obtain ⟨v, hv⟩ := hx.2 fun b hb => by simpa using List.find?_eq_none.mp hl b hb
      rw [hl] at ha
      rw [hv]
      exact (hf v hv).1 a ha
  · intro h
    obtain ⟨v, hv⟩ := hx.2 fun a ha => h a (List.mem_append_left m ha)
    rw [hv]
    exact (hf v hv).2 fun a ha => h a (List.mem_append_right l ha)

/-- What follows the last access makes none. -/
theorem accesses_map {l : List Addr} {x : Access α} (f : α → β) (hx : AccessesAt s l x) :
    AccessesAt s l (x >>= fun v => .ok (f v)) := by
  simpa using accesses_bind hx fun v _ => accesses_ok s (f v)

/-- A second access at one address adds no condition. -/
theorem accesses_twice {a : Addr} {x : Access α} (hx : AccessesAt s [a, a] x) : AccessesAt s [a] x := by
  refine ⟨fun b hb => hx.1 b ?_, fun h => hx.2 ?_⟩
  · unfold FirstUnclaimed at hb ⊢
    simp only [List.find?_cons, List.find?_nil] at hb ⊢
    split <;> simp_all
  · simpa using h

end Compose

section Operations

variable (s : State)

theorem read_accesses (a : Addr) : AccessesAt s [a] (s.read a) := by
  constructor
  · intro b hb
    have hc := firstUnclaimed_claims hb
    obtain rfl := List.mem_singleton.mp (List.mem_of_find?_eq_some hb)
    exact (read_error s).mpr ⟨claims_false.mp hc, rfl⟩
  · intro h
    obtain ⟨t, ht⟩ := claims_true.mp (h a (List.mem_singleton.mpr rfl))
    exact ⟨_, read_of_target s ht⟩

theorem peek_accesses (a : Addr) : AccessesAt s [a] (s.peek a) := read_accesses s a

theorem write_accesses (a : Addr) (v : Byte) : AccessesAt s [a] (s.write a v) := by
  constructor
  · intro b hb
    have hc := firstUnclaimed_claims hb
    obtain rfl := List.mem_singleton.mp (List.mem_of_find?_eq_some hb)
    exact (write_error s).mpr ⟨claims_false.mp hc, rfl⟩
  · intro h
    obtain ⟨t, ht⟩ := claims_true.mp (h a (List.mem_singleton.mpr rfl))
    exact ⟨_, write_of_target s ht v⟩

theorem readWord_accesses (a : Addr) : AccessesAt s [a, a + 1] (s.readWord a) :=
  accesses_bind (l := [a]) (read_accesses s a) fun _ _ => accesses_map _ (read_accesses s _)

/-- Consecutive reads (rule R101). -/
theorem readBytes_accesses (n : Nat) (a : Addr) :
    AccessesAt s ((List.range n).map fun k => a + BitVec.ofNat 16 k) (s.readBytes a n) := by
  induction n generalizing a with
  | zero => exact accesses_ok s []
  | succ n ih =>
    have e : ((List.range (n + 1)).map fun k => a + BitVec.ofNat 16 k) =
        [a] ++ (List.range n).map fun k => a + 1 + BitVec.ofNat 16 k := by
      rw [List.range_succ_eq_map]
      simp only [List.map_cons, List.map_map, List.singleton_append, List.cons.injEq]
      refine ⟨by bv_omega, List.map_congr_left fun k _ => ?_⟩
      apply BitVec.eq_of_toNat_eq
      simp [BitVec.toNat_add]
      omega
    rw [e]
    exact accesses_bind (read_accesses s a) fun _ _ => accesses_map _ (ih (a + 1))

/-- Reading an instruction with Peek: its bytes in order, as many as the opcode byte asks for (rule R107). -/
theorem peekInstr_accesses {a : Addr} {op : Byte} (h : s.peek a = .ok op) :
    AccessesAt s ((List.range (formatOf op).length).map fun k => a + BitVec.ofNat 16 k) (s.peekInstr a) := by
  have done : ∀ b1 b2, AccessesAt s [] (match instrOf op b1 b2 with
      | .ok i => (.ok i : Access Instr)
      | .error _ => .ok (.undoc op)) := by
    intro b1 b2
    obtain ⟨i, hi, -⟩ := instrOf_ok op b1 b2
    rw [hi]
    exact accesses_ok s i
  have e : a + BitVec.ofNat 16 0 = a := by bv_omega
  have hl := mode_length_pos (formatOf op)
  unfold State.peekInstr
  rw [h]
  simp only [access_ok_bind]
  have h0 : AccessesAt s [a] (s.peek a) := peek_accesses s a
  generalize (formatOf op).length = n at *
  obtain rfl | rfl | rfl : n = 1 ∨ n = 2 ∨ n = 3 := by omega
  · show AccessesAt s ([a + BitVec.ofNat 16 0] ++ []) (Except.ok op >>= fun _ => _)
    rw [e]
    exact accesses_bind (h ▸ h0) fun _ _ => done 0 0
  · show AccessesAt s ([a + BitVec.ofNat 16 0] ++ ([a + 1] ++ [])) (Except.ok op >>= fun _ => _)
    rw [e]
    exact accesses_bind (h ▸ h0) fun _ _ => accesses_bind (peek_accesses s (a + 1)) fun b1 _ => done b1 0
  · show AccessesAt s ([a + BitVec.ofNat 16 0] ++ ([a + 1] ++ ([a + 2] ++ []))) (Except.ok op >>= fun _ => _)
    rw [e]
    exact accesses_bind (h ▸ h0) fun _ _ => accesses_bind (peek_accesses s (a + 1)) fun b1 _ =>
      accesses_bind (peek_accesses s (a + 2)) fun b2 _ => done b1 b2

/-! The stack (rule R180). -/

theorem pushAddr_zero (sp : Byte) : stackAddr sp = pushAddr sp 0 := by
  rw [stackAddr_eq, pushAddr, show sp - BitVec.ofNat 8 0 = sp by bv_omega]

theorem pushAddr_succ (sp : Byte) (n : Nat) : pushAddr (sp - 1) n = pushAddr sp (n + 1) := by
  have e : sp - 1 - BitVec.ofNat 8 n = sp - BitVec.ofNat 8 (n + 1) := by
    rw [BitVec.ofNat_add]
    bv_omega
  rw [pushAddr, e, pushAddr]

theorem pullAddr_one (sp : Byte) : stackAddr (sp + 1) = pullAddr sp 1 := stackAddr_eq _

theorem pullAddr_succ (sp : Byte) (n : Nat) : pullAddr (sp + 1) n = pullAddr sp (n + 1) := by
  have e : sp + 1 + BitVec.ofNat 8 n = sp + BitVec.ofNat 8 (n + 1) := by
    rw [BitVec.ofNat_add]
    bv_omega
  rw [pullAddr, e, pullAddr]

/-- A push moves SP and leaves the wiring. -/
theorem push_frame {s t : State} {v : Byte} (h : s.push v = .ok t) : t.sp = s.sp - 1 ∧ t.cfg = s.cfg := by
  obtain ⟨w, hw, rfl⟩ := push_ok.mp h
  obtain ⟨_, _, _, rfl⟩ := write_eq hw
  exact ⟨rfl, rfl⟩

theorem push_accesses (v : Byte) : AccessesAt s [pushAddr s.sp 0] (s.push v) := by
  rw [← pushAddr_zero]
  exact accesses_map _ (write_accesses s _ v)

theorem pull_accesses : AccessesAt s [pullAddr s.sp 1] s.pull := by
  rw [← pullAddr_one]
  exact accesses_map _ (read_accesses s _)

theorem pushWord_accesses (w : Addr) : AccessesAt s [pushAddr s.sp 0, pushAddr s.sp 1] (s.pushWord w) :=
  accesses_bind (l := [pushAddr s.sp 0]) (push_accesses s _) fun t ht => by
    obtain ⟨hsp, hcfg⟩ := push_frame ht
    have := push_accesses t (loByte w)
    rw [hsp, pushAddr_succ] at this
    exact accesses_congr hcfg this

theorem pullWord_accesses : AccessesAt s [pullAddr s.sp 1, pullAddr s.sp 2] s.pullWord :=
  accesses_bind (l := [pullAddr s.sp 1]) (pull_accesses s) fun r hr => by
    obtain ⟨v, -, rfl⟩ := pull_ok.mp hr
    have := pull_accesses (s.setSp (s.sp + 1))
    rw [State.setSp_sp, pullAddr_succ] at this
    exact accesses_congr rfl (accesses_map (fun q : Byte × State => (wordOf v q.1, q.2)) this)

/-- Trap entry (rule R256): three pushes, then the two bytes of the vector. -/
theorem trapEntry_accesses (ret : Addr) (status : Byte) (vector : Addr) :
    AccessesAt s (trapAddresses s.sp vector) (trapEntry ret status vector s) :=
  accesses_bind (l := [pushAddr s.sp 0, pushAddr s.sp 1]) (pushWord_accesses s ret) fun t ht => by
    obtain ⟨u, hu, ht⟩ := pushWord_ok.mp ht
    obtain ⟨hsp, hcfg⟩ := push_frame hu
    obtain ⟨hsp2, hcfg2⟩ := push_frame ht
    have hp := push_accesses t status
    rw [hsp2, hsp, pushAddr_succ, pushAddr_succ] at hp
    refine accesses_bind (l := [pushAddr s.sp 2]) (accesses_congr (hcfg2.trans hcfg) hp) fun w hw => ?_
    exact accesses_congr ((push_frame hw).2.trans (hcfg2.trans hcfg)) (accesses_map _ (readWord_accesses _ vector))

/-- Trap return (rule R187): three pulls. -/
theorem trapReturn_accesses :
    AccessesAt s [pullAddr s.sp 1, pullAddr s.sp 2, pullAddr s.sp 3] (trapReturn s) :=
  accesses_bind (l := [pullAddr s.sp 1]) (pull_accesses s) fun r hr => by
    obtain ⟨v, -, rfl⟩ := pull_ok.mp hr
    have := pullWord_accesses ((s.setSp (s.sp + 1)).setP (pulledStatus v))
    rw [State.setP_sp, State.setSp_sp, pullAddr_succ, pullAddr_succ] at this
    exact accesses_congr rfl (accesses_map (fun q : Addr × State => q.2.setPc q.1) this)

/-! Addressing modes, operand and write-back (rules R130 to R133). -/

theorem effective_accesses (m : Operand) : AccessesAt s (pointerAddresses s m) (effective m s) := by
  have sum (a b : Byte) : zeroPage (a + b) = BitVec.ofNat 16 ((a.toNat + b.toNat) % 256) := by
    apply BitVec.eq_of_toNat_eq
    rw [zeroPage_toNat, BitVec.toNat_add, BitVec.toNat_ofNat]
    omega
  have zp (p : Byte) : AccessesAt s [zeroPage p, zeroPage (p + 1)] (s.readZeroPageWord p) :=
    accesses_bind (l := [zeroPage p]) (read_accesses s _) fun _ _ => accesses_map _ (read_accesses s _)
  cases m with
  | ind ptr =>
    have e : (if ptr.toNat % 256 = 255 then ptr - 255 else ptr + 1) =
        if loByte ptr = 0xFF then wordOf 0x00 (hiByte ptr) else ptr + 1 := by
      have hlo : loByte ptr = 0xFF ↔ ptr.toNat % 256 = 255 := by
        rw [BitVec.toNat_eq, loByte_toNat]
        rfl
      simp only [hlo]
      split
      · apply BitVec.eq_of_toNat_eq
        rw [wordOf_toNat, hiByte_toNat]
        have h := ptr.isLt
        rw [BitVec.toNat_sub]
        change (65536 - 255 + ptr.toNat) % 65536 = ptr.toNat / 256 * 256 + 0
        omega
      · rfl
    rw [pointerAddresses, e]
    exact accesses_map _ (accesses_bind (l := [ptr]) (read_accesses s ptr) fun _ _ =>
      accesses_map _ (read_accesses s _))
  | izx b =>
    have e : BitVec.ofNat 16 ((b.toNat + s.x.toNat + 1) % 256) = zeroPage (b + s.x + 1) := by
      rw [sum, BitVec.toNat_add]
      congr 1
      exact (Nat.mod_add_mod _ 256 1).symm
    rw [pointerAddresses, e, ← sum]
    exact accesses_map _ (zp _)
  | izy b =>
    have e : BitVec.ofNat 16 b.toNat = zeroPage b := by
      apply BitVec.eq_of_toNat_eq
      rw [zeroPage_toNat, BitVec.toNat_ofNat]
      omega
    have e1 : BitVec.ofNat 16 ((b.toNat + 1) % 256) = zeroPage (b + 1) := (sum b 1).symm
    rw [pointerAddresses, e, e1]
    exact accesses_map _ (zp b)
  | _ => exact accesses_ok s _

/-- The accesses of `operand()`: none in accumulator and immediate form, else one. -/
theorem operandByte_accesses (m : Operand) (ea : Ea) :
    AccessesAt s (if m.mode ∈ [.imp, .imm] then [] else [ea.addr]) (operandByte m ea s) := by
  cases m <;> first | exact accesses_ok s _ | exact read_accesses s _

/-- The accesses of `writeback(v)`: none in accumulator form, else one. -/
theorem writeback_accesses (m : Operand) (ea : Ea) (v : Byte) :
    AccessesAt s (if m.mode = .imp then [] else [ea.addr]) (writeback m ea v s) := by
  cases m <;> first | exact accesses_ok s _ | exact write_accesses s _ v

/-- The fetch (rule R103): the opcode byte, then the operand bytes of its format. -/
theorem fetch_accesses {op : Byte} (h : s.read s.pc = .ok op) :
    AccessesAt s ((List.range (formatOf op).length).map fun k => s.pc + BitVec.ofNat 16 k) s.fetch := by
  have hl := (mode_length_pos (formatOf op)).1
  have hb := readBytes_accesses s ((formatOf op).length - 1 + 1) s.pc
  rw [Nat.sub_add_cancel hl] at hb
  have e : s.fetch = s.readBytes s.pc (formatOf op).length := by
    rw [← Nat.sub_add_cancel hl]
    simp [State.fetch, State.readBytes, h]
  rw [e]
  exact hb

end Operations

/-- An instruction makes the accesses of its addressing mode and then those of the list `l`: it ends in BusAbort of the
first that no device claims, and in a next state where all are claimed. -/
def RunsOver (s : State) (i : Instr) (l : Ea → List Addr) (x : Outcome) : Prop :=
  (∀ a, FirstUnclaimed s (pointerAddresses s i.operand) a → x = .fault (.busAbort a)) ∧
  ((∀ a ∈ pointerAddresses s i.operand, s.claims a = true) → ∃ ea, AddressIs i s ea ∧
    (∀ a, FirstUnclaimed s (l ea) a → x = .fault (.busAbort a)) ∧
    ((∀ a ∈ l ea, s.claims a = true) → ∃ t, x = .next t))

/-- There is no third way to end. -/
theorem RunsOver.next_or_abort {s : State} {i : Instr} {l : Ea → List Addr} {x : Outcome} (h : RunsOver s i l x) :
    (∃ t, x = .next t) ∨ ∃ a, x = .fault (.busAbort a) ∧ s.claims a = false := by
  rcases firstUnclaimed_or s (pointerAddresses s i.operand) with ⟨a, ha⟩ | hp
  · exact .inr ⟨a, h.1 a ha, firstUnclaimed_claims ha⟩
  · obtain ⟨ea, -, hfault, hnext⟩ := h.2 hp
    rcases firstUnclaimed_or s (l ea) with ⟨a, ha⟩ | hl
    · exact .inr ⟨a, hfault a ha, firstUnclaimed_claims ha⟩
    · exact .inl (hnext hl)

section Shapes

variable {i : Instr} {mn : Mnemonic} {s : State}

/-- A documented instruction makes the accesses of its operation. -/
theorem execute_accesses {operation : Ea → State → Access State} {l : Ea → List Addr}
    (hi : i.opcode = opcodeOf mn i.operand.mode) (hwf : i.operand.mode ∈ mn.modes) (hne : mn ≠ .undoc)
    (hop : ∀ ea, AccessesAt (s.after i 0) (l ea) (operation ea (s.after i 0))) :
    RunsOver s i l (execute mn i.operand operation s) := by
  obtain ⟨op, ho⟩ := opcodeOf_of_mode hne hwf
  have e := enter_eq_after s (hi.trans ho)
  have hea : AccessesAt s (pointerAddresses s i.operand) (effective i.operand (s.after i 0)) := by
    have hp : pointerAddresses (s.after i 0) i.operand = pointerAddresses s i.operand := by
      cases i.operand <;> rfl
    exact hp ▸ accesses_congr (s := s) (t := s.after i 0) rfl (effective_accesses (s.after i 0) i.operand)
  have hop' := fun ea => accesses_congr (s := s) rfl (hop ea)
  refine ⟨fun a ha => ?_, fun h => ?_⟩
  · simp [execute, ho, runOperation, e, hea.1 a ha, conclude]
  · obtain ⟨ea, hok⟩ := hea.2 h
    refine ⟨ea, hok, fun a ha => ?_, fun hl => ?_⟩
    · simp [execute, ho, runOperation, e, hok, (hop' ea).1 a ha, conclude]
    · obtain ⟨t, ht⟩ := (hop' ea).2 hl
      exact ⟨_, execute_after hi hwf hne hok ht⟩

/-- A read instruction reads its operand. -/
theorem executeRead_accesses {operation : Byte → State → State} (hi : i.opcode = opcodeOf mn i.operand.mode)
    (hwf : i.operand.mode ∈ mn.modes) (hne : mn ≠ .undoc) :
    RunsOver s i (fun ea => if i.operand.mode ∈ [.imp, .imm] then [] else [ea.addr])
      (executeRead mn i.operand operation s) :=
  execute_accesses hi hwf hne fun ea => accesses_map _ (operandByte_accesses _ i.operand ea)

/-- A read-modify-write instruction reads and writes one address, none in accumulator form. -/
theorem executeModify_accesses {result status : Byte → Byte → Byte} (hi : i.opcode = opcodeOf mn i.operand.mode)
    (hwf : i.operand.mode ∈ mn.modes) (hne : mn ≠ .undoc) (himm : i.operand.mode ≠ .imm) :
    RunsOver s i (fun ea => if i.operand.mode ∈ [.imp, .imm] then [] else [ea.addr])
      (executeModify mn i.operand result status s) := by
  refine execute_accesses hi hwf hne fun ea => ?_
  have h := accesses_bind (operandByte_accesses (s.after i 0) i.operand ea) fun v _ =>
    accesses_congr rfl (writeback_accesses ((s.after i 0).setP (status (s.after i 0).p v)) i.operand ea
      (result (s.after i 0).p v))
  by_cases himp : i.operand.mode = .imp
  · simpa [himp] using h
  · simp only [himp, himm, List.mem_cons, List.not_mem_nil, or_self, if_false] at h ⊢
    exact accesses_twice h

/-- A store writes one address. -/
theorem executeStore_accesses {register : State → Byte} (hi : i.opcode = opcodeOf mn i.operand.mode)
    (hwf : i.operand.mode ∈ mn.modes) (hne : mn ≠ .undoc) :
    RunsOver s i (fun ea => [ea.addr]) (executeStore mn i.operand register s) :=
  execute_accesses hi hwf hne fun ea => write_accesses _ ea.addr _

end Shapes

end Sys2Proof.Machine
end

