-- ==== Sys2Proof/Laws/Cartridge.lean ====
section
/-! SUPPORT. Which configurations a machine is built from, and what a bank-select register starts at. -/

namespace Sys2Proof.Machine

/-- The checks of `buildMachine` are the legality of Safety.lean (rules R3, R48, R52, R65, R71). -/
theorem firstConfigError_none {cfg : Config} : firstConfigError cfg = none ↔ configLegal cfg := by
  have hw : chrWindowError cfg = none ↔
      cfg.chrWindowStop = cfg.chrWindowStart + 0x1FFF ∧ cfg.chrWindowStop ≤ 0xFFFF := by
    unfold chrWindowError
    split
    · simp
      omega
    · split <;> simp <;> omega
  have ht : cycleTableError cfg = none ↔ cfg.cycleTable.length = 256 ∧ ∀ n ∈ cfg.cycleTable, 1 ≤ n := by
    unfold cycleTableError
    split <;> simp_all
  rw [firstConfigError, List.findSome?_eq_none_iff]
  simp only [List.mem_cons, List.not_mem_nil, or_false, forall_eq_or_imp, forall_eq, id, hw, ht, configLegal]
  tauto

/-- A machine is built exactly from a legal configuration (rules R48 and R284). -/
theorem buildMachine_ok {cfg : Config} (cart : Cartridge) (ramInit chrRamInit : Memory) (before : Unspecified) :
    (∃ s, buildMachine cfg cart ramInit chrRamInit before = .ok s) ↔ configLegal cfg := by
  rw [← firstConfigError_none, buildMachine]
  cases firstConfigError cfg <;> simp

/-- BANK_RESET is kept where it names a present bank (rule R62). -/
theorem bankAtLoad_of_lt {bankReset banks : Nat} (h : bankReset < banks) : bankAtLoad bankReset banks = bankReset :=
  if_pos h

/-- The register starts at a present bank, at 0 where there is none (rule R23). -/
theorem bankAtLoad_le (bankReset banks : Nat) : bankAtLoad bankReset banks ≤ banks - 1 := by
  unfold bankAtLoad
  split
  · omega
  · exact bankMask_le _ _

end Sys2Proof.Machine
end

