-- ==== Sys2Proof/Laws/PerInstr.lean ====
section
/-! SUPPORT. Per-instruction statements over the syntax: the encoding of every well-formed instruction is as long as its
format says (rules R100 and R101). -/

namespace Sys2Proof.Laws.EncodingLength

/-- The encoding of an instruction has the length its format says. -/
def Statement (i : Instr) : Prop := WellFormed i → (encode i).length = i.length

theorem adc (m : Operand) : Statement (.adc m) := encode_length
theorem sbc (m : Operand) : Statement (.sbc m) := encode_length
theorem asl (m : Operand) : Statement (.asl m) := encode_length
theorem lsr (m : Operand) : Statement (.lsr m) := encode_length
theorem rol (m : Operand) : Statement (.rol m) := encode_length
theorem ror (m : Operand) : Statement (.ror m) := encode_length
theorem cmp (m : Operand) : Statement (.cmp m) := encode_length
theorem cpx (m : Operand) : Statement (.cpx m) := encode_length
theorem cpy (m : Operand) : Statement (.cpy m) := encode_length
theorem bcc (rel8 : Byte) : Statement (.bcc rel8) := encode_length
theorem bcs (rel8 : Byte) : Statement (.bcs rel8) := encode_length
theorem beq (rel8 : Byte) : Statement (.beq rel8) := encode_length
theorem bmi (rel8 : Byte) : Statement (.bmi rel8) := encode_length
theorem bne (rel8 : Byte) : Statement (.bne rel8) := encode_length
theorem bpl (rel8 : Byte) : Statement (.bpl rel8) := encode_length
theorem bvc (rel8 : Byte) : Statement (.bvc rel8) := encode_length
theorem bvs (rel8 : Byte) : Statement (.bvs rel8) := encode_length
theorem pha : Statement .pha := encode_length
theorem php : Statement .php := encode_length
theorem pla : Statement .pla := encode_length
theorem plp : Statement .plp := encode_length
theorem jsr (target : Addr) : Statement (.jsr target) := encode_length
theorem rts : Statement .rts := encode_length
theorem rti : Statement .rti := encode_length
theorem brk : Statement .brk := encode_length
theorem jmp (m : Operand) : Statement (.jmp m) := encode_length
theorem lda (m : Operand) : Statement (.lda m) := encode_length
theorem ldx (m : Operand) : Statement (.ldx m) := encode_length
theorem ldy (m : Operand) : Statement (.ldy m) := encode_length
theorem sta (m : Operand) : Statement (.sta m) := encode_length
theorem stx (m : Operand) : Statement (.stx m) := encode_length
theorem sty (m : Operand) : Statement (.sty m) := encode_length
theorem tax : Statement .tax := encode_length
theorem tay : Statement .tay := encode_length
theorem tsx : Statement .tsx := encode_length
theorem txa : Statement .txa := encode_length
theorem txs : Statement .txs := encode_length
theorem tya : Statement .tya := encode_length
theorem inc (m : Operand) : Statement (.inc m) := encode_length
theorem inx : Statement .inx := encode_length
theorem iny : Statement .iny := encode_length
theorem dec (m : Operand) : Statement (.dec m) := encode_length
theorem dex : Statement .dex := encode_length
theorem dey : Statement .dey := encode_length
theorem clc : Statement .clc := encode_length
theorem cld : Statement .cld := encode_length
theorem cli : Statement .cli := encode_length
theorem clv : Statement .clv := encode_length
theorem sec : Statement .sec := encode_length
theorem sed : Statement .sed := encode_length
theorem sei : Statement .sei := encode_length
theorem and (m : Operand) : Statement (.and m) := encode_length
theorem ora (m : Operand) : Statement (.ora m) := encode_length
theorem eor (m : Operand) : Statement (.eor m) := encode_length
theorem bit (m : Operand) : Statement (.bit m) := encode_length
theorem nop : Statement .nop := encode_length
theorem undoc (op : Byte) : Statement (.undoc op) := encode_length

end Sys2Proof.Laws.EncodingLength
end

