-- ==== Sys2Proof/Laws/Shapes.lean ====
section
/-! SUPPORT. What each shape of meaning can answer when it answers a next state: an inversion lemma for the read,
read-modify-write, store, implied and branch shapes, for the stack and for the traps. Frame and invariant proofs take
an instruction apart with these instead of unfolding it. -/

namespace Sys2Proof.Machine

/-- What a push writes: one bus write at the stack location, and SP. -/
theorem push_next {s t : State} {v : Byte} (h : s.push v = .ok t) :
    ∃ w, s.write (stackAddr s.sp) v = .ok w ∧
      t = { s with sp := s.sp - 1, mem := w.mem, prgBank := w.prgBank, chrBank := w.chrBank } := by
  obtain ⟨w, hw, rfl⟩ := push_ok.mp h
  obtain ⟨m, n, k, rfl⟩ := write_eq hw
  exact ⟨_, hw, rfl⟩

/-- A read instruction that completes read its operand and changed what its operation changes. -/
theorem executeRead_inv {mn : Mnemonic} {m : Operand} {operation : Byte → State → State} {s u : State}
    (h : executeRead mn m operation s = .next u) :
    ∃ op ea v, opcodeOf mn m.mode = some op ∧ effective m (s.enter op m.mode) = .ok ea ∧
      operandByte m ea (s.enter op m.mode) = .ok v ∧
      u = (operation v (s.enter op m.mode)).addCycles (extraCycles s.cfg mn ea.crossed) := by
  obtain ⟨op, ea, t, hop, hea, ht, rfl⟩ := execute_eq_next h
  obtain ⟨v, hv, ht⟩ := access_bind_ok.mp ht
  cases ht
  exact ⟨op, ea, v, hop, hea, hv, rfl⟩

/-- A read-modify-write instruction that completes wrote A and P, or P and one bus location. -/
theorem executeModify_inv {mn : Mnemonic} {m : Operand} {result status : Byte → Byte → Byte} {s u : State}
    (h : executeModify mn m result status s = .next u) :
    ∃ op ea v, opcodeOf mn m.mode = some op ∧ effective m (s.enter op m.mode) = .ok ea ∧
      operandByte m ea (s.enter op m.mode) = .ok v ∧
      ((m = .imp ∧ u = (((s.enter op m.mode).setP (status (putFlag s.p .u true) v)).setA
          (result (putFlag s.p .u true) v)).addCycles (extraCycles s.cfg mn ea.crossed)) ∨
        (m ≠ .imp ∧ ∃ w, ((s.enter op m.mode).setP (status (putFlag s.p .u true) v)).write ea.addr
            (result (putFlag s.p .u true) v) = .ok w ∧
          u = w.addCycles (extraCycles s.cfg mn ea.crossed))) := by
  obtain ⟨op, ea, t, hop, hea, ht, rfl⟩ := execute_eq_next h
  obtain ⟨v, hv, ht⟩ := access_bind_ok.mp ht
  refine ⟨op, ea, v, hop, hea, hv, ?_⟩
  rcases writeback_ok ht with ⟨hm, rfl⟩ | ⟨hm, hw⟩
  · exact .inl ⟨hm, rfl⟩
  · exact .inr ⟨hm, t, hw, rfl⟩

/-- A store that completes wrote one bus location. -/
theorem executeStore_inv {mn : Mnemonic} {m : Operand} {register : State → Byte} {s u : State}
    (h : executeStore mn m register s = .next u) :
    ∃ op ea w, opcodeOf mn m.mode = some op ∧ effective m (s.enter op m.mode) = .ok ea ∧
      (s.enter op m.mode).write ea.addr (register (s.enter op m.mode)) = .ok w ∧
      u = w.addCycles (extraCycles s.cfg mn ea.crossed) := by
  obtain ⟨op, ea, t, hop, hea, ht, rfl⟩ := execute_eq_next h
  exact ⟨op, ea, t, hop, hea, ht, rfl⟩

/-- An instruction of format IMP without a bus access changes what its operation changes. -/
theorem executeImplied_inv {mn : Mnemonic} {operation : State → State} {s u : State}
    (h : executeImplied mn operation s = .next u) :
    ∃ op, opcodeOf mn .imp = some op ∧ u = operation (s.enter op .imp) := by
  obtain ⟨op, ea, t, hop, hea, ht, rfl⟩ := execute_eq_next h
  cases hea
  cases ht
  exact ⟨op, hop, by simp [State.addCycles, State.setCycles, extraCycles, Operand.mode]⟩

/-- A branch writes PC and the counter only. -/
theorem executeBranch_inv {mn : Mnemonic} {rel8 : Byte} {condition : State → Bool} {s u : State}
    (h : executeBranch mn rel8 condition s = .next u) :
    ∃ op, opcodeOf mn .rel = some op ∧
      u = takeBranch (condition (s.enter op .rel)) rel8 (s.enter op .rel) := by
  obtain ⟨op, ea, t, hop, hea, ht, rfl⟩ := execute_eq_next h
  cases hea
  cases ht
  exact ⟨op, hop, by simp [State.addCycles, State.setCycles, extraCycles, Operand.mode]⟩

/-- What `takeBranch` changes. -/
theorem takeBranch_eq (condition : Bool) (rel8 : Byte) (t : State) :
    ∃ pc n, takeBranch condition rel8 t = { t with pc := pc, cycles := n } := by
  unfold takeBranch
  split
  · exact ⟨_, _, rfl⟩
  · exact ⟨_, _, rfl⟩

/-- Two pushes write two bus locations and SP. -/
theorem pushWord_next {s t : State} {w : Addr} (h : s.pushWord w = .ok t) :
    ∃ u, s.push (hiByte w) = .ok u ∧ u.push (loByte w) = .ok t ∧ u.sp = s.sp - 1 ∧
      ∃ m n k, t = { s with sp := s.sp - 1 - 1, mem := m, prgBank := n, chrBank := k } := by
  obtain ⟨u, hu, ht⟩ := pushWord_ok.mp h
  obtain ⟨a, -, rfl⟩ := push_next hu
  obtain ⟨b, -, hb⟩ := push_next ht
  exact ⟨_, hu, ht, rfl, _, _, _, hb⟩

/-- Trap entry (rule R256) writes three bus locations, SP, I and PC. -/
theorem trapEntry_next {s t : State} {ret vector : Addr} {status : Byte} (h : trapEntry ret status vector s = .ok t) :
    ∃ u w, s.pushWord ret = .ok u ∧ u.push status = .ok w ∧
      ∃ m n k pc, t = { s with
        sp := s.sp - 1 - 1 - 1, mem := m, prgBank := n, chrBank := k, p := putFlag s.p .i true, pc := pc } ∧
      w.mem = m ∧ w.prgBank = n ∧ w.chrBank = k := by
  obtain ⟨u, w, target, hu, hw, -, rfl⟩ := trapEntry_ok.mp h
  obtain ⟨-, -, -, -, m, n, k, rfl⟩ := pushWord_next hu
  obtain ⟨b, -, rfl⟩ := push_next hw
  exact ⟨_, _, hu, hw, _, _, _, _, rfl, rfl, rfl, rfl⟩

/-- Trap return (rule R187) writes P, SP and PC. -/
theorem trapReturn_next {s t : State} (h : trapReturn s = .ok t) :
    ∃ p pc, t = { s with sp := s.sp + 1 + 1 + 1, p := pulledStatus p, pc := pc } := by
  obtain ⟨v, lo, hi, -, -, -, rfl⟩ := trapReturn_ok.mp h
  exact ⟨v, _, rfl⟩

/-! The stack and control instructions one by one. -/

/-- The fallback (rule R245) that completes had no effect. -/
theorem execUndoc_inv {op : Byte} {s t : State} (h : execUndoc op s = .next t) :
    opcodeEntry op = none ∧ t = s.enter op .imp := by
  unfold execUndoc at h
  split at h
  · cases h
    exact ⟨‹_›, rfl⟩
  · cases h

/-- PHA (rule R181) that completes is one push of A. -/
theorem execPha_inv {s t : State} (h : execPha s = .next t) : ∃ w, (s.enter 0x48 .imp).push s.a = .ok w ∧ t = w := by
  obtain ⟨op, ea, w, hop, hea, ht, rfl⟩ := execute_eq_next h
  cases hea
  cases hop
  exact ⟨w, ht, by simp [State.addCycles, State.setCycles, extraCycles]⟩

/-- PHP (rule R182) that completes is one push of P with B and U set. -/
theorem execPhp_inv {s t : State} (h : execPhp s = .next t) :
    ∃ w, (s.enter 0x08 .imp).push (pushedByProgram (putFlag s.p .u true)) = .ok w ∧ t = w := by
  obtain ⟨op, ea, w, hop, hea, ht, rfl⟩ := execute_eq_next h
  cases hea
  cases hop
  exact ⟨w, ht, by simp [State.addCycles, State.setCycles, extraCycles]⟩

/-- PLA (rule R183) writes A, SP and P. -/
theorem execPla_inv {s t : State} (h : execPla s = .next t) :
    ∃ v, t = { s.enter 0x68 .imp with sp := s.sp + 1, a := v, p := setZN (putFlag s.p .u true) v } := by
  obtain ⟨op, ea, w, hop, hea, ht, rfl⟩ := execute_eq_next h
  cases hea
  cases hop
  obtain ⟨r, hr, ht⟩ := access_bind_ok.mp ht
  obtain ⟨v, -, rfl⟩ := pull_ok.mp hr
  cases ht
  exact ⟨v, rfl⟩

/-- PLP (rule R184) writes SP and P. -/
theorem execPlp_inv {s t : State} (h : execPlp s = .next t) :
    ∃ v, t = { s.enter 0x28 .imp with sp := s.sp + 1, p := pulledStatus v } := by
  obtain ⟨op, ea, w, hop, hea, ht, rfl⟩ := execute_eq_next h
  cases hea
  cases hop
  obtain ⟨r, hr, ht⟩ := access_bind_ok.mp ht
  obtain ⟨v, -, rfl⟩ := pull_ok.mp hr
  cases ht
  exact ⟨v, rfl⟩

/-- JSR (rule R185) pushes its address + 2 and writes PC. -/
theorem execJsr_inv {s t : State} {a : Addr} (h : execJsr a s = .next t) :
    ∃ u, (s.enter 0x20 .abs).pushWord (s.pc + 2) = .ok u ∧ t = u.setPc a := by
  obtain ⟨op, ea, w, hop, hea, ht, rfl⟩ := execute_eq_next h
  cases hea
  cases hop
  obtain ⟨u, hu, ht⟩ := access_bind_ok.mp ht
  cases ht
  refine ⟨u, ?_, rfl⟩
  have e : (s.enter 0x20 .abs).pc - 1 = s.pc + 2 := by
    simp [Mode.length]
    bv_omega
  rw [← e]
  exact hu

/-- RTS (rule R186) writes SP and PC. -/
theorem execRts_inv {s t : State} (h : execRts s = .next t) :
    ∃ w, t = { s.enter 0x60 .imp with sp := s.sp + 1 + 1, pc := w } := by
  obtain ⟨op, ea, w, hop, hea, ht, rfl⟩ := execute_eq_next h
  cases hea
  cases hop
  obtain ⟨r, hr, ht⟩ := access_bind_ok.mp ht
  obtain ⟨lo, hi, -, -, rfl⟩ := pullWord_ok.mp hr
  cases ht
  exact ⟨wordOf lo hi + 1, rfl⟩

/-- RTI (rule R187) writes SP, P and PC. -/
theorem execRti_inv {s t : State} (h : execRti s = .next t) :
    ∃ p pc, t = { s.enter 0x40 .imp with sp := s.sp + 1 + 1 + 1, p := pulledStatus p, pc := pc } := by
  obtain ⟨op, ea, w, hop, hea, ht, rfl⟩ := execute_eq_next h
  cases hea
  cases hop
  obtain ⟨p, pc, rfl⟩ := trapReturn_next ht
  exact ⟨p, pc, by simp [State.addCycles, State.setCycles, extraCycles]⟩

/-- BRK (rule R188) is a trap entry. -/
theorem execBrk_inv {s t : State} (h : execBrk s = .next t) :
    trapEntry (s.pc + 2) (pushedByProgram (putFlag s.p .u true)) irqVector (s.enter 0x00 .imp) = .ok t := by
  obtain ⟨op, ea, w, hop, hea, ht, rfl⟩ := execute_eq_next h
  cases hea
  cases hop
  have e : (s.enter 0x00 .imp).pc + 1 = s.pc + 2 := by
    simp [Mode.length]
    bv_omega
  rw [← e]
  simp [State.addCycles, State.setCycles, extraCycles]
  exact ht

/-- JMP (rule R189) writes PC. -/
theorem execJmp_inv {s t : State} {m : Operand} (h : execJmp m s = .next t) :
    ∃ op a n, opcodeOf .jmp m.mode = some op ∧ t = { s.enter op m.mode with pc := a, cycles := n } := by
  obtain ⟨op, ea, w, hop, hea, ht, rfl⟩ := execute_eq_next h
  cases ht
  exact ⟨op, ea.addr, _, hop, rfl⟩

end Sys2Proof.Machine
end

