-- ==== Sys2Proof/Laws/Step.lean ====
section
/-! SUPPORT. Fetching an instruction, the one refused decode that cannot happen, and the state after reset. -/

namespace Sys2Proof.Machine

/-- Bytes that stand at consecutive addresses are read in order (rule R101). -/
theorem readBytes_ok {s : State} {bytes : List Byte} {a : Addr}
    (h : ∀ (k : Nat) (v : Byte), bytes[k]? = some v → s.read (a + BitVec.ofNat 16 k) = .ok v) :
    s.readBytes a bytes.length = .ok bytes := by
  induction bytes generalizing a with
  | nil => rfl
  | cons x rest ih =>
    have h0 : s.read a = .ok x := by
      have := h 0 x rfl
      rwa [show a + BitVec.ofNat 16 0 = a by bv_omega] at this
    have hrest : s.readBytes (a + 1) rest.length = .ok rest := ih fun k v hk => by
      have := h (k + 1) v (by simpa using hk)
      rwa [show a + BitVec.ofNat 16 (k + 1) = a + 1 + BitVec.ofNat 16 k by
        apply BitVec.eq_of_toNat_eq; simp [BitVec.toNat_add]; omega] at this
    simp only [List.length_cons, State.readBytes, h0, hrest, access_ok_bind]

/-- The fetch answers the bytes of the well-formed instruction that stands at PC (rules R100 and R103). -/
theorem fetch_ok {s : State} {i : Instr} (hw : WellFormed i)
    (h : ∀ (k : Nat) (v : Byte), (encode i)[k]? = some v → s.read (s.pc + BitVec.ofNat 16 k) = .ok v) :
    s.fetch = .ok (encode i) := by
  obtain ⟨op, hop, hf⟩ := opcode_of_wf hw
  have he : encode i = op :: i.operand.bytes := by simp [encode, hop]
  rw [he] at h ⊢
  have h0 : s.read s.pc = .ok op := by
    have := h 0 op rfl
    rwa [show s.pc + BitVec.ofNat 16 0 = s.pc by bv_omega] at this
  have hrest : s.readBytes (s.pc + 1) ((formatOf op).length - 1) = .ok i.operand.bytes := by
    have hl := bytes_length i.operand
    rw [show (formatOf op).length - 1 = i.operand.bytes.length by rw [hf]; omega]
    refine readBytes_ok fun k v hk => ?_
    have := h (k + 1) v (by simpa using hk)
    rwa [show s.pc + BitVec.ofNat 16 (k + 1) = s.pc + 1 + BitVec.ofNat 16 k by
      apply BitVec.eq_of_toNat_eq; simp [BitVec.toNat_add]; omega] at this
  simp only [State.fetch, h0, hrest, access_ok_bind]

/-- The memory of the state after reset is in its canonical form. -/
theorem reset_mem_wf : Memory.wf State.reset.mem = true := rfl

end Sys2Proof.Machine
end

