-- ==== Sys2Proof/Tests/Slice0.lean ====
section
/-! SUPPORT. Tests of single steps against the vectors of spec/95_test_vectors.md, the decoding of words written out
from the encodings of the instruction rules, ill-formed terms, and a witness for the hypotheses of every statement. -/

open Sys2Proof Sys2Proof.Machine

namespace Sys2Proof.Tests

/-! ## Well-formed and ill-formed terms -/

/-- STA has no immediate form (rule R204). -/
theorem test_wf_refuses_a_missing_mode : ¬WellFormed (.sta (.imm 0x00)) := by decide

/-- LDX is indexed by Y, not by X (rule R202). -/
theorem test_wf_refuses_the_wrong_index : ¬WellFormed (.ldx (.zpx 0x10)) := by decide

/-- A documented byte is no fallback (rule R105). -/
theorem test_wf_refuses_a_documented_fallback : ¬WellFormed (.undoc 0xEA) := by decide

theorem test_wf_accepts :
    WellFormed (.sta (.izy 0x40)) ∧ WellFormed (.undoc 0x02) ∧ WellFormed (.jmp (.ind 0x10FF)) := by decide

/-- An ill-formed term has no bytes and is refused, not executed (log entry 12). -/
theorem test_ill_formed_is_refused :
    encode (.sta (.imm 0x00)) = [] ∧ exec (.sta (.imm 0x00)) State.reset = .refused .illFormed ∧
      exec (.undoc 0xEA) State.reset = .refused .illFormed := ⟨by decide, rfl, rfl⟩

/-! ## Decoding: one written-out word per constructor, from the "Encodings" line of its rule -/

/-- The bytes are exactly one instruction. -/
def isCode (bytes : List Byte) (i : Instr) : Bool :=
  match decode bytes with
  | .ok (j, rest) => decide (j = i ∧ rest = [])
  | .error _ => false

theorem test_decode_arithmetic :
    isCode [0x69, 0x01] (.adc (.imm 0x01)) = true ∧ isCode [0x71, 0x86] (.adc (.izy 0x86)) = true ∧
    isCode [0xE5, 0x10] (.sbc (.zp0 0x10)) = true ∧
    isCode [0xF9, 0xF0, 0x12] (.sbc (.aby 0x12F0)) = true := by decide

theorem test_decode_shifts :
    isCode [0x0A] (.asl .imp) = true ∧ isCode [0x06, 0x10] (.asl (.zp0 0x10)) = true ∧
    isCode [0x5E, 0xF0, 0x12] (.lsr (.abx 0x12F0)) = true ∧ isCode [0x36, 0xF0] (.rol (.zpx 0xF0)) = true ∧
    isCode [0x6E, 0x00, 0x02] (.ror (.abs 0x0200)) = true := by decide

theorem test_decode_compares :
    isCode [0xC9, 0x10] (.cmp (.imm 0x10)) = true ∧ isCode [0xC1, 0x20] (.cmp (.izx 0x20)) = true ∧
    isCode [0xE4, 0x10] (.cpx (.zp0 0x10)) = true ∧
    isCode [0xCC, 0x34, 0x12] (.cpy (.abs 0x1234)) = true := by decide

theorem test_decode_branches :
    isCode [0x90, 0x04] (.bcc 0x04) = true ∧ isCode [0xB0, 0x7F] (.bcs 0x7F) = true ∧
    isCode [0xF0, 0x20] (.beq 0x20) = true ∧ isCode [0x30, 0x80] (.bmi 0x80) = true ∧
    isCode [0xD0, 0xFA] (.bne 0xFA) = true ∧ isCode [0x10, 0x80] (.bpl 0x80) = true ∧
    isCode [0x50, 0xFE] (.bvc 0xFE) = true ∧ isCode [0x70, 0x00] (.bvs 0x00) = true := by decide

theorem test_decode_stack_and_control :
    isCode [0x48] .pha = true ∧ isCode [0x08] .php = true ∧ isCode [0x68] .pla = true ∧ isCode [0x28] .plp = true ∧
    isCode [0x20, 0x00, 0x90] (.jsr 0x9000) = true ∧ isCode [0x60] .rts = true ∧ isCode [0x40] .rti = true ∧
    isCode [0x00] .brk = true ∧ isCode [0x4C, 0x34, 0x12] (.jmp (.abs 0x1234)) = true ∧
    isCode [0x6C, 0xFF, 0x10] (.jmp (.ind 0x10FF)) = true := by decide

theorem test_decode_loads_and_stores :
    isCode [0xA1, 0x20] (.lda (.izx 0x20)) = true ∧ isCode [0xB6, 0xFF] (.ldx (.zpy 0xFF)) = true ∧
    isCode [0xBC, 0xF0, 0x12] (.ldy (.abx 0x12F0)) = true ∧ isCode [0x91, 0x40] (.sta (.izy 0x40)) = true ∧
    isCode [0x96, 0x80] (.stx (.zpy 0x80)) = true ∧ isCode [0x94, 0x10] (.sty (.zpx 0x10)) = true := by decide

theorem test_decode_transfers :
    isCode [0xAA] .tax = true ∧ isCode [0xA8] .tay = true ∧ isCode [0xBA] .tsx = true ∧ isCode [0x8A] .txa = true ∧
    isCode [0x9A] .txs = true ∧ isCode [0x98] .tya = true := by decide

theorem test_decode_increments :
    isCode [0xFE, 0xF0, 0x12] (.inc (.abx 0x12F0)) = true ∧ isCode [0xE8] .inx = true ∧ isCode [0xC8] .iny = true ∧
    isCode [0xC6, 0x10] (.dec (.zp0 0x10)) = true ∧ isCode [0xCA] .dex = true ∧
    isCode [0x88] .dey = true := by decide

theorem test_decode_flag_instructions :
    isCode [0x18] .clc = true ∧ isCode [0xD8] .cld = true ∧ isCode [0x58] .cli = true ∧ isCode [0xB8] .clv = true ∧
    isCode [0x38] .sec = true ∧ isCode [0xF8] .sed = true ∧ isCode [0x78] .sei = true := by decide

theorem test_decode_logic :
    isCode [0x29, 0x0F] (.and (.imm 0x0F)) = true ∧ isCode [0x0D, 0x34, 0x12] (.ora (.abs 0x1234)) = true ∧
    isCode [0x55, 0x10] (.eor (.zpx 0x10)) = true ∧ isCode [0x2C, 0x34, 0x12] (.bit (.abs 0x1234)) = true ∧
    isCode [0xEA] .nop = true ∧ isCode [0x02] (.undoc 0x02) = true := by decide

/-- A cut instruction does not decode, and no byte is borrowed from elsewhere. -/
theorem test_decode_refuses_missing_bytes :
    decode [] = .error .noOpcodeByte ∧ decode [0xA9] = .error (.missingOperandByte 0xA9) ∧
      decode [0x4C, 0x34] = .error (.missingOperandByte 0x4C) := ⟨rfl, rfl, rfl⟩

/-- The host's reading of a row: the first byte in bits 7:0. -/
theorem test_table_word : decodeTableWord 24 0x1234BD = some (.lda (.abx 0x1234)) ∧
    decodeTableWord 8 0xBD = some (.lda (.abx 0x0000)) := by decide

/-! ## Single steps

`flat` is the start state of spec/95_test_vectors.md with PC at 8000: one RAM over the whole space, every byte 00. -/

def flat : State := { State.reset with cfg := defaultConfig flatWiring, cycles := 0, pc := 0x8000 }

/-- The step runs the given bytes, placed at PC, to a next state that passes a check. -/
def runs (s : State) (bytes : List Byte) (good : State → Bool) : Bool :=
  match instructionStep (s.placeBytes s.pc bytes) with
  | .next t => good t
  | .fault _ => false
  | .refused _ => false

/-- Section 2.1. -/
theorem test_adc_signed_overflow : runs { flat with a := 0x7F } [0x69, 0x01]
    (fun t => decide (t.a = 0x80 ∧ t.p = 0xE0 ∧ t.pc = 0x8002 ∧ t.cycles = 2)) = true := by decide

/-- Section 2.1: D has no effect (rule R16). -/
theorem test_adc_ignores_decimal : runs { flat with a := 0x09, p := 0x28 } [0x69, 0x01]
    (fun t => decide (t.a = 0x0A ∧ t.p = 0x28)) = true := by decide

/-- Section 2.1. -/
theorem test_sbc_borrows : runs { flat with a := 0x00, p := 0x20 } [0xE9, 0x00]
    (fun t => decide (t.a = 0xFF ∧ t.p = 0xA0)) = true := by decide

/-- Section 2.1. -/
theorem test_sbc_overflow : runs { flat with a := 0xD0, p := 0x21 } [0xE9, 0x70]
    (fun t => decide (t.a = 0x60 ∧ t.p = 0x61)) = true := by decide

/-- Section 2.2. -/
theorem test_asl_memory : runs { flat with p := 0x21, mem := [(0x0010, 0xC1)] } [0x06, 0x10]
    (fun t => decide (t.mem.read 0x0010 = 0x82 ∧ t.p = 0xA1 ∧ t.cycles = 5)) = true := by decide

/-- Section 2.2. -/
theorem test_lsr_no_page_cycle : runs { flat with x := 0x10, p := 0x21, mem := [(0x1300, 0x03)] } [0x5E, 0xF0, 0x12]
    (fun t => decide (t.mem.read 0x1300 = 0x01 ∧ t.p = 0x21 ∧ t.cycles = 7)) = true := by decide

/-- Section 2.2. -/
theorem test_rol_wraps_page_zero : runs { flat with x := 0x20, p := 0x21, mem := [(0x0010, 0x80)] } [0x36, 0xF0]
    (fun t => decide (t.mem.read 0x0010 = 0x01 ∧ t.p = 0x21 ∧ t.cycles = 6)) = true := by decide

/-- Section 2.2. -/
theorem test_ror_memory : runs { flat with p := 0x21, mem := [(0x0200, 0x01)] } [0x6E, 0x00, 0x02]
    (fun t => decide (t.mem.read 0x0200 = 0x80 ∧ t.p = 0xA1 ∧ t.cycles = 6)) = true := by decide

/-- Section 2.2. -/
theorem test_ror_accumulator : runs { flat with a := 0x80, p := 0x21 } [0x6A]
    (fun t => decide (t.a = 0xC0 ∧ t.p = 0xA0 ∧ t.cycles = 2)) = true := by decide

/-- Section 2.3: N is bit 7 of the difference. -/
theorem test_cmp_unsigned : runs { flat with a := 0x00, p := 0x60 } [0xC9, 0xFF]
    (fun t => decide (t.a = 0x00 ∧ t.p = 0x60)) = true := by decide

/-- Section 2.3. -/
theorem test_cpx_equal : runs { flat with x := 0x10, p := 0x60 } [0xE0, 0x10]
    (fun t => decide (t.x = 0x10 ∧ t.p = 0x63)) = true := by decide

/-- Section 2.3. -/
theorem test_cpy_less : runs { flat with y := 0x7F, p := 0x60 } [0xC0, 0x80]
    (fun t => decide (t.y = 0x7F ∧ t.p = 0xE0)) = true := by decide

/-- Section 2.4. -/
theorem test_bcc_taken : runs { flat with pc := 0x8000, p := 0x20 } [0x90, 0x04]
    (fun t => decide (t.pc = 0x8006 ∧ t.p = 0x20 ∧ t.cycles = 3)) = true := by decide

/-- Section 2.4. -/
theorem test_bcs_taken : runs { flat with pc := 0x8000, p := 0x21 } [0xB0, 0x7F]
    (fun t => decide (t.pc = 0x8081 ∧ t.p = 0x21 ∧ t.cycles = 3)) = true := by decide

/-- Section 2.4. -/
theorem test_beq_wraps : runs { flat with pc := 0xFFFE, p := 0x22 } [0xF0, 0xFD]
    (fun t => decide (t.pc = 0xFFFD ∧ t.p = 0x22 ∧ t.cycles = 4)) = true := by decide

/-- Section 2.4. -/
theorem test_bmi_backward : runs { flat with pc := 0x8000, p := 0xA0 } [0x30, 0x80]
    (fun t => decide (t.pc = 0x7F82 ∧ t.p = 0xA0 ∧ t.cycles = 4)) = true := by decide

/-- Section 2.4. -/
theorem test_bne_next_page : runs { flat with pc := 0x80FE, p := 0x20 } [0xD0, 0x02]
    (fun t => decide (t.pc = 0x8102 ∧ t.p = 0x20 ∧ t.cycles = 3)) = true := by decide

/-- Section 2.4. -/
theorem test_bne_not_taken : runs { flat with pc := 0x8009, p := 0x22 } [0xD0, 0xFA]
    (fun t => decide (t.pc = 0x800B ∧ t.p = 0x22 ∧ t.cycles = 2)) = true := by decide

/-- Section 2.4. -/
theorem test_bpl_below_zero : runs { flat with pc := 0x0000, p := 0x20 } [0x10, 0x80]
    (fun t => decide (t.pc = 0xFF82 ∧ t.p = 0x20 ∧ t.cycles = 4)) = true := by decide

/-- Section 2.4. -/
theorem test_bvc_to_itself : runs { flat with pc := 0x8000, p := 0x20 } [0x50, 0xFE]
    (fun t => decide (t.pc = 0x8000 ∧ t.p = 0x20 ∧ t.cycles = 3)) = true := by decide

/-- Section 2.4. -/
theorem test_bvs_next : runs { flat with pc := 0x8000, p := 0x60 } [0x70, 0x00]
    (fun t => decide (t.pc = 0x8002 ∧ t.p = 0x60 ∧ t.cycles = 3)) = true := by decide

/-- Section 2.5: the pointer wraps in page zero. -/
theorem test_lda_indexed_indirect :
    runs { flat with mem := [(0x0000, 0x12), (0x00FF, 0x34), (0x0100, 0x99), (0x1234, 0x5A)] } [0xA1, 0xFF]
      (fun t => decide (t.a = 0x5A ∧ t.cycles = 6)) = true := by decide

/-- Section 2.5. -/
theorem test_lda_indirect_indexed :
    runs { flat with y := 0x01, mem := [(0x0000, 0x02), (0x00FF, 0xFF), (0x0100, 0x99), (0x0300, 0x6B)] } [0xB1, 0xFF]
      (fun t => decide (t.a = 0x6B ∧ t.cycles = 6)) = true := by decide

/-- Section 2.5. -/
theorem test_ldx_zero_page_y : runs { flat with y := 0x02, mem := [(0x0001, 0x7F)] } [0xB6, 0xFF]
    (fun t => decide (t.x = 0x7F ∧ t.p = 0x20 ∧ t.cycles = 4)) = true := by decide

/-- Section 2.5. -/
theorem test_ldy_page_cross : runs { flat with x := 0x20, mem := [(0x1310, 0xFF)] } [0xBC, 0xF0, 0x12]
    (fun t => decide (t.y = 0xFF ∧ t.p = 0xA0 ∧ t.cycles = 5)) = true := by decide

/-- Section 2.6: no extra cycle. -/
theorem test_sta_indirect_indexed :
    runs { flat with a := 0xA5, y := 0x10, p := 0xA3, mem := [(0x0040, 0xF8), (0x0041, 0x02)] } [0x91, 0x40]
      (fun t => decide (t.mem.read 0x0308 = 0xA5 ∧ t.p = 0xA3 ∧ t.cycles = 6)) = true := by decide

/-- Section 2.6. -/
theorem test_sta_absolute_x : runs { flat with a := 0x5A, x := 0x10, p := 0xA3 } [0x9D, 0xF0, 0x12]
    (fun t => decide (t.mem.read 0x1300 = 0x5A ∧ t.p = 0xA3 ∧ t.cycles = 5)) = true := by decide

/-- Section 2.6. -/
theorem test_stx_zero_page_y : runs { flat with x := 0x07, y := 0x90, p := 0xA3 } [0x96, 0x80]
    (fun t => decide (t.mem.read 0x0010 = 0x07 ∧ t.p = 0xA3 ∧ t.cycles = 4)) = true := by decide

/-- Section 2.6. -/
theorem test_sty_zero_page_x : runs { flat with x := 0xF8, y := 0x09, p := 0xA3 } [0x94, 0x10]
    (fun t => decide (t.mem.read 0x0008 = 0x09 ∧ t.p = 0xA3 ∧ t.cycles = 4)) = true := by decide

/-- Section 2.7. -/
theorem test_inc_wraps : runs { flat with p := 0x61, mem := [(0x0010, 0xFF)] } [0xE6, 0x10]
    (fun t => decide (t.mem.read 0x0010 = 0x00 ∧ t.p = 0x63 ∧ t.cycles = 5)) = true := by decide

/-- Section 2.7. -/
theorem test_dec_wraps : runs { flat with p := 0x61 } [0xC6, 0x10]
    (fun t => decide (t.mem.read 0x0010 = 0xFF ∧ t.p = 0xE1 ∧ t.cycles = 5)) = true := by decide

/-- Section 2.7. -/
theorem test_inx : runs { flat with x := 0xFF, p := 0x61 } [0xE8]
    (fun t => decide (t.x = 0x00 ∧ t.p = 0x63 ∧ t.cycles = 2)) = true := by decide

/-- Section 2.7. -/
theorem test_iny : runs { flat with y := 0x7F, p := 0x61 } [0xC8]
    (fun t => decide (t.y = 0x80 ∧ t.p = 0xE1)) = true := by decide

/-- Section 2.7. -/
theorem test_dex : runs { flat with x := 0x00, p := 0x61 } [0xCA]
    (fun t => decide (t.x = 0xFF ∧ t.p = 0xE1)) = true := by decide

/-- Section 2.7. -/
theorem test_dey : runs { flat with y := 0x01, p := 0x61 } [0x88]
    (fun t => decide (t.y = 0x00 ∧ t.p = 0x63)) = true := by decide

/-- Section 2.8. -/
theorem test_tax : runs { flat with a := 0x80 } [0xAA]
    (fun t => decide (t.x = 0x80 ∧ t.p = 0xA0 ∧ t.pc = 0x8001)) = true := by decide

/-- Section 2.8. -/
theorem test_tay : runs { flat with y := 0x22 } [0xA8] (fun t => decide (t.y = 0x00 ∧ t.p = 0x22)) = true := by decide

/-- Section 2.8. -/
theorem test_tsx : runs flat [0xBA] (fun t => decide (t.x = 0xFD ∧ t.p = 0xA0)) = true := by decide

/-- Section 2.8. -/
theorem test_txa : runs { flat with a := 0xFF, x := 0x01 } [0x8A]
    (fun t => decide (t.a = 0x01 ∧ t.p = 0x20)) = true := by decide

/-- Section 2.8. -/
theorem test_txs_writes_no_flag : runs flat [0x9A] (fun t => decide (t.sp = 0x00 ∧ t.p = 0x20)) = true := by decide

/-- Section 2.8. -/
theorem test_tya : runs { flat with y := 0xFF } [0x98] (fun t => decide (t.a = 0xFF ∧ t.p = 0xA0)) = true := by decide

/-- Section 2.9. -/
theorem test_clc : runs { flat with p := 0xFF } [0x18]
    (fun t => decide (t.p = 0xFE ∧ t.pc = 0x8001 ∧ t.cycles = 2)) = true := by decide

/-- Section 2.9. -/
theorem test_cld : runs { flat with p := 0xFF } [0xD8]
    (fun t => decide (t.p = 0xF7 ∧ t.pc = 0x8001 ∧ t.cycles = 2)) = true := by decide

/-- Section 2.9. -/
theorem test_cli : runs { flat with p := 0xFF } [0x58]
    (fun t => decide (t.p = 0xFB ∧ t.pc = 0x8001 ∧ t.cycles = 2)) = true := by decide

/-- Section 2.9. -/
theorem test_clv : runs { flat with p := 0xFF } [0xB8]
    (fun t => decide (t.p = 0xBF ∧ t.pc = 0x8001 ∧ t.cycles = 2)) = true := by decide

/-- Section 2.9. -/
theorem test_sec : runs { flat with p := 0x20 } [0x38]
    (fun t => decide (t.p = 0x21 ∧ t.pc = 0x8001 ∧ t.cycles = 2)) = true := by decide

/-- Section 2.9. -/
theorem test_sed : runs { flat with p := 0x20 } [0xF8]
    (fun t => decide (t.p = 0x28 ∧ t.pc = 0x8001 ∧ t.cycles = 2)) = true := by decide

/-- Section 2.9. -/
theorem test_sei : runs { flat with p := 0x20 } [0x78]
    (fun t => decide (t.p = 0x24 ∧ t.pc = 0x8001 ∧ t.cycles = 2)) = true := by decide

/-- Section 2.9. -/
theorem test_nop_sets_u : runs { flat with p := 0x00 } [0xEA]
    (fun t => decide (t.p = 0x20 ∧ t.pc = 0x8001 ∧ t.cycles = 2)) = true := by decide

/-- Section 2.9. -/
theorem test_undocumented_byte : runs { flat with p := 0x00 } [0x02]
    (fun t => decide (t.p = 0x20 ∧ t.pc = 0x8001 ∧ t.cycles = 2)) = true := by decide

/-- Section 2.9. -/
theorem test_undocumented_operand_is_not_skipped : runs flat [0x04, 0xA9, 0x55]
    (fun t => decide (t.pc = 0x8001 ∧ t.a = 0x00 ∧ t.cycles = 2)) = true := by decide

/-- Section 2.10. -/
theorem test_and : runs { flat with a := 0xF0, p := 0x21 } [0x29, 0x0F]
    (fun t => decide (t.a = 0x00 ∧ t.p = 0x23)) = true := by decide

/-- Section 2.10. -/
theorem test_ora : runs { flat with a := 0x01, p := 0x21 } [0x09, 0x80]
    (fun t => decide (t.a = 0x81 ∧ t.p = 0xA1)) = true := by decide

/-- Section 2.10. -/
theorem test_eor : runs { flat with a := 0x55, p := 0x21 } [0x49, 0xFF]
    (fun t => decide (t.a = 0xAA ∧ t.p = 0xA1)) = true := by decide

/-- Section 2.10. -/
theorem test_bit : runs { flat with a := 0x01, p := 0x21, mem := [(0x0010, 0xC0)] } [0x24, 0x10]
    (fun t => decide (t.a = 0x01 ∧ t.p = 0xE3 ∧ t.cycles = 3)) = true := by decide

/-- Section 2.11. -/
theorem test_pha_wraps : runs { flat with a := 0x42, sp := 0x00 } [0x48]
    (fun t => decide (t.mem.read 0x0100 = 0x42 ∧ t.sp = 0xFF ∧ t.cycles = 3)) = true := by decide

/-- Section 2.11. -/
theorem test_php_pushes_b_and_u : runs { flat with p := 0xCF } [0x08]
    (fun t => decide (t.mem.read 0x01FD = 0xFF ∧ t.sp = 0xFC ∧ t.p = 0xEF)) = true := by decide

/-- Section 2.11. -/
theorem test_pla_wraps : runs { flat with sp := 0xFF, mem := [(0x0100, 0x80)] } [0x68]
    (fun t => decide (t.a = 0x80 ∧ t.sp = 0x00 ∧ t.p = 0xA0 ∧ t.cycles = 4)) = true := by decide

/-- Section 2.11. -/
theorem test_plp_forces_u : runs { flat with sp := 0xFC, p := 0xFF, mem := [(0x01FD, 0x10)] } [0x28]
    (fun t => decide (t.p = 0x30 ∧ t.sp = 0xFD ∧ t.cycles = 4)) = true := by decide

/-- Section 2.11. -/
theorem test_jsr_wraps :
    runs { flat with sp := 0x00 } [0x20, 0x00, 0x90]
      (fun t => decide (t.mem.read 0x0100 = 0x80 ∧ t.mem.read 0x01FF = 0x02 ∧ t.sp = 0xFE ∧ t.pc = 0x9000 ∧ t.cycles = 6)) = true := by decide

/-- Section 2.11. -/
theorem test_rts_wraps : runs { flat with sp := 0xFB, mem := [(0x01FC, 0xFF), (0x01FD, 0xFF)] } [0x60]
    (fun t => decide (t.pc = 0x0000 ∧ t.sp = 0xFD ∧ t.cycles = 6)) = true := by decide

/-- Section 2.11. -/
theorem test_rti :
    runs { flat with sp := 0xFA, p := 0x24, mem := [(0x01FB, 0xDF), (0x01FC, 0x05), (0x01FD, 0x80)] } [0x40]
      (fun t => decide (t.p = 0xFF ∧ t.pc = 0x8005 ∧ t.sp = 0xFD ∧ t.cycles = 6)) = true := by decide

/-- Section 2.11. -/
theorem test_brk_with_i_set :
    runs { flat with pc := 0x8010, p := 0xE4, sp := 0x01, mem := [(0xFFFE, 0x34), (0xFFFF, 0x12)] } [0x00]
      (fun t => decide (t.pc = 0x1234 ∧ t.sp = 0xFE ∧ t.p = 0xE4 ∧ t.mem.read 0x0101 = 0x80 ∧ t.mem.read 0x0100 = 0x12 ∧ t.mem.read 0x01FF = 0xF4 ∧ t.cycles = 7)) = true := by decide

/-- T5. -/
theorem test_jmp_indirect_wraps_in_the_page :
    runs { flat with mem := [(0x1000, 0x80), (0x10FF, 0x00), (0x1100, 0x90)] } [0x6C, 0xFF, 0x10]
      (fun t => decide (t.pc = 0x8000 ∧ t.cycles = 5)) = true := by decide

/-- V62: irq() with I = 0 and B = 1. -/
theorem test_irq :
    (match applyEvent .irq { flat with
        pc := 0x1234, sp := 0x01, p := 0xFB, mem := [(0xFFFF, 0x90)] } with
      | .next t => decide (t.pc = 0x9000 ∧ t.sp = 0xFE ∧ t.p = 0xFF ∧ t.cycles = 7 ∧ t.mem.read 0x01FF = 0xEB ∧
          t.mem.read 0x0101 = 0x12 ∧ t.mem.read 0x0100 = 0x34)
      | .fault _ => false
      | .refused _ => false) = true := by decide

/-- V62: irq() with I = 1 changes nothing. -/
theorem test_irq_masked : applyEvent .irq { flat with p := 0x24 } = .next { flat with p := 0x24 } := rfl

/-- V62: nmi() with I = 1. -/
theorem test_nmi :
    (match applyEvent .nmi { flat with pc := 0x8006, p := 0x24, mem := [(0xFFFB, 0xA0)] } with
      | .next t => decide (t.pc = 0xA000 ∧ t.sp = 0xFA ∧ t.p = 0x24 ∧ t.cycles = 8 ∧ t.mem.read 0x01FB = 0x24)
      | .fault _ => false
      | .refused _ => false) = true := by decide

/-- V60. -/
theorem test_reset :
    (match applyEvent .reset { flat with a := 1, x := 2, y := 3, sp := 4, p := 0xFF, mem := [(0xFFFD, 0x80)] } with
      | .next t => decide (t.pc = 0x8000 ∧ t.a = 0 ∧ t.x = 0 ∧ t.y = 0 ∧ t.sp = 0xFD ∧ t.p = 0x20 ∧ t.cycles = 8)
      | .fault _ => false
      | .refused _ => false) = true := by decide

/-- V65: an access to an unclaimed address aborts the run. -/
theorem test_unclaimed_address_aborts :
    exec (.lda (.abs 0x4000)) State.reset = .fault (.busAbort 0x4000) ∧
      exec (.sta (.abs 0x2000)) State.reset = .fault (.busAbort 0x2000) := ⟨rfl, rfl⟩

/-- V66: the stack page shows in the mirror. -/
theorem test_mirrored_stack :
    (match exec .pha { State.reset with a := 0x42 } with
      | .next t => decide (t.mem = [(0x01FD, 0x42)] ∧ t.target 0x09FD = some (.cell 0x01FD))
      | .fault _ => false
      | .refused _ => false) = true := by decide

/-- V68: UxROM with 8 banks, and with 6 (rule R64). -/
theorem test_bank_mask : bankMask 0x0F 8 = 7 ∧ bankMask 0xF2 8 = 2 ∧
    [0, 1, 2, 3, 4, 5, 6, 7].map (fun v => bankMask v 6) = [0, 1, 0, 1, 4, 5, 4, 5] := by decide

/-- The header of a vector and a zero payload of its promised length is refused for the reason named. -/
def refusal (header : List Byte) (payload : Nat) : Option LoadError :=
  match loadCartridge (defaultConfig []) (header ++ List.replicate payload 0x00) with
  | .ok _ => none
  | .error e => some e

/-- V71, V72, V75, V76, V77, V78: the rejected headers, and V70 without its payload. -/
theorem test_rejected_headers :
    refusal [0x4E, 0x45, 0x53, 0x1A, 0, 1, 0, 0, 0, 0, 0, 0, 0, 0, 0, 0] 0 = some .zeroPrgBanks ∧
      refusal [0x4E, 0x45, 0x53, 0x00, 1, 1, 0, 0, 0, 0, 0, 0, 0, 0, 0, 0] 0 = some .badMagic ∧
      refusal [0x4E, 0x45, 0x53, 0x1A, 1, 1, 0x10, 0, 0, 0, 0, 0, 0, 0, 0, 0] 0 = some (.unsupportedMapper 1) ∧
      refusal [0x4E, 0x45, 0x53, 0x1A, 1, 1, 0, 0x40, 0, 0, 0, 0, 0, 0, 0, 0] 0 = some (.unsupportedMapper 0x40) ∧
      refusal [0x4E, 0x45, 0x53, 0x1A, 1, 1, 0, 0, 0, 0, 1, 0, 0, 0, 0, 0] 0 = some .unsupportedTvSystem ∧
      refusal [0x4E, 0x45, 0x53, 0x1A, 1, 1, 4, 0, 0, 0, 0, 0, 0, 0, 0, 0] 0 = some .trainerPresent ∧
      refusal [0x4E, 0x45, 0x53, 0x1A, 1, 1, 0, 0, 0, 0, 0, 0, 0, 0, 0, 0] 0 = some .imageTooShort ∧
      refusal [0x4E, 0x45, 0x53] 0 = some .imageTooShort := by decide

/-- Rule R106: the text of a line. -/
theorem test_disassembly_text :
    ({ address := 0x8009, instr := .bne 0xFA } : Line).text = ("BNE $8005", "REL") ∧
      ({ address := 0x8000, instr := .lda (.izx 0x20) } : Line).text = ("LDA ($20,X)", "IZX") ∧
      ({ address := 0x8000, instr := .undoc 0x02 } : Line).text = ("???", "IMP") := by decide

/-- The host's question about a row: the word runs as the first instruction after reset. -/
theorem test_first_instruction_after_reset :
    (match step (State.reset.withFetchWord 16 0x55A9) with
      | .next t => decide (t.a = 0x55 ∧ t.pc = 0x0002 ∧ t.cycles = 1)
      | .fault _ => false
      | .refused _ => false) = true := by decide

/-! ## Witnesses: states and operands that meet the hypotheses of the statements -/


theorem witness_DecodeOfEncodeIsTheInstruction : WellFormed (.adc (.izy 0xFF)) ∧ WellFormed (.undoc 0xFF) := by decide

theorem witness_EncodeOfDecodeIsTheBytes : decode [0x6C, 0xFF, 0x10, 0xEA] = .ok (.jmp (.ind 0x10FF), [0xEA]) := rfl

/-- The last claimed and the first unclaimed address of the reference wiring, with no fault recorded. -/
theorem witness_BusAnswersExactlyOnClaimedAddresses :
    (∃ d ∈ State.reset.cfg.wiring, d.start ≤ (0x1FFF#16).toNat ∧ (0x1FFF#16).toNat ≤ d.stop) ∧
      (∀ d ∈ State.reset.cfg.wiring, ¬(d.start ≤ (0x2000#16).toNat ∧ (0x2000#16).toNat ≤ d.stop)) ∧
      (∀ d ∈ State.reset.cfg.wiring, ¬(d.start ≤ (0x7FFF#16).toNat ∧ (0x7FFF#16).toNat ≤ d.stop)) ∧
      State.reset.fault = none ∧
      ∃ d ∈ State.reset.cfg.wiring, d.start ≤ (0x8000#16).toNat ∧ (0x8000#16).toNat ≤ d.stop := by decide

/-- A bus whose every address is claimed. -/
theorem flat_claims (a : Addr) : flat.claims a = true := by
  have h : a.toNat ≤ 0xFFFF := by have := a.isLt; omega
  simp [State.claims, State.target, flat, defaultConfig, flatWiring, claimFrom, deviceContains, h]

/-- V64: RAM_B at 2000 to 2FFF registered over RAM_A. -/
def ramB : Device := { kind := .ram, start := 0x2000, stop := 0x2FFF }
def overlaid : Config := { flat.cfg with wiring := flatWiring ++ [ramB] }

theorem witness_LaterRegistrationWins : mapDevice flat.cfg ramB = .ok overlaid ∧
    { flat with cfg := overlaid }.target 0x1FFF = some (.cell 0x1FFF) ∧
    { flat with cfg := overlaid }.target 0x2000 = some (.cell 0x10000) ∧
    { flat with cfg := overlaid }.target 0x3000 = some (.cell 0x3000) := ⟨rfl, by decide⟩

/-- One page of the reference wiring: 1FFF and 07FF share a byte, 0000 and 0001 do not. -/
theorem witness_RamReadsTheMostRecentWrite : State.reset.mem.wf = true ∧
    State.reset.target 0x1FFF = some (.cell 0x07FF) ∧ State.reset.target 0x07FF = State.reset.target 0x1FFF ∧
    State.reset.target 0x0000 ≠ State.reset.target 0x1FFF := by decide

def mirror : Device := { kind := .mirroredRam 0x0800, start := 0x0000, stop := 0x1FFF }
def mirrored : State := { State.reset with cfg := defaultConfig (referenceWiring true) }

/-- Same page offset, another page offset, another device; and a RAM as the written device. -/
theorem witness_MirroredRamRepeatsItsPage : mirrored.mem.wf = true ∧
    claimFrom 0 (0x07FF#16).toNat mirrored.cfg.wiring = some (0, mirror) ∧
    claimFrom 0 (0x1FFF#16).toNat mirrored.cfg.wiring = some (0, mirror) ∧ mirror.kind = .mirroredRam 0x0800 ∧
    (0x1FFF - mirror.start) % 0x0800 = (0x07FF - mirror.start) % 0x0800 ∧
    claimFrom 0 (0x0800#16).toNat mirrored.cfg.wiring = some (0, mirror) ∧
    (0x0800 - mirror.start) % 0x0800 ≠ (0x07FF - mirror.start) % 0x0800 ∧
    (claimFrom 0 (0x6000#16).toNat mirrored.cfg.wiring).map Prod.fst = some 1 ∧
    (claimFrom 0 (0x6000#16).toNat mirrored.cfg.wiring).map (fun c => c.2.kind) = some .ram := by decide

def onMapper (mapper : MapperKind) (prgBanks chrBanks : Nat) : State :=
  { State.reset with cart := { blankCartridge with mapper := mapper, prgBanks := prgBanks, chrBanks := chrBanks } }

theorem witness_NromAndCnromShowFixedPrg :
    (onMapper .nrom 1 1).target 0x8000 = some .mapper ∧ (onMapper .nrom 1 1).cart.mapper = .nrom ∧
      (onMapper .cnrom 2 4).target 0xFFFF = some .mapper ∧ (onMapper .cnrom 2 4).cart.mapper = .cnrom := by decide

/-- Both windows of a UxROM cartridge of 8 banks, a power of two. -/
theorem witness_UxromSwitchesTheLowerWindow : (onMapper .uxrom 8 0).cart.mapper = .uxrom ∧
    1 ≤ (onMapper .uxrom 8 0).cart.prgBanks ∧ (onMapper .uxrom 8 0).cart.prgBanks = 2 ^ 3 ∧
    (onMapper .uxrom 8 0).target 0xBFFF = some .mapper ∧ (onMapper .uxrom 8 0).target 0xC000 = some .mapper := by decide

theorem witness_CnromSelectsTheChrBank : (onMapper .cnrom 1 4).cart.mapper = .cnrom ∧
    (onMapper .cnrom 1 4).target 0x8000 = some .mapper ∧ (onMapper .cnrom 1 4).cfg.chrWindowStart ≤ (0x0000#16).toNat ∧
    (0x1FFF#16).toNat ≤ (onMapper .cnrom 1 4).cfg.chrWindowStop ∧ 1 ≤ (onMapper .cnrom 1 4).cart.chrBanks ∧
    (onMapper .cnrom 1 0).cart.chrBanks = 0 := by decide

set_option maxRecDepth 10000 in
/-- The spec's default parameters over a legal wiring are a legal configuration. -/
theorem configLegal_default {wiring : List Device} (h : firstWiringError wiring = none) :
    configLegal (defaultConfig wiring) := by
  have table : defaultCycleTable.all (fun n => decide (1 ≤ n)) = true := by decide
  exact ⟨rfl, fun n hn => of_decide_eq_true (List.all_eq_true.mp table n hn), h, rfl, Nat.le_of_ble_eq_true rfl⟩

theorem witness_PpuSideDevice : (onMapper .nrom 1 0).chrRam.wf = true ∧ configLegal (onMapper .nrom 1 0).cfg ∧
    (onMapper .nrom 1 0).cfg.chrWindowStart ≤ (0x0000#16).toNat ∧
    (0x1FFF#16).toNat ≤ (onMapper .nrom 1 0).cfg.chrWindowStop ∧ (onMapper .nrom 1 0).cart.chrBanks = 0 ∧
    (onMapper .uxrom 1 1).cart.chrBanks ≠ 0 ∧ (onMapper .uxrom 1 1).cart.mapper ≠ .cnrom ∧
    (onMapper .nrom 1 0).cfg.chrWindowStop < (0x2000#16).toNat :=
  ⟨by decide, configLegal_default rfl, by decide, by decide, by decide, by decide, by decide, by decide⟩

/-- V70: its header with a payload of the promised length is accepted. -/
theorem witness_CartridgeLoadFollowsTheHeader (payload : List Byte) (h : payload.length = 24576) :
    ∃ c, loadCartridge (defaultConfig [])
      ([0x4E, 0x45, 0x53, 0x1A, 1, 1, 0, 0, 0, 0, 0, 0, 0, 0, 0, 0] ++ payload) = .ok c := by
  simp [loadCartridge, headerByte, headerMapperId, headerMagic, mapperOf, defaultConfig, h]

/-- A configuration refused for each reason, one that builds a machine, and a BANK_RESET of a present bank. -/
theorem witness_IllegalWiringBuildsNoMachine :
    (∃ s, buildMachine { flat.cfg with bankReset := 1 } { blankCartridge with prgBanks := 3, chrBanks := 0 } [] []
      ⟨0, 0, 0, 0, 0, 0, 0⟩ = .ok s) ∧
      wiringError { kind := .ram, start := 2, stop := 1 } = some .illegalRange ∧
      wiringError { kind := .ram, start := 0xFFFF, stop := 0x10000 } = some .illegalRange ∧
      wiringError { kind := .mirroredRam 0x0800, start := 0x0000, stop := 0x1FFE } = some .unalignedMirror ∧
      wiringError { kind := .prgMapper, start := 0x8001, stop := 0xFFFF } = some .mapperRange ∧
      firstConfigError { flat.cfg with chrWindowStart := 0x2000, chrWindowStop := 0x1FFF } = some .illegalRange ∧
      firstConfigError { flat.cfg with chrWindowStart := 0xE001, chrWindowStop := 0x10000 } = some .illegalRange ∧
      firstConfigError { flat.cfg with chrWindowStop := 0x1FFE } = some .chrWindowSize ∧
      firstConfigError { flat.cfg with cycleTable := [] } = some .cycleTable :=
  ⟨(buildMachine_ok _ _ _ _).mpr (configLegal_default rfl), by decide, by decide, by decide, by decide, by decide,
    by decide, by decide, by decide⟩

/-- Rule R62: BANK_RESET is the register's value where it names a present bank; rule R23: it never names an absent one. -/
theorem test_bank_at_load : bankAtLoad 1 3 = 1 ∧ bankAtLoad 2 6 = 2 ∧ bankAtLoad 0 1 = 0 ∧ bankAtLoad 5 0 = 0 ∧
    bankAtLoad 9 6 < 6 := by decide

/-- Rules R48 and R71: a PPU-side device outside the 16-bit space builds no machine. -/
theorem test_chr_window_refused :
    (match buildMachine { flat.cfg with chrWindowStart := 0xF000, chrWindowStop := 0x10FFF } blankCartridge [] []
        ⟨0, 0, 0, 0, 0, 0, 0⟩ with
      | .error e => decide (e = .illegalRange)
      | .ok _ => false) = true := by decide

/-- Rules R49 and R50: a Peek of the host changes nothing at a claimed address and ends the run at an unclaimed one. -/
theorem test_peek_event : step { State.reset with host := [.peek 0x1FFF, .clock] } =
      .next { State.reset with host := [.clock] } ∧
    step { State.reset with host := [.peek 0x2000, .clock] } = .fault (.busAbort 0x2000) := ⟨rfl, rfl⟩

/-- A pointer at the end of a page and one before it. -/
theorem witness_IndirectModeWrapsInThePage :
    { flat with mem := [(0x1000, 0x80), (0x1100, 0x90)] }.read 0x10FF = .ok 0x00 ∧
      { flat with mem := [(0x1000, 0x80), (0x1100, 0x90)] }.read (0x10FF - 255) = .ok 0x80 ∧
      (0x10FF#16).toNat % 256 = 255 ∧ { flat with mem := [(0x10FF, 0x12)] }.read (0x10FE + 1) = .ok 0x12 ∧
      (0x10FE#16).toNat % 256 ≠ 255 := ⟨rfl, rfl, by decide, rfl, by decide⟩

theorem witness_ZeroPagePointerModesAddress :
    flat.read (BitVec.ofNat 16 ((0xFF + flat.x.toNat) % 256)) = .ok 0x00 ∧
      flat.read (BitVec.ofNat 16 ((0xFF + flat.x.toNat + 1) % 256)) = .ok 0x00 ∧
      flat.read (BitVec.ofNat 16 (0xFF#8).toNat) = .ok 0x00 ∧
      flat.read (BitVec.ofNat 16 (((0xFF#8).toNat + 1) % 256)) = .ok 0x00 := ⟨rfl, rfl, rfl, rfl⟩

/-- The operand of each kind of form: immediate, accumulator, memory. -/
theorem witness_operands :
    OperandIs (.adc (.imm 0x7F)) flat { addr := 0x8001, crossed := false } 0x7F ∧
      OperandIs (.sbc (.izy 0xFF)) { flat with y := 0x01, mem := [(0xFF, 0xFF), (0x100, 0x6B)] }
        { addr := 0x0100, crossed := true } 0x6B ∧
      OperandIs (.asl .imp) { flat with a := 0x81 } { addr := 0x0000, crossed := false } 0x81 ∧
      OperandIs (.cmp (.abx 0xFFFF)) { flat with x := 0x01, mem := [(0x0000, 0x77)] }
        { addr := 0x0000, crossed := true } 0x77 ∧
      OperandIs (.bit (.zp0 0x10)) { flat with mem := [(0x10, 0xC0)] } { addr := 0x0010, crossed := false } 0xC0 ∧
      OperandIs (.inc (.abx 0x12F0)) { flat with x := 0x10 } { addr := 0x1300, crossed := true } 0x00 :=
  ⟨⟨rfl, rfl⟩, ⟨rfl, rfl⟩, ⟨rfl, rfl⟩, ⟨rfl, rfl⟩, ⟨rfl, rfl⟩, ⟨rfl, rfl⟩⟩

theorem witness_AdcAddsWithCarry : WellFormed (.adc (.imm 0x01)) ∧
    OperandIs (.adc (.imm 0x01)) flat { addr := 0x8001, crossed := false } 0x01 := ⟨by decide, rfl, rfl⟩

theorem witness_SbcSubtractsWithBorrow : WellFormed (.sbc (.aby 0x12F0)) ∧
    OperandIs (.sbc (.aby 0x12F0)) flat { addr := 0x12F0, crossed := false } 0x00 := ⟨by decide, rfl, rfl⟩

theorem witness_ComparesSetCarryZeroNegative : WellFormed (.cmp (.zp0 0x10)) ∧
    OperandIs (.cmp (.zp0 0x10)) flat { addr := 0x0010, crossed := false } 0x00 := ⟨by decide, rfl, rfl⟩

theorem witness_LogicInstructionsCombineWithA : WellFormed (.eor (.izx 0x20)) ∧
    OperandIs (.eor (.izx 0x20)) flat { addr := 0x0000, crossed := false } 0x00 := ⟨by decide, rfl, rfl⟩

theorem witness_BitTestsMemory : WellFormed (.bit (.abs 0x1234)) ∧
    OperandIs (.bit (.abs 0x1234)) flat { addr := 0x1234, crossed := false } 0x00 := ⟨by decide, rfl, rfl⟩

theorem witness_LoadsReadTheOperand : WellFormed (.ldx (.zpy 0xFF)) ∧
    OperandIs (.ldx (.zpy 0xFF)) flat { addr := 0x00FF, crossed := false } 0x00 := ⟨by decide, rfl, rfl⟩

theorem witness_IncAndDecStepMemory : WellFormed (.dec (.zpx 0xFF)) ∧
    OperandIs (.dec (.zpx 0xFF)) flat { addr := 0x00FF, crossed := false } 0x00 := ⟨by decide, rfl, rfl⟩

/-- The accumulator form and a memory form. -/
theorem witness_ShiftsMoveByOneBit :
    (WellFormed (.ror .imp) ∧ OperandIs (.ror .imp) flat { addr := 0x0000, crossed := false } 0x00) ∧
      WellFormed (.lsr (.abx 0x12F0)) ∧
      OperandIs (.lsr (.abx 0x12F0)) { flat with x := 0x10 } { addr := 0x1300, crossed := true } 0x00 :=
  ⟨⟨by decide, rfl, rfl⟩, by decide, rfl, rfl⟩

theorem witness_StoresWriteTheRegister : WellFormed (.sta (.izy 0x40)) ∧
    AddressIs (.sta (.izy 0x40)) flat { addr := 0x0000, crossed := false } ∧
    flat.write 0x0000 0x00 = .ok flat := ⟨by decide, rfl, rfl⟩

theorem witness_NopAndFallbackHaveNoEffect : 0x02 ∈ undocumentedBytes ∧ 0xFF ∈ undocumentedBytes := by decide

/-- A branch taken and one not taken. -/
theorem witness_BranchesTestOneFlag : flat.flag .c = false ∧ { flat with p := 0x21 }.flag .c ≠ false := by decide

theorem witness_JumpsGoToTheEffectiveAddress : WellFormed (.jmp (.ind 0x10FF)) ∧
    AddressIs (.jmp (.ind 0x10FF)) { flat with mem := [(0x1000, 0x80)] } { addr := 0x8000, crossed := false } :=
  ⟨by decide, rfl⟩

/-- The stack pointer at both ends of the stack page. -/
theorem witness_PushesStoreAndDecrement :
    { flat with sp := 0x00 }.claims (0x0100#16 + (0x00#8).setWidth 16) = true ∧
      { flat with sp := 0xFF }.claims (0x0100#16 + (0xFF#8).setWidth 16) = true := by decide

theorem witness_PullsIncrementAndLoad :
    { flat with sp := 0xFF, mem := [(0x0100, 0x80)] }.read (pullAddr 0xFF 1) = .ok 0x80 :=
  rfl

theorem witness_JsrPushesItsLastByte : { flat with sp := 0x00 }.claims (0x0100#16 + (0x00#8).setWidth 16) = true ∧
    { flat with sp := 0x00 }.claims (0x0100#16 + ((0x00#8) - 1).setWidth 16) = true := by decide

theorem witness_ReturnsPullThePc : flat.read (pullAddr flat.sp 1) = .ok 0x00 ∧ flat.read (pullAddr flat.sp 2) = .ok 0x00 ∧
    flat.read (pullAddr flat.sp 3) = .ok 0x00 := ⟨rfl, rfl, rfl⟩

/-- The stack pointer wraps between the pushes. -/
theorem claimed_flat (sp : Byte) (vector : Addr) : TrapAccessesClaimed { flat with sp := sp } vector :=
  fun a _ => flat_claims a

theorem witness_BrkTakesTheTrap : TrapAccessesClaimed { flat with sp := 0x01 } 0xFFFE := claimed_flat _ _

/-- A board with one device, a RAM from 0000 to the given address. -/
def ramUpTo (stop : Nat) (sp : Byte) : State :=
  { flat with sp := sp, cfg := defaultConfig [{ kind := .ram, start := 0x0000, stop := stop }] }

/-- A first, second and third push, a low and a high vector byte that no device claims. -/
theorem witness_IrqIsMaskedByI : flat.started = true ∧ { flat with p := 0x24 }.flag .i = true ∧ flat.flag .i = false ∧
    TrapAccessesClaimed { flat with sp := 0xFD } 0xFFFE ∧ (ramUpTo 0x01FE 0xFF).flag .i = false ∧
    FirstUnclaimed (ramUpTo 0x01FE 0xFF) (trapAddresses 0xFF 0xFFFE) 0x01FF ∧
    FirstUnclaimed (ramUpTo 0x01FE 0x00) (trapAddresses 0x00 0xFFFE) 0x01FF ∧
    FirstUnclaimed (ramUpTo 0x01FE 0x01) (trapAddresses 0x01 0xFFFE) 0x01FF ∧
    FirstUnclaimed (ramUpTo 0xFFFD 0xFD) (trapAddresses 0xFD 0xFFFE) 0xFFFE ∧
    FirstUnclaimed (ramUpTo 0xFFFE 0xFD) (trapAddresses 0xFD 0xFFFE) 0xFFFF :=
  ⟨rfl, by decide, by decide, claimed_flat _ _, by decide, rfl, rfl, rfl, rfl, rfl⟩

theorem witness_NmiIsUnconditional : flat.started = true ∧ TrapAccessesClaimed { flat with sp := 0xFD } 0xFFFA ∧
    FirstUnclaimed (ramUpTo 0x01FE 0x00) (trapAddresses 0x00 0xFFFA) 0x01FF ∧
    FirstUnclaimed (ramUpTo 0xFFFA 0xFD) (trapAddresses 0xFD 0xFFFA) 0xFFFB := ⟨rfl, claimed_flat _ _, rfl, rfl⟩

/-- The stack pointer wraps between the pushes. -/
theorem stackInRam_flat : StackInRam { flat with sp := 0x01 } 3 := by
  refine ⟨rfl, ?_, ?_⟩
  · intro j hj
    obtain rfl | rfl | rfl : j = 0 ∨ j = 1 ∨ j = 2 := by omega
    · exact ⟨0x0101, by decide⟩
    · exact ⟨0x0100, by decide⟩
    · exact ⟨0x01FF, by decide⟩
  · intro j k hj hk hne
    obtain rfl | rfl | rfl : k = 0 ∨ k = 1 ∨ k = 2 := by omega
    all_goals
      obtain rfl | rfl | rfl : j = 0 ∨ j = 1 ∨ j = 2 := by omega
      all_goals
        revert hne
        decide

theorem witness_RtsAfterJsrReturns : StackInRam { flat with sp := 0x01 } 2 :=
  ⟨rfl, fun j hj => stackInRam_flat.2.1 j (by omega), fun j k hj hk => stackInRam_flat.2.2 j k (by omega) (by omega)⟩

/-- BRK, irq() with I clear and nmi() all reach a next state. -/
theorem witness_RtiAfterATrapResumes : StackInRam { flat with sp := 0x01 } 3 ∧ flat.started = true ∧
    (∃ t, exec .brk { flat with sp := 0x01 } = .next t) ∧
    ({ flat with sp := 0x01 }.flag .i = false ∧ ∃ t, applyEvent .irq { flat with sp := 0x01 } = .next t) ∧
    ∃ t, applyEvent .nmi { flat with sp := 0x01 } = .next t :=
  ⟨stackInRam_flat, rfl, ⟨_, rfl⟩, ⟨by decide, _, rfl⟩, _, rfl⟩

theorem witness_ResetWritesTheCpuAlone : State.reset.read 0xFFFC = .ok 0x00 ∧ State.reset.read 0xFFFD = .ok 0x00 ∧
    FirstUnclaimed (ramUpTo 0xFFFB 0xFD) [0xFFFC, 0xFFFD] 0xFFFC ∧
    FirstUnclaimed (ramUpTo 0xFFFC 0xFD) [0xFFFC, 0xFFFD] 0xFFFD := ⟨rfl, rfl, rfl, rfl⟩

/-- Before the first reset(), after a fault, at a boundary, while counting down. -/
theorem witness_EventsOutOfPlaceAreRefused : { flat with started := false }.started = false ∧
    { flat with fault := some 0x4000 }.fault = some 0x4000 ∧ flat.started = true ∧ flat.cycles = 0 ∧
    State.reset.cycles ≠ 0 := by decide

theorem witness_StepIsTheNextCallOrOneTick : State.reset.fault = none ∧ State.reset.host = [] ∧
    { State.reset with host := [.nmi, .clock] }.host = .nmi :: [.clock] ∧ State.reset.started = true ∧
    State.reset.cycles ≠ 0 := by decide

/-- NOP at 8000, and LDA whose three bytes wrap around the top of memory. -/
def nopAt : State := { flat with mem := [(0x8000, 0xEA)] }
def ldaAtTop : State := { flat with pc := 0xFFFE, mem := [(0x0000, 0x12), (0xFFFE, 0xAD), (0xFFFF, 0x34)] }

theorem encoded_bytes_three {s : State} {b0 b1 b2 : Byte} (h0 : s.read (s.pc + BitVec.ofNat 16 0) = .ok b0)
    (h1 : s.read (s.pc + BitVec.ofNat 16 1) = .ok b1) (h2 : s.read (s.pc + BitVec.ofNat 16 2) = .ok b2) :
    ∀ (k : Nat) (v : Byte), [b0, b1, b2][k]? = some v → s.read (s.pc + BitVec.ofNat 16 k) = .ok v := by
  intro k v h
  obtain rfl | rfl | rfl | hk : k = 0 ∨ k = 1 ∨ k = 2 ∨ 3 ≤ k := by omega
  · cases h
    exact h0
  · cases h
    exact h1
  · cases h
    exact h2
  · simp [hk] at h

/-- JSR at the last claimed address, and PC at the first unclaimed one. -/
def jsrAtEnd : State := { ramUpTo 0x8000 0xFD with pc := 0x8000, mem := [(0x8000, 0x20)] }

theorem witness_StepRunsTheInstructionAtPc : ReadyToFetch ldaAtTop ∧ WellFormed (.lda (.abs 0x1234)) ∧
    (∀ (k : Nat) (v : Byte), (encode (.lda (.abs 0x1234)))[k]? = some v →
      ldaAtTop.read (ldaAtTop.pc + BitVec.ofNat 16 k) = .ok v) ∧
    (ReadyToFetch { jsrAtEnd with pc := 0x8001 } ∧ { jsrAtEnd with pc := 0x8001 }.claims 0x8001 = false) ∧
    ReadyToFetch jsrAtEnd ∧ jsrAtEnd.read jsrAtEnd.pc = .ok 0x20 ∧
    FirstUnclaimed jsrAtEnd ((List.range (formatOf 0x20).length).map fun k => jsrAtEnd.pc + BitVec.ofNat 16 k) 0x8001 :=
  ⟨⟨rfl, rfl, rfl, rfl⟩, by decide, encoded_bytes_three rfl rfl rfl, ⟨⟨rfl, rfl, rfl, rfl⟩, by decide⟩,
    ⟨rfl, rfl, rfl, rfl⟩, rfl, rfl⟩

/-- Rules R49 and R103: an operand byte that no device claims aborts the step. -/
theorem test_fetch_aborts : step jsrAtEnd = .fault (.busAbort 0x8001) := rfl

theorem witness_InstructionOccupiesItsCostInTicks : configLegal ldaAtTop.cfg ∧ ReadyToFetch ldaAtTop ∧
    WellFormed (.lda (.abs 0x1234)) ∧
    (∀ (k : Nat) (v : Byte), (encode (.lda (.abs 0x1234)))[k]? = some v →
      ldaAtTop.read (ldaAtTop.pc + BitVec.ofNat 16 k) = .ok v) ∧
    ∃ t, exec (.lda (.abs 0x1234)) ldaAtTop = .next t :=
  ⟨configLegal_default rfl, ⟨rfl, rfl, rfl, rfl⟩, by decide, encoded_bytes_three rfl rfl rfl, _, rfl⟩

theorem witness_DisassemblyReadsTheInstructions : WellFormed .nop ∧ 0x8000 ≤ 0x8000 ∧ 0x8000 ≤ 0xFFFF ∧
    ∀ (k : Nat) (v : Byte), (encode .nop)[k]? = some v → nopAt.peek (BitVec.ofNat 16 (0x8000 + k)) = .ok v := by
  refine ⟨by decide, by decide, by decide, fun k v h => ?_⟩
  have e : encode .nop = [0xEA] := rfl
  rw [e] at h
  obtain rfl | hk : k = 0 ∨ 1 ≤ k := by omega
  · cases h
    rfl
  · have : ([0xEA] : List Byte)[k]? = none := List.getElem?_eq_none (by simpa using hk)
    rw [this] at h
    cases h

/-- The walk's end, an unclaimed opcode byte, an unclaimed operand byte, enough fuel, a whole range and one that aborts. -/
theorem witness_DisassemblyReadsTheInstructions_ends : 0x8000 < 0x8001 ∧
    jsrAtEnd.claims (BitVec.ofNat 16 0x8001) = false ∧ jsrAtEnd.peek (BitVec.ofNat 16 0x8000) = .ok 0x20 ∧
    FirstUnclaimed jsrAtEnd ((List.range (formatOf 0x20).length).map fun k => BitVec.ofNat 16 (0x8000 + k)) 0x8001 ∧
    (0xFFFF#16).toNat + 1 - (0xFFFF#16).toNat ≤ 1 ∧
    nopAt.disassemble 0x8000 0x8000 = .ok [{ address := 0x8000, instr := .nop }] ∧
    jsrAtEnd.disassemble 0x8000 0x8000 = .error (.busAbort 0x8001) :=
  ⟨by decide, by decide, rfl, rfl, by decide, rfl, rfl⟩

/-- An operand, a pointer byte, a pushed, a pulled and a vector byte that no device claims, and an instruction that
completes with all its accesses claimed. -/
theorem witness_InstructionsOnlyAbortOnUnclaimedAddresses : WellFormed (.lda (.abs 0x4000)) ∧
    AddressIs (.lda (.abs 0x4000)) State.reset { addr := 0x4000, crossed := false } ∧
    FirstUnclaimed State.reset (operationAddresses State.reset { addr := 0x4000, crossed := false } (.lda (.abs 0x4000)))
      0x4000 ∧
    FirstUnclaimed (ramUpTo 0x00FE 0xFD) (pointerAddresses (ramUpTo 0x00FE 0xFD) (.izy 0xFE)) 0x00FF ∧
    FirstUnclaimed (ramUpTo 0x10FF 0xFD) (pointerAddresses (ramUpTo 0x10FF 0xFD) (.ind 0x1100)) 0x1100 ∧
    (∀ ea, FirstUnclaimed (ramUpTo 0x01FE 0x00) (operationAddresses (ramUpTo 0x01FE 0x00) ea (.jsr 0x9000)) 0x01FF) ∧
    (∀ ea, FirstUnclaimed (ramUpTo 0x01FE 0xFD) (operationAddresses (ramUpTo 0x01FE 0xFD) ea .rts) 0x01FF) ∧
    (∀ ea, FirstUnclaimed (ramUpTo 0xFFFE 0xFD) (operationAddresses (ramUpTo 0xFFFE 0xFD) ea .brk) 0xFFFF) ∧
    (∀ a ∈ pointerAddresses flat (.abs 0x4000), flat.claims a = true) ∧
    ∀ a ∈ operationAddresses flat { addr := 0x4000, crossed := false } (.lda (.abs 0x4000)), flat.claims a = true :=
  ⟨by decide, rfl, rfl, rfl, rfl, fun _ => rfl, fun _ => rfl, fun _ => rfl, fun a _ => flat_claims a,
    fun a _ => flat_claims a⟩

/-- Rule R49: the pull of an unclaimed stack byte, and the write of an unclaimed one, abort with its address. -/
theorem test_instruction_aborts : exec .rts (ramUpTo 0x01FE 0xFD) = .fault (.busAbort 0x01FF) ∧
    exec (.sta (.abs 0x4000)) State.reset = .fault (.busAbort 0x4000) := ⟨rfl, rfl⟩

theorem witness_EveryInstructionCompletesOnAClaimedBus : WellFormed .brk ∧ ∀ a, flat.claims a = true :=
  ⟨by decide, flat_claims⟩

/-- The invariant holds in a state an instruction steps from. -/
theorem witness_EveryStepKeepsTheInvariant : nopAt.Inv ∧ ∃ t, step nopAt = .next t := ⟨by decide, _, rfl⟩

theorem witness_EveryStepKeepsTheConfiguration : (∃ t, step nopAt = .next t) ∧ nopAt.started = true := ⟨⟨_, rfl⟩, rfl⟩

/-- Instructions outside and inside the named lists complete. -/
theorem witness_OnlyTheNamedInstructionsWriteARegister :
    (∃ t, exec (.cmp (.imm 0x10)) flat = .next t) ∧ (∃ t, exec (.asl (.zp0 0x10)) flat = .next t) ∧
      ∃ t, exec .rti flat = .next t := ⟨⟨_, rfl⟩, ⟨_, rfl⟩, _, rfl⟩

theorem witness_OnlyTheNamedInstructionsWriteAFlag :
    (∃ t, exec .txs flat = .next t) ∧ ∃ t, exec .clv flat = .next t := ⟨⟨_, rfl⟩, _, rfl⟩

/-- An instruction that does not store, an accumulator form, a store, a push, JSR and BRK, each with another address. -/
theorem witness_InstructionsStoreOnlyWhereTheySay :
    (∃ t, exec (.lda (.zp0 0x10)) flat = .next t) ∧ (∃ t, exec (.asl .imp) flat = .next t) ∧
      (∃ t, exec (.sta (.zp0 0x10)) flat = .next t) ∧
      AddressIs (.sta (.zp0 0x10)) flat { addr := 0x0010, crossed := false } ∧
      flat.target 0x0011 ≠ flat.target 0x0010 ∧ (∃ t, exec .pha flat = .next t) ∧
      flat.target 0x01FC ≠ flat.target (0x0100#16 + flat.sp.setWidth 16) ∧ (∃ t, exec (.jsr 0x9000) flat = .next t) ∧
      (∀ n ∈ [0, 1], flat.target 0x01FB ≠ flat.target (0x0100#16 + (flat.sp - BitVec.ofNat 8 n).setWidth 16)) ∧
      (∃ t, exec .brk flat = .next t) ∧
      ∀ n ∈ [0, 1, 2], flat.target 0x01FA ≠ flat.target (0x0100#16 + (flat.sp - BitVec.ofNat 8 n).setWidth 16) :=
  ⟨⟨_, rfl⟩, ⟨_, rfl⟩, ⟨_, rfl⟩, rfl, by decide, ⟨_, rfl⟩, by decide, ⟨_, rfl⟩, by decide, ⟨_, rfl⟩, by decide⟩

theorem witness_DecimalFlagChangesNoResult : (Instr.adc (.imm 0x01)).mnemonic ∉ [.php, .brk, .plp, .rti, .cld, .sed] ∧
    ∃ t, exec (.adc (.imm 0x01)) { flat with a := 0x09 } = .next t := ⟨by decide, _, rfl⟩

end Sys2Proof.Tests
end

section
/-! Registering a device (rule R47): what `mapDevice` answers, and the decode table of the wiring it answers. -/

namespace Sys2Proof.Machine

/-- Whether a registration is accepted depends on the device alone, whatever earlier ranges it overlaps (rule R47). -/
theorem mapDevice_ok {cfg cfg' : Config} {d : Device} :
    mapDevice cfg d = .ok cfg' ↔ wiringError d = none ∧ { cfg with wiring := cfg.wiring ++ [d] } = cfg' := by
  unfold mapDevice
  cases wiringError d <;> simp

/-- The decode table after one more registration: the new device takes its range (rules R20 and R47). -/
theorem target_wiring_append (s : State) (d : Device) (a : Addr) :
    { s with cfg := { s.cfg with wiring := s.cfg.wiring ++ [d] } }.target a =
      if d.start ≤ a.toNat ∧ a.toNat ≤ d.stop then some (targetIn s.cfg.wiring.length d a.toNat) else s.target a := by
  simp only [State.target, claimFrom_append, Nat.zero_add]
  split
  · rfl
  · rfl

/-- Settles O7: an accepted registration stands last in the wiring, and the last registration claims its range. -/
theorem laterRegistrationWins : Obligations.LaterRegistrationWins := by
  intro s d cfg h a
  obtain ⟨-, rfl⟩ := mapDevice_ok.mp h
  exact target_wiring_append s d a

end Sys2Proof.Machine
end

section
/-! ADC (rule R140): the state it leaves, and the flags of an addition. -/

namespace Sys2Proof.Machine

/-- The flags of an addition in a status that enters with U set: C and V of the sum, Z and N of the result. -/
theorem flagsAre_addStatus (p a m : Byte) :
    FlagsAre (addStatus (putFlag p .u true) a m) p
      ([(.c, addCarry a m (getFlag p .c)), (.v, addOverflow a m (addByte a m (getFlag p .c)))] ++
        resultFlags (addByte a m (getFlag p .c))) := by
  intro f
  have hc : getFlag (putFlag p .u true) .c = getFlag p .c := getFlag_after p (by decide)
  rw [getFlag_addStatus, hc]
  cases f <;> simp [resultFlags, List.lookup, msb_decide, byte_beq, getFlag_putFlag]

/-- The encodings of rule R140. -/
theorem adc_encodings :
    Encodings .adc [(.imm, 0x69, 2), (.zp0, 0x65, 3), (.zpx, 0x75, 4), (.abs, 0x6D, 4), (.abx, 0x7D, 4),
      (.aby, 0x79, 4), (.izx, 0x61, 6), (.izy, 0x71, 5)] :=
  ⟨fun m => by cases m <;> rfl, by decide⟩

/-- ADC where its operand is readable: A and P of the addition, over the state every instruction leaves. -/
theorem exec_adc_next {m : Operand} {s : State} {ea : Ea} {v : Byte} (hwf : WellFormed (.adc m))
    (h : OperandIs (.adc m) s ea v) :
    exec (.adc m) s = .next { s.after (.adc m) (extraCycles s.cfg .adc ea.crossed) with
      a := addByte s.a v (s.flag .c), p := addStatus (putFlag s.p .u true) s.a v } := by
  have hnext := executeRead_after (i := .adc m) (mn := .adc)
    (operation := fun v t => (t.setP (addStatus t.p t.a v)).setA (addByte t.a v (t.flag .c)))
    rfl hwf.1 (by decide) h
  rw [after_a, after_p, flag_c_after] at hnext
  exact hnext

/-- Settles O20: the carry and the overflow of the addition are those of the unsigned and of the signed sum. -/
theorem adcAddsWithCarry : Obligations.AdcAddsWithCarry := by
  refine ⟨adc_encodings, by decide, fun m s ea v hwf h => ?_⟩
  refine ⟨_, _, exec_adc_next hwf h, addByte_toNat s.a v (s.flag .c), ?_⟩
  have hflags := flagsAre_addStatus s.p s.a v
  rw [addCarry_eq, addOverflow_eq] at hflags
  exact hflags

end Sys2Proof.Machine
end

section
/-! Shifts and rotates (rules R150 to R153): where a read-modify-write instruction puts its result, the flags of a
shift, and the one argument the four mnemonics share. -/

namespace Sys2Proof.Machine

/-- The accumulator form is the one operand of format IMP. -/
theorem mode_eq_imp {m : Operand} : m.mode = .imp ↔ m = .imp := by
  cases m <;> simp [Operand.mode]

/-- In accumulator form a write-back goes to A (rule R133). -/
theorem writeback_of_eq_imp {m : Operand} (h : m = .imp) (ea : Ea) (v : Byte) (s : State) :
    writeback m ea v s = .ok (s.setA v) := by
  subst h
  rfl

/-- Outside the accumulator form a write-back is one write at the effective address (rule R133). -/
theorem writeback_of_ne_imp {m : Operand} (h : m ≠ .imp) (ea : Ea) (v : Byte) (s : State) :
    writeback m ea v s = s.write ea.addr v := by
  unfold writeback
  split
  · exact absurd rfl h
  · rfl

/-- A read-modify-write instruction in accumulator form: the result in A, and no cycle beyond the base cost. -/
theorem executeModify_accumulator {i : Instr} {mn : Mnemonic} {result status : Byte → Byte → Byte} {s : State} {ea : Ea}
    {v : Byte} (hi : i.opcode = opcodeOf mn i.operand.mode) (hwf : i.operand.mode ∈ mn.modes) (hne : mn ≠ .undoc)
    (h : OperandIs i s ea v) (himp : i.operand = .imp) :
    executeModify mn i.operand result status s = .next { s.after i 0 with
      a := result (putFlag s.p .u true) v, p := status (putFlag s.p .u true) v } := by
  have hea : ea = { addr := 0, crossed := false } := Except.ok.inj (h.1.symm.trans (address_imp himp s))
  rw [executeModify_after hi hwf hne h (writeback_of_eq_imp himp _ _ _), hea]
  rfl

/-- A read-modify-write instruction in memory form: the operand was read at the effective address, so a device claims
it, and the result is written there once. -/
theorem executeModify_memory {i : Instr} {mn : Mnemonic} {result status : Byte → Byte → Byte} {s : State} {ea : Ea}
    {v : Byte} (hi : i.opcode = opcodeOf mn i.operand.mode) (hwf : i.operand.mode ∈ mn.modes) (hne : mn ≠ .undoc)
    (h : OperandIs i s ea v) (himp : i.operand ≠ .imp) (himm : i.operand.mode ≠ .imm) :
    ∃ w, s.write ea.addr (result (putFlag s.p .u true) v) = .ok w ∧
      executeModify mn i.operand result status s = .next { s.after i (extraCycles s.cfg mn ea.crossed) with
        mem := w.mem, prgBank := w.prgBank, chrBank := w.chrBank, p := status (putFlag s.p .u true) v } := by
  obtain ⟨t, ht⟩ := target_of_operandIs h (mode_eq_imp.not.mpr himp) himm
  have hw := write_of_target s ht (result (putFlag s.p .u true) v)
  refine ⟨_, hw, ?_⟩
  rw [executeModify_after hi hwf hne h
    ((writeback_of_ne_imp himp _ _ _).trans (write_congr (s := s) rfl rfl rfl rfl rfl hw))]
  simp [State.addCycles, State.setCycles, State.setP, State.after]

/-- The flags of a shift in a status that enters with U set: C the bit shifted out, Z and N of the result. -/
theorem flagsAre_shiftStatus (p : Byte) (out : Bool) (r : Byte) :
    FlagsAre (shiftStatus (putFlag p .u true) out r) p ([(.c, out)] ++ resultFlags r) := by
  intro f
  rw [getFlag_shiftStatus]
  cases f <;> simp [resultFlags, List.lookup, msb_decide, byte_beq, getFlag_putFlag]

/-- A meaning that shifts its operand, with the old carry at hand, is a shift in both forms. -/
theorem shiftIs_of_executeModify {f : Operand → Instr} {mn : Mnemonic} {shift : Byte → Bool → Byte} {out : Byte → Bool}
    {result : Byte → Nat → Nat} {carry : Byte → Bool} (hmn : ∀ m, (f m).mnemonic = mn) (hm : ∀ m, (f m).operand = m)
    (hexec : ∀ m s, exec (f m) s = executeModify mn (f m).operand (fun p v => shift v (getFlag p .c))
      (fun p v => shiftStatus p (out v) (shift v (getFlag p .c))) s)
    (hne : mn ≠ .undoc) (himm : .imm ∉ mn.modes)
    (hresult : ∀ v c, (shift v c).toNat = result v c.toNat) (hout : ∀ v, out v = carry v) :
    ShiftIs f mn result carry := by
  intro m s ea v hwf h
  have hi : (f m).opcode = opcodeOf mn (f m).operand.mode := by
    rw [opcode_eq (hmn m ▸ hne), hmn m]
  have hmode : (f m).operand.mode ∈ mn.modes := hmn m ▸ hwf.1
  have hc : getFlag (putFlag s.p .u true) .c = s.flag .c := getFlag_after s.p (by decide)
  refine ⟨shift v (s.flag .c), shiftStatus (putFlag s.p .u true) (out v) (shift v (s.flag .c)), hresult v _,
    hout v ▸ flagsAre_shiftStatus s.p (out v) _, fun himp => ?_, fun himp => ?_⟩
  · rw [hexec, executeModify_accumulator hi hmode hne h ((hm m).trans himp), hc]
  · have hnext := executeModify_memory (result := fun p v => shift v (getFlag p .c))
      (status := fun p v => shiftStatus p (out v) (shift v (getFlag p .c)))
      hi hmode hne h ((hm m).symm ▸ himp) (fun e => himm (e ▸ hmode))
    rw [← hexec, hc] at hnext
    exact hnext

/-- The encodings of rules R150 to R153. -/
theorem shift_encodings :
    Encodings .asl [(.imp, 0x0A, 2), (.zp0, 0x06, 5), (.zpx, 0x16, 6), (.abs, 0x0E, 6), (.abx, 0x1E, 7)] ∧
      Encodings .lsr [(.imp, 0x4A, 2), (.zp0, 0x46, 5), (.zpx, 0x56, 6), (.abs, 0x4E, 6), (.abx, 0x5E, 7)] ∧
      Encodings .rol [(.imp, 0x2A, 2), (.zp0, 0x26, 5), (.zpx, 0x36, 6), (.abs, 0x2E, 6), (.abx, 0x3E, 7)] ∧
      Encodings .ror [(.imp, 0x6A, 2), (.zp0, 0x66, 5), (.zpx, 0x76, 6), (.abs, 0x6E, 6), (.abx, 0x7E, 7)] := by
  refine ⟨⟨fun m => ?_, by decide⟩, ⟨fun m => ?_, by decide⟩, ⟨fun m => ?_, by decide⟩, ⟨fun m => ?_, by decide⟩⟩ <;>
    cases m <;> rfl

/-- ASL is a shift: bit 7 leaves into the carry (rule R150). -/
theorem asl_shiftIs : ShiftIs .asl .asl (fun v _ => v.toNat * 2 % 256) (fun v => decide (128 ≤ v.toNat)) :=
  shiftIs_of_executeModify (shift := fun v _ => aslByte v) (out := BitVec.msb) (fun _ => rfl) (fun _ => rfl)
    (fun _ _ => rfl) (by decide) (by decide) (fun v _ => aslByte_toNat v) msb_decide

/-- LSR is a shift: bit 0 leaves into the carry (rule R151). -/
theorem lsr_shiftIs : ShiftIs .lsr .lsr (fun v _ => v.toNat / 2) (fun v => decide (v.toNat % 2 = 1)) :=
  shiftIs_of_executeModify (shift := fun v _ => lsrByte v) (out := fun v => v.getLsbD 0) (fun _ => rfl) (fun _ => rfl)
    (fun _ _ => rfl) (by decide) (by decide) (fun v _ => lsrByte_toNat v) lsb_decide

/-- ROL is a shift: bit 7 leaves into the carry, and the old carry enters bit 0 (rule R152). -/
theorem rol_shiftIs : ShiftIs .rol .rol (fun v c => (v.toNat * 2 + c) % 256) (fun v => decide (128 ≤ v.toNat)) :=
  shiftIs_of_executeModify (shift := rolByte) (out := BitVec.msb) (fun _ => rfl) (fun _ => rfl)
    (fun _ _ => rfl) (by decide) (by decide) rolByte_toNat msb_decide

/-- ROR is a shift: bit 0 leaves into the carry, and the old carry enters bit 7 (rule R153). -/
theorem ror_shiftIs : ShiftIs .ror .ror (fun v c => c * 128 + v.toNat / 2) (fun v => decide (v.toNat % 2 = 1)) :=
  shiftIs_of_executeModify (shift := rorByte) (out := fun v => v.getLsbD 0) (fun _ => rfl) (fun _ => rfl)
    (fun _ _ => rfl) (by decide) (by decide) rorByte_toNat lsb_decide

/-- Settles O22: all four mnemonics are shifts of one shape, which reads the old carry before it writes the new one. -/
theorem shiftsMoveByOneBit : Obligations.ShiftsMoveByOneBit := by
  obtain ⟨hasl, hlsr, hrol, hror⟩ := shift_encodings
  exact ⟨hasl, hlsr, hrol, hror, by decide, asl_shiftIs, lsr_shiftIs, rol_shiftIs, ror_shiftIs⟩

end Sys2Proof.Machine
end

section
/-! Compares (rules R160 to R162): the flags of a comparison, and the one argument the three mnemonics share. -/

namespace Sys2Proof.Machine

/-- A difference is zero exactly between equal bytes. -/
theorem sub_beq_zero (r m : Byte) : (r - m == 0) = decide (r = m) := by
  rw [byte_beq, decide_eq_decide]
  exact sub_eq_zero

/-- Bit 7 of the 8-bit difference, which wraps below zero. -/
theorem msb_sub (r m : Byte) : (r - m).msb = decide (128 ≤ (r.toNat + 256 - m.toNat) % 256) := by
  have hdiff : (r - m).toNat = (r.toNat + 256 - m.toNat) % 256 := by bv_omega
  rw [msb_decide, hdiff]

/-- The flags of a comparison in a status that enters with U set: C, Z and N of the register against the operand. -/
theorem flagsAre_compareStatus (p r m : Byte) :
    FlagsAre (compareStatus (putFlag p .u true) r m) p [(.c, decide (m.toNat ≤ r.toNat)), (.z, decide (r = m)),
      (.n, decide (128 ≤ (r.toNat + 256 - m.toNat) % 256))] := by
  intro f
  rw [getFlag_compareStatus, sub_beq_zero, msb_sub]
  cases f <;> simp [List.lookup, getFlag_putFlag]

/-- A meaning that only writes the status of comparing a register with its operand is a compare. -/
theorem compareIs_of_executeRead {f : Operand → Instr} {mn : Mnemonic} {register : State → Byte}
    (hmn : ∀ m, (f m).mnemonic = mn)
    (hexec : ∀ m s, exec (f m) s =
      executeRead mn (f m).operand (fun v t => t.setP (compareStatus t.p (register t) v)) s)
    (hne : mn ≠ .undoc) (hregister : ∀ s i, register (s.after i 0) = register s) : CompareIs f mn register := by
  intro m s ea v hwf h
  have hi : (f m).opcode = opcodeOf mn (f m).operand.mode := by
    rw [opcode_eq (hmn m ▸ hne), hmn m]
  have hmode : (f m).operand.mode ∈ mn.modes := hmn m ▸ hwf.1
  refine ⟨compareStatus (putFlag s.p .u true) (register s) v, ?_, flagsAre_compareStatus s.p (register s) v⟩
  rw [hexec, executeRead_after hi hmode hne h, hregister]
  rfl

/-- The encodings of rules R160 to R162. -/
theorem compare_encodings :
    Encodings .cmp [(.imm, 0xC9, 2), (.zp0, 0xC5, 3), (.zpx, 0xD5, 4), (.abs, 0xCD, 4), (.abx, 0xDD, 4),
        (.aby, 0xD9, 4), (.izx, 0xC1, 6), (.izy, 0xD1, 5)] ∧
      Encodings .cpx [(.imm, 0xE0, 2), (.zp0, 0xE4, 3), (.abs, 0xEC, 4)] ∧
      Encodings .cpy [(.imm, 0xC0, 2), (.zp0, 0xC4, 3), (.abs, 0xCC, 4)] := by
  refine ⟨⟨fun m => ?_, by decide⟩, ⟨fun m => ?_, by decide⟩, ⟨fun m => ?_, by decide⟩⟩ <;> cases m <;> rfl

/-- CMP compares A (rule R160). -/
theorem cmp_compareIs : CompareIs .cmp .cmp State.a :=
  compareIs_of_executeRead (fun _ => rfl) (fun _ _ => rfl) (by decide) fun s i => after_a s i 0

/-- CPX compares X (rule R161). -/
theorem cpx_compareIs : CompareIs .cpx .cpx State.x :=
  compareIs_of_executeRead (fun _ => rfl) (fun _ _ => rfl) (by decide) fun s i => after_x s i 0

/-- CPY compares Y (rule R162). -/
theorem cpy_compareIs : CompareIs .cpy .cpy State.y :=
  compareIs_of_executeRead (fun _ => rfl) (fun _ _ => rfl) (by decide) fun s i => after_y s i 0

/-- Settles O23: the three mnemonics make one comparison, and its status is all they write. -/
theorem comparesSetCarryZeroNegative : Obligations.ComparesSetCarryZeroNegative := by
  obtain ⟨hcmp, hcpx, hcpy⟩ := compare_encodings
  exact ⟨hcmp, hcpx, hcpy, by decide, by decide, by decide, cmp_compareIs, cpx_compareIs, cpy_compareIs⟩

end Sys2Proof.Machine
end

section
/-! JMP (rule R189): its two addressing modes request no extra cycle, so all it adds to the common part is PC. -/

namespace Sys2Proof.Machine

/-- Only the indexed modes ABX, ABY and IZY can request an extra cycle (rules R128, R129 and R132). -/
theorem crossed_of_effective {m : Operand} {s : State} {ea : Ea} (hm : m.mode ∉ [.abx, .aby, .izy])
    (h : effective m s = .ok ea) : ea.crossed = false := by
  cases m with
  | abx _ | aby _ | izy _ => exact absurd hm (by simp [Operand.mode])
  | ind _ | izx _ =>
    obtain ⟨target, -, htarget⟩ := access_bind_ok.mp h
    cases htarget
    rfl
  | _ =>
    cases h
    rfl

/-- Where the addressing mode requests no extra cycle, none is charged (rule R134). -/
@[simp] theorem extraCycles_false (cfg : Config) (mn : Mnemonic) : extraCycles cfg mn false = 0 := rfl

/-- The encodings of rule R189. -/
theorem jmp_encodings : Encodings .jmp [(.abs, 0x4C, 3), (.ind, 0x6C, 5)] :=
  ⟨fun m => by cases m <;> rfl, by decide⟩

/-- No format of JMP requests an extra cycle. -/
theorem jmp_modes_not_indexed {md : Mode} (h : md ∈ Mnemonic.jmp.modes) : md ∉ [.abx, .aby, .izy] := by
  revert md
  decide

/-- JMP where its addressing mode answers: PC at the effective address, over the state every instruction leaves. -/
theorem exec_jmp_next {m : Operand} {s : State} {ea : Ea} (hwf : WellFormed (.jmp m)) (h : AddressIs (.jmp m) s ea) :
    exec (.jmp m) s = .next { s.after (.jmp m) 0 with pc := ea.addr } := by
  have hnext : exec (.jmp m) s =
      .next (((s.after (.jmp m) 0).setPc ea.addr).addCycles (extraCycles s.cfg .jmp ea.crossed)) :=
    execute_after (i := .jmp m) rfl hwf.1 (by decide) h rfl
  rw [hnext, crossed_of_effective (jmp_modes_not_indexed hwf.1) h, extraCycles_false]
  rfl

/-- Settles O34: neither form requests an extra cycle, and the operation only writes PC. -/
theorem jumpsGoToTheEffectiveAddress : Obligations.JumpsGoToTheEffectiveAddress :=
  ⟨jmp_encodings, fun _ _ _ => exec_jmp_next⟩

end Sys2Proof.Machine
end

section
/-! Loads, stores, increments and decrements of memory (rules R201 to R206, R213 and R216): the one argument the
mnemonics of each shape share. -/

namespace Sys2Proof.Machine

/-- The encoder's opcode byte of a documented instruction, by its mnemonic (rule R104). -/
theorem opcode_eq_of_mnemonic {i : Instr} {mn : Mnemonic} (h : i.mnemonic = mn) (hne : mn ≠ .undoc) :
    i.opcode = opcodeOf mn i.operand.mode := by
  subst h
  exact opcode_eq hne

/-- `put` writes a register and neither reads nor writes P and the cycle counter: the flags of the byte and the
extra cycles are the same before it as after it. -/
def PutsRegister (put : State → Byte → State) : Prop :=
  ∀ (t : State) (r : Byte) (k : Nat),
    ((put t r).setResultFlags r).addCycles k = { put (t.addCycles k) r with p := setZN t.p r }

theorem putsRegister_setA : PutsRegister State.setA := fun _ _ _ => rfl
theorem putsRegister_setX : PutsRegister State.setX := fun _ _ _ => rfl
theorem putsRegister_setY : PutsRegister State.setY := fun _ _ _ => rfl

/-- The common part of an instruction, then a register and the flags of its byte, then the extra cycles. -/
theorem put_after_addCycles {put : State → Byte → State} (hput : PutsRegister put) (s : State) (i : Instr) (r : Byte)
    (k : Nat) : ((put (s.after i 0) r).setResultFlags r).addCycles k =
      { put (s.after i k) r with p := setZN (putFlag s.p .u true) r } := by
  rw [hput, after_addCycles, Nat.zero_add, after_p]

section Shapes

variable {f : Operand → Instr} {mn : Mnemonic} {put : State → Byte → State} {result : State → Byte → Byte}
  {register : State → Byte} {step : Byte → Byte} {delta : Nat}

variable (hmn : ∀ m, (f m).mnemonic = mn) (hne : mn ≠ .undoc)

include hmn hne

/-- A meaning that puts a byte computed from its operand in a register, with Z and N of that byte, is a read
instruction of rule R133. -/
theorem readIs_of_executeRead
    (hexec : ∀ m s, exec (f m) s =
      executeRead mn (f m).operand (fun v t => (put t (result t v)).setResultFlags (result t v)) s)
    (hput : PutsRegister put) (hresult : ∀ s i v, result (s.after i 0) v = result s v) : ReadIs f mn put result := by
  intro m s ea v hwf h
  have hmode : (f m).operand.mode ∈ mn.modes := hmn m ▸ hwf.1
  refine ⟨setZN (putFlag s.p .u true) (result s v), ?_, flagsAre_setZN s.p (result s v)⟩
  rw [hexec, executeRead_after (opcode_eq_of_mnemonic (hmn m) hne) hmode hne h, hresult, put_after_addCycles hput]

/-- A meaning that writes a register at its effective address is a store. -/
theorem storeIs_of_executeStore
    (hexec : ∀ m s, exec (f m) s = executeStore mn (f m).operand register s)
    (hregister : ∀ s i, register (s.after i 0) = register s) : StoreIs f mn register := by
  intro m s w ea hwf h hw
  have hmode : (f m).operand.mode ∈ mn.modes := hmn m ▸ hwf.1
  rw [hexec]
  exact executeStore_after (opcode_eq_of_mnemonic (hmn m) hne) hmode hne h ((hregister s (f m)).symm ▸ hw)

/-- A read-modify-write meaning with memory forms only, whose result is its operand plus `delta` modulo 256 with Z and N
of that byte, steps memory. -/
theorem stepMemoryIs_of_executeModify
    (hexec : ∀ m s, exec (f m) s =
      executeModify mn (f m).operand (fun _ v => step v) (fun p v => setZN p (step v)) s)
    (himp : .imp ∉ mn.modes) (himm : .imm ∉ mn.modes) (hstep : ∀ v, (step v).toNat = (v.toNat + delta) % 256) :
    StepMemoryIs f mn delta := by
  intro m s ea v hwf h
  have hmode : (f m).operand.mode ∈ mn.modes := hmn m ▸ hwf.1
  have hmemory : (f m).operand ≠ .imp := fun e => himp (mode_eq_imp.mpr e ▸ hmode)
  obtain ⟨w, hw, hnext⟩ := executeModify_memory (result := fun _ v => step v) (status := fun p v => setZN p (step v))
    (opcode_eq_of_mnemonic (hmn m) hne) hmode hne h hmemory (fun e => himm (e ▸ hmode))
  exact ⟨step v, _, w, hstep v, flagsAre_setZN s.p (step v), hw, (hexec m s).trans hnext⟩

end Shapes

/-- The encodings of rules R201 to R203. -/
theorem load_encodings :
    Encodings .lda [(.imm, 0xA9, 2), (.zp0, 0xA5, 3), (.zpx, 0xB5, 4), (.abs, 0xAD, 4), (.abx, 0xBD, 4),
        (.aby, 0xB9, 4), (.izx, 0xA1, 6), (.izy, 0xB1, 5)] ∧
      Encodings .ldx [(.imm, 0xA2, 2), (.zp0, 0xA6, 3), (.zpy, 0xB6, 4), (.abs, 0xAE, 4), (.aby, 0xBE, 4)] ∧
      Encodings .ldy [(.imm, 0xA0, 2), (.zp0, 0xA4, 3), (.zpx, 0xB4, 4), (.abs, 0xAC, 4), (.abx, 0xBC, 4)] := by
  refine ⟨⟨fun m => ?_, by decide⟩, ⟨fun m => ?_, by decide⟩, ⟨fun m => ?_, by decide⟩⟩ <;> cases m <;> rfl

/-- LDA puts its operand in A (rule R201). -/
theorem lda_readIs : ReadIs .lda .lda State.setA (fun _ v => v) :=
  readIs_of_executeRead (fun _ => rfl) (by decide) (fun _ _ => rfl) putsRegister_setA fun _ _ _ => rfl

/-- LDX puts its operand in X (rule R202). -/
theorem ldx_readIs : ReadIs .ldx .ldx State.setX (fun _ v => v) :=
  readIs_of_executeRead (fun _ => rfl) (by decide) (fun _ _ => rfl) putsRegister_setX fun _ _ _ => rfl

/-- LDY puts its operand in Y (rule R203). -/
theorem ldy_readIs : ReadIs .ldy .ldy State.setY (fun _ v => v) :=
  readIs_of_executeRead (fun _ => rfl) (by decide) (fun _ _ => rfl) putsRegister_setY fun _ _ _ => rfl

/-- Settles O27: the three loads are read instructions whose result is the operand byte itself. -/
theorem loadsReadTheOperand : Obligations.LoadsReadTheOperand := by
  obtain ⟨hlda, hldx, hldy⟩ := load_encodings
  exact ⟨hlda, hldx, hldy, by decide, lda_readIs, ldx_readIs, ldy_readIs⟩

/-- The encodings of rules R204 to R206. -/
theorem store_encodings :
    Encodings .sta [(.zp0, 0x85, 3), (.zpx, 0x95, 4), (.abs, 0x8D, 4), (.abx, 0x9D, 5), (.aby, 0x99, 5),
        (.izx, 0x81, 6), (.izy, 0x91, 6)] ∧
      Encodings .stx [(.zp0, 0x86, 3), (.zpy, 0x96, 4), (.abs, 0x8E, 4)] ∧
      Encodings .sty [(.zp0, 0x84, 3), (.zpx, 0x94, 4), (.abs, 0x8C, 4)] := by
  refine ⟨⟨fun m => ?_, by decide⟩, ⟨fun m => ?_, by decide⟩, ⟨fun m => ?_, by decide⟩⟩ <;> cases m <;> rfl

/-- STA stores A (rule R204). -/
theorem sta_storeIs : StoreIs .sta .sta State.a :=
  storeIs_of_executeStore (fun _ => rfl) (by decide) (fun _ _ => rfl) fun s i => after_a s i 0

/-- STX stores X (rule R205). -/
theorem stx_storeIs : StoreIs .stx .stx State.x :=
  storeIs_of_executeStore (fun _ => rfl) (by decide) (fun _ _ => rfl) fun s i => after_x s i 0

/-- STY stores Y (rule R206). -/
theorem sty_storeIs : StoreIs .sty .sty State.y :=
  storeIs_of_executeStore (fun _ => rfl) (by decide) (fun _ _ => rfl) fun s i => after_y s i 0

/-- Settles O28: the three stores write a register that the common part of the instruction left alone. -/
theorem storesWriteTheRegister : Obligations.StoresWriteTheRegister := by
  obtain ⟨hsta, hstx, hsty⟩ := store_encodings
  exact ⟨hsta, hstx, hsty, by decide, sta_storeIs, stx_storeIs, sty_storeIs⟩

/-- The byte above, which wraps at 0xFF. -/
theorem byte_add_one_toNat (v : Byte) : (v + 1).toNat = (v.toNat + 1) % 256 := by bv_omega

/-- The byte below, which wraps at 0x00. -/
theorem byte_sub_one_toNat (v : Byte) : (v - 1).toNat = (v.toNat + 255) % 256 := by bv_omega

/-- The encodings of rules R213 and R216. -/
theorem stepMemory_encodings :
    Encodings .inc [(.zp0, 0xE6, 5), (.zpx, 0xF6, 6), (.abs, 0xEE, 6), (.abx, 0xFE, 7)] ∧
      Encodings .dec [(.zp0, 0xC6, 5), (.zpx, 0xD6, 6), (.abs, 0xCE, 6), (.abx, 0xDE, 7)] := by
  refine ⟨⟨fun m => ?_, by decide⟩, ⟨fun m => ?_, by decide⟩⟩ <;> cases m <;> rfl

/-- INC adds 1 (rule R213). -/
theorem inc_stepMemoryIs : StepMemoryIs .inc .inc 1 :=
  stepMemoryIs_of_executeModify (step := (· + 1)) (fun _ => rfl) (by decide) (fun _ _ => rfl) (by decide) (by decide)
    byte_add_one_toNat

/-- DEC adds 255, which is subtracting 1 (rule R216). -/
theorem dec_stepMemoryIs : StepMemoryIs .dec .dec 255 :=
  stepMemoryIs_of_executeModify (step := (· - 1)) (fun _ => rfl) (by decide) (fun _ _ => rfl) (by decide) (by decide)
    byte_sub_one_toNat

/-- Settles O30: both mnemonics write their result where they read their operand, so a device claims the address. -/
theorem incAndDecStepMemory : Obligations.IncAndDecStepMemory := by
  obtain ⟨hinc, hdec⟩ := stepMemory_encodings
  exact ⟨hinc, hdec, by decide, by decide, inc_stepMemoryIs, dec_stepMemoryIs⟩

end Sys2Proof.Machine
end

section
/-! Transfers, increments and decrements of the index registers, and the flag instructions (rules R207 to R212, R214,
R215 and R217 to R225): instructions of format IMP without a bus access, which complete in every state. -/

namespace Sys2Proof.Machine

/-- An instruction of format IMP without a bus access: its operation, over the state every instruction leaves. -/
theorem executeImplied_after {i : Instr} {operation : State → State} (hwf : WellFormed i) (hne : i.mnemonic ≠ .undoc)
    (himp : i.operand = .imp) (s : State) :
    executeImplied i.mnemonic operation s = .next (operation (s.after i 0)) := by
  have hnext := execute_after (operation := fun _ t => .ok (operation t)) (opcode_eq hne) hwf.1 hne
    (address_imp himp s) rfl
  rw [himp] at hnext
  exact hnext

/-- A meaning of format IMP that puts a byte of the state in a register, with Z and N of that byte. -/
theorem exec_puts_register {i : Instr} {put : State → Byte → State} {value : State → Byte} (hwf : WellFormed i)
    (hne : i.mnemonic ≠ .undoc) (himp : i.operand = .imp)
    (hexec : ∀ s, exec i s = executeImplied i.mnemonic (fun t => (put t (value t)).setResultFlags (value t)) s)
    (hput : PutsRegister put) (hvalue : ∀ s, value (s.after i 0) = value s) (s : State) :
    ∃ p, exec i s = .next { put (s.after i 0) (value s) with p := p } ∧ FlagsAre p s.p (resultFlags (value s)) := by
  refine ⟨setZN (putFlag s.p .u true) (value s), ?_, flagsAre_setZN s.p (value s)⟩
  rw [hexec, executeImplied_after hwf hne himp, hvalue, ← put_after_addCycles hput s i (value s) 0]
  rfl

/-- The encodings of rules R207 to R212. -/
theorem transfer_encodings :
    EncodedAs .tax 0xAA 2 ∧ EncodedAs .tay 0xA8 2 ∧ EncodedAs .tsx 0xBA 2 ∧ EncodedAs .txa 0x8A 2 ∧
      EncodedAs .txs 0x9A 2 ∧ EncodedAs .tya 0x98 2 :=
  ⟨⟨rfl, rfl⟩, ⟨rfl, rfl⟩, ⟨rfl, rfl⟩, ⟨rfl, rfl⟩, ⟨rfl, rfl⟩, ⟨rfl, rfl⟩⟩

/-- TAX copies A to X (rule R207). -/
theorem exec_tax (s : State) :
    ∃ p, exec .tax s = .next { s.after .tax 0 with x := s.a, p := p } ∧ FlagsAre p s.p (resultFlags s.a) :=
  exec_puts_register (value := State.a) (by decide) (by decide) rfl (fun _ => rfl) putsRegister_setX (fun _ => rfl) s

/-- TAY copies A to Y (rule R208). -/
theorem exec_tay (s : State) :
    ∃ p, exec .tay s = .next { s.after .tay 0 with y := s.a, p := p } ∧ FlagsAre p s.p (resultFlags s.a) :=
  exec_puts_register (value := State.a) (by decide) (by decide) rfl (fun _ => rfl) putsRegister_setY (fun _ => rfl) s

/-- TSX copies SP to X (rule R209). -/
theorem exec_tsx (s : State) :
    ∃ p, exec .tsx s = .next { s.after .tsx 0 with x := s.sp, p := p } ∧ FlagsAre p s.p (resultFlags s.sp) :=
  exec_puts_register (value := State.sp) (by decide) (by decide) rfl (fun _ => rfl) putsRegister_setX (fun _ => rfl) s

/-- TXA copies X to A (rule R210). -/
theorem exec_txa (s : State) :
    ∃ p, exec .txa s = .next { s.after .txa 0 with a := s.x, p := p } ∧ FlagsAre p s.p (resultFlags s.x) :=
  exec_puts_register (value := State.x) (by decide) (by decide) rfl (fun _ => rfl) putsRegister_setA (fun _ => rfl) s

/-- TXS copies X to SP and writes no flag (rule R211). -/
theorem exec_txs (s : State) : exec .txs s = .next { s.after .txs 0 with sp := s.x } :=
  executeImplied_after (i := .txs) (operation := fun t => t.setSp t.x) (by decide) (by decide) rfl s

/-- TYA copies Y to A (rule R212). -/
theorem exec_tya (s : State) :
    ∃ p, exec .tya s = .next { s.after .tya 0 with a := s.y, p := p } ∧ FlagsAre p s.p (resultFlags s.y) :=
  exec_puts_register (value := State.y) (by decide) (by decide) rfl (fun _ => rfl) putsRegister_setA (fun _ => rfl) s

/-- Settles O29: five transfers put a register in a register with its flags, and TXS only writes SP. -/
theorem transfersCopyARegister : Obligations.TransfersCopyARegister := by
  obtain ⟨htax, htay, htsx, htxa, htxs, htya⟩ := transfer_encodings
  exact ⟨htax, htay, htsx, htxa, htxs, htya,
    fun s => ⟨exec_tax s, exec_tay s, exec_tsx s, exec_txa s, exec_txs s, exec_tya s⟩⟩

/-- A step of a register: the register put back with a byte `delta` above it modulo 256, and Z and N of that byte. -/
theorem exec_steps_register {i : Instr} {put : State → Byte → State} {register : State → Byte} {step : Byte → Byte}
    {delta : Nat} (hwf : WellFormed i) (hne : i.mnemonic ≠ .undoc) (himp : i.operand = .imp)
    (hexec : ∀ s, exec i s =
      executeImplied i.mnemonic (fun t => (put t (step (register t))).setResultFlags (step (register t))) s)
    (hput : PutsRegister put) (hregister : ∀ s, register (s.after i 0) = register s)
    (hstep : ∀ v, (step v).toNat = (v.toNat + delta) % 256) (s : State) :
    ∃ r p, exec i s = .next { put (s.after i 0) r with p := p } ∧ r.toNat = ((register s).toNat + delta) % 256 ∧
      FlagsAre p s.p (resultFlags r) := by
  obtain ⟨p, hnext, hflags⟩ := exec_puts_register (value := fun t => step (register t)) hwf hne himp hexec hput
    (fun s => congrArg step (hregister s)) s
  exact ⟨_, p, hnext, hstep _, hflags⟩

/-- The encodings of rules R214, R215, R217 and R218. -/
theorem stepRegister_encodings :
    EncodedAs .inx 0xE8 2 ∧ EncodedAs .iny 0xC8 2 ∧ EncodedAs .dex 0xCA 2 ∧ EncodedAs .dey 0x88 2 :=
  ⟨⟨rfl, rfl⟩, ⟨rfl, rfl⟩, ⟨rfl, rfl⟩, ⟨rfl, rfl⟩⟩

/-- INX adds 1 to X (rule R214). -/
theorem exec_inx (s : State) : ∃ r p, exec .inx s = .next { s.after .inx 0 with x := r, p := p } ∧
    r.toNat = (s.x.toNat + 1) % 256 ∧ FlagsAre p s.p (resultFlags r) :=
  exec_steps_register (register := State.x) (step := (· + 1)) (by decide) (by decide) rfl (fun _ => rfl)
    putsRegister_setX (fun _ => rfl) byte_add_one_toNat s

/-- INY adds 1 to Y (rule R215). -/
theorem exec_iny (s : State) : ∃ r p, exec .iny s = .next { s.after .iny 0 with y := r, p := p } ∧
    r.toNat = (s.y.toNat + 1) % 256 ∧ FlagsAre p s.p (resultFlags r) :=
  exec_steps_register (register := State.y) (step := (· + 1)) (by decide) (by decide) rfl (fun _ => rfl)
    putsRegister_setY (fun _ => rfl) byte_add_one_toNat s

/-- DEX adds 255 to X, which is subtracting 1 (rule R217). -/
theorem exec_dex (s : State) : ∃ r p, exec .dex s = .next { s.after .dex 0 with x := r, p := p } ∧
    r.toNat = (s.x.toNat + 255) % 256 ∧ FlagsAre p s.p (resultFlags r) :=
  exec_steps_register (register := State.x) (step := (· - 1)) (by decide) (by decide) rfl (fun _ => rfl)
    putsRegister_setX (fun _ => rfl) byte_sub_one_toNat s

/-- DEY adds 255 to Y, which is subtracting 1 (rule R218). -/
theorem exec_dey (s : State) : ∃ r p, exec .dey s = .next { s.after .dey 0 with y := r, p := p } ∧
    r.toNat = (s.y.toNat + 255) % 256 ∧ FlagsAre p s.p (resultFlags r) :=
  exec_steps_register (register := State.y) (step := (· - 1)) (by decide) (by decide) rfl (fun _ => rfl)
    putsRegister_setY (fun _ => rfl) byte_sub_one_toNat s

/-- Settles O31: each of the four puts X or Y back one step on, and the step wraps modulo 256. -/
theorem indexRegistersStepByOne : Obligations.IndexRegistersStepByOne := by
  obtain ⟨hinx, hiny, hdex, hdey⟩ := stepRegister_encodings
  exact ⟨hinx, hiny, hdex, hdey, fun s => ⟨exec_inx s, exec_iny s, exec_dex s, exec_dey s⟩⟩

/-- The flags after one was written in a status that enters with U set. -/
theorem flagsAre_putFlag (p : Byte) (f : Flag) (value : Bool) :
    FlagsAre (putFlag (putFlag p .u true) f value) p [(f, value)] := by
  intro g
  rw [getFlag_putFlag, getFlag_putFlag]
  by_cases hwritten : g = f
  · simp [List.lookup, hwritten]
  · have hlookup : [(f, value)].lookup g = none := by simp [List.lookup, hwritten]
    rw [hlookup, if_neg hwritten]
    by_cases hu : g = .u <;> simp [hu]

/-- A meaning of format IMP that writes one flag of P. -/
theorem flagInstructionIs_of_executeImplied {i : Instr} {op : Byte} {f : Flag} {value : Bool} (henc : EncodedAs i op 2)
    (hwf : WellFormed i) (hne : i.mnemonic ≠ .undoc) (himp : i.operand = .imp)
    (hexec : ∀ s, exec i s = executeImplied i.mnemonic (fun t => t.setFlag f value) s) :
    FlagInstructionIs i op f value :=
  ⟨henc, fun s => ⟨_, (hexec s).trans (executeImplied_after hwf hne himp s), flagsAre_putFlag s.p f value⟩⟩

/-- CLC clears C (rule R219). -/
theorem clc_flagInstructionIs : FlagInstructionIs .clc 0x18 .c false :=
  flagInstructionIs_of_executeImplied ⟨rfl, rfl⟩ (by decide) (by decide) rfl fun _ => rfl

/-- CLD clears D (rule R220). -/
theorem cld_flagInstructionIs : FlagInstructionIs .cld 0xD8 .d false :=
  flagInstructionIs_of_executeImplied ⟨rfl, rfl⟩ (by decide) (by decide) rfl fun _ => rfl

/-- CLI clears I (rule R221). -/
theorem cli_flagInstructionIs : FlagInstructionIs .cli 0x58 .i false :=
  flagInstructionIs_of_executeImplied ⟨rfl, rfl⟩ (by decide) (by decide) rfl fun _ => rfl

/-- CLV clears V (rule R222). -/
theorem clv_flagInstructionIs : FlagInstructionIs .clv 0xB8 .v false :=
  flagInstructionIs_of_executeImplied ⟨rfl, rfl⟩ (by decide) (by decide) rfl fun _ => rfl

/-- SEC sets C (rule R223). -/
theorem sec_flagInstructionIs : FlagInstructionIs .sec 0x38 .c true :=
  flagInstructionIs_of_executeImplied ⟨rfl, rfl⟩ (by decide) (by decide) rfl fun _ => rfl

/-- SED sets D (rule R224). -/
theorem sed_flagInstructionIs : FlagInstructionIs .sed 0xF8 .d true :=
  flagInstructionIs_of_executeImplied ⟨rfl, rfl⟩ (by decide) (by decide) rfl fun _ => rfl

/-- SEI sets I (rule R225). -/
theorem sei_flagInstructionIs : FlagInstructionIs .sei 0x78 .i true :=
  flagInstructionIs_of_executeImplied ⟨rfl, rfl⟩ (by decide) (by decide) rfl fun _ => rfl

/-- Settles O32: the seven flag instructions write one flag of the status the common part leaves. -/
theorem flagInstructionsWriteOneFlag : Obligations.FlagInstructionsWriteOneFlag :=
  ⟨clc_flagInstructionIs, cld_flagInstructionIs, cli_flagInstructionIs, clv_flagInstructionIs, sec_flagInstructionIs,
    sed_flagInstructionIs, sei_flagInstructionIs⟩

end Sys2Proof.Machine
end

section
/-! Decoding and encoding (rules R100 to R105): the operand of an instruction and its bytes determine each other, and
the opcode byte decides the rest. -/

open Sys2Proof.Machine

namespace Sys2Proof

/-- A format reassembles an operand from the operand's own bytes (rules R42 and R101). -/
theorem assemble_bytes (m : Operand) : m.mode.assemble (m.bytes.getD 0 0) (m.bytes.getD 1 0) = m := by
  cases m with
  | abs w | abx w | aby w | ind w => simp [Operand.mode, Mode.assemble, Operand.bytes, wordOf_loByte_hiByte]
  | _ => rfl

theorem loByte_wordOf (lo hi : Byte) : loByte (wordOf lo hi) = lo := by
  apply BitVec.eq_of_toNat_eq
  rw [loByte_toNat, wordOf_toNat]
  omega

theorem hiByte_wordOf (lo hi : Byte) : hiByte (wordOf lo hi) = hi := by
  apply BitVec.eq_of_toNat_eq
  rw [hiByte_toNat, wordOf_toNat]
  omega

/-- The bytes of an assembled operand are the bytes it was assembled from, as many as the format has. -/
theorem bytes_assemble (md : Mode) (b1 b2 : Byte) : (md.assemble b1 b2).bytes = [b1, b2].take (md.length - 1) := by
  cases md <;> simp [Mode.assemble, Operand.bytes, Mode.length, loByte_wordOf, hiByte_wordOf]

/-- Decoding an opcode byte before the bytes of an operand in its format. -/
theorem decode_operand_bytes {op : Byte} {m : Operand} (h : formatOf op = m.mode) (rest : List Byte) :
    decode (op :: (m.bytes ++ rest)) = (instrOf op (m.bytes.getD 0 0) (m.bytes.getD 1 0)).map (·, rest) := by
  cases m <;> simp [decode, h, Operand.mode, Mode.length, Operand.bytes]

/-- What a decode that succeeds has read: an opcode byte and the operand bytes of its format. -/
theorem decode_inv {bytes rest : List Byte} {i : Instr} (h : decode bytes = .ok (i, rest)) :
    ∃ op b1 b2, instrOf op b1 b2 = .ok i ∧ bytes = op :: ([b1, b2].take ((formatOf op).length - 1) ++ rest) := by
  have mapped {op b1 b2 : Byte} {left : List Byte} (h : (instrOf op b1 b2).map (·, left) = .ok (i, rest)) :
      instrOf op b1 b2 = .ok i ∧ left = rest := by
    cases hi : instrOf op b1 b2 <;> simp_all [Except.map]
  unfold decode at h
  split at h
  · cases h
  · next op tail =>
    split at h
    · next hl =>
      obtain ⟨hi, rfl⟩ := mapped h
      exact ⟨op, 0, 0, hi, by simp [hl]⟩
    · next b1 _ hl =>
      obtain ⟨hi, rfl⟩ := mapped h
      exact ⟨op, b1, 0, hi, by simp [hl]⟩
    · next b1 b2 _ hl =>
      obtain ⟨hi, rfl⟩ := mapped h
      exact ⟨op, b1, b2, hi, by simp [hl]⟩
    · cases h

/-- What the decoder reads under an opcode byte has the operand its format assembles. -/
theorem instrOf_operand {op b1 b2 : Byte} {i : Instr} (h : instrOf op b1 b2 = .ok i) :
    i.operand = (formatOf op).assemble b1 b2 := by
  cases he : opcodeEntry op with
  | none =>
    simp only [instrOf, he, Except.ok.injEq] at h
    simp [← h, formatOf, he, Instr.operand, Mode.assemble]
  | some e =>
    obtain ⟨mn, md⟩ := e
    simp only [instrOf, he] at h
    split at h
    · next j hj =>
      cases h
      simpa [formatOf, he] using (make_some hj).2
    · cases h

/-- A well-formed instruction is what the decoder reads under its opcode byte and its operand bytes. -/
theorem instrOf_of_opcode {i : Instr} {op : Byte} (h : i.opcode = some op) :
    instrOf op (i.operand.bytes.getD 0 0) (i.operand.bytes.getD 1 0) = .ok i := by
  by_cases hm : i.mnemonic = .undoc
  · cases i with
    | undoc b =>
      simp only [Instr.opcode, Option.ite_none_right_eq_some, Option.some.injEq] at h
      obtain ⟨he, rfl⟩ := h
      simp [instrOf, he]
    | _ => cases hm
  · have he := opcodeEntry_of_opcodeOf ((opcode_eq hm).symm.trans h)
    simp only [instrOf, he, assemble_bytes, make_of_instr i hm]

/-- The encoding of an instruction that has an opcode byte (rule R101). -/
theorem encode_of_opcode {i : Instr} {op : Byte} (h : i.opcode = some op) : encode i = op :: i.operand.bytes := by
  simp [encode, h]

/-- The opcode byte decides the mnemonic (rule R104). -/
theorem mnemonic_of_opcode {i : Instr} {op : Byte} (h : i.opcode = some op) :
    i.mnemonic = ((opcodeEntry op).map Prod.fst).getD .undoc := by
  by_cases hm : i.mnemonic = .undoc
  · cases i with
    | undoc b =>
      simp only [Instr.opcode, Option.ite_none_right_eq_some, Option.some.injEq] at h
      obtain ⟨he, rfl⟩ := h
      simp [he, Instr.mnemonic]
    | _ => cases hm
  · simp [opcodeEntry_of_opcodeOf ((opcode_eq hm).symm.trans h)]

/-- Settles O1: the decoder reads the format's operand bytes and reassembles the operand from them. -/
theorem decodeOfEncodeIsTheInstruction : Obligations.DecodeOfEncodeIsTheInstruction := by
  intro i rest hw
  obtain ⟨op, hop, hformat⟩ := opcode_of_wf hw
  rw [encode_of_opcode hop, List.cons_append, decode_operand_bytes hformat, instrOf_of_opcode hop]
  rfl

/-- Settles O2: a decode that succeeds split off the opcode byte and the operand bytes that encode the instruction. -/
theorem encodeOfDecodeIsTheBytes : Obligations.EncodeOfDecodeIsTheBytes := by
  intro bytes rest i h
  obtain ⟨op, b1, b2, hi, rfl⟩ := decode_inv h
  obtain ⟨j, hj, hop, -, hw⟩ := instrOf_ok op b1 b2
  obtain rfl : j = i := Except.ok.inj (hj.symm.trans hi)
  exact ⟨hw, by rw [encode_of_opcode hop, instrOf_operand hi, bytes_assemble, List.cons_append]⟩

/-- Three bytes are enough to decode an instruction, whose opcode byte is the first of them (rules R100 and R103). -/
theorem decode_three (op b1 b2 : Byte) :
    ∃ i rest, decode [op, b1, b2] = .ok (i, rest) ∧ i.opcode = some op ∧ WellFormed i ∧ i.length + rest.length = 3 := by
  obtain ⟨i, hi, hop, -, hw⟩ := instrOf_ok op b1 b2
  have hbytes : encode i ++ [b1, b2].drop ((formatOf op).length - 1) = [op, b1, b2] := by
    rw [encode_of_opcode hop, instrOf_operand hi, bytes_assemble, List.cons_append, List.take_append_drop]
  have hdec := decodeOfEncodeIsTheInstruction i ([b1, b2].drop ((formatOf op).length - 1)) hw
  have hlength := congrArg List.length hbytes
  rw [List.length_append, encode_length hw] at hlength
  exact ⟨i, _, hbytes ▸ hdec, hop, hw, hlength⟩

/-- Settles O3: mnemonic and format are functions of the opcode byte, which is the first of the three. -/
theorem opcodeByteAloneDecides : Obligations.OpcodeByteAloneDecides := by
  intro op b1 b2 c1 c2
  obtain ⟨i, bs, hi, hiop, hiw, hilen⟩ := decode_three op b1 b2
  obtain ⟨j, cs, hj, hjop, hjw, hjlen⟩ := decode_three op c1 c2
  have mode_of_opcode {k : Instr} (hw : WellFormed k) (hop : k.opcode = some op) : k.operand.mode = formatOf op := by
    obtain ⟨op', hop', hformat⟩ := opcode_of_wf hw
    obtain rfl : op' = op := Option.some.inj (hop'.symm.trans hop)
    exact hformat.symm
  obtain ⟨hpos, hle⟩ := mode_length_pos i.operand.mode
  exact ⟨i, j, bs, cs, hi, hj, hiop, (mnemonic_of_opcode hiop).trans (mnemonic_of_opcode hjop).symm,
    (mode_of_opcode hiw hiop).trans (mode_of_opcode hjw hjop).symm, hpos, hle, hilen, hjlen⟩

/-- Settles O4: the listed bytes are the well-formed fallbacks, which are one byte long. -/
theorem undocumentedBytesDecodeToTheFallback : Obligations.UndocumentedBytesDecodeToTheFallback := by
  refine ⟨rfl, by decide, fun op rest => ⟨fun h => ?_, fun h => ?_⟩, by decide⟩
  · have hop : (Instr.undoc op).opcode = some op := if_pos (opcodeEntry_none.mpr h)
    have hdec := decodeOfEncodeIsTheInstruction (.undoc op) rest ⟨List.mem_singleton.mpr rfl, h⟩
    rwa [encode_of_opcode hop] at hdec
  · exact (encodeOfDecodeIsTheBytes _ _ _ h).1.2

/-- Settles O5: each word is run through the decoder. -/
theorem writtenOutWordsDecode : Obligations.WrittenOutWordsDecode :=
  ⟨rfl, rfl, rfl, rfl, rfl, rfl, rfl, rfl, rfl, rfl, rfl⟩

end Sys2Proof
end

section
/-! What an instruction that completes has stored (rules R58, R133 and R180): the addresses it wrote on the bus, in
order, and that nothing outside the CPU's registers, the RAM bytes and the bank-select registers differs. -/

namespace Sys2Proof.Machine

/-- Nothing but the CPU's registers and its cycle counter differs. -/
structure OnlyCpu (s t : State) : Prop where
  mem : t.mem = s.mem
  prgBank : t.prgBank = s.prgBank
  chrBank : t.chrBank = s.chrBank
  chrRam : t.chrRam = s.chrRam
  cart : t.cart = s.cart
  cfg : t.cfg = s.cfg
  fault : t.fault = s.fault
  started : t.started = s.started
  host : t.host = s.host

theorem OnlyCpu.refl (s : State) : OnlyCpu s s := ⟨rfl, rfl, rfl, rfl, rfl, rfl, rfl, rfl, rfl⟩

theorem OnlyCpu.trans {s t u : State} (h : OnlyCpu s t) (k : OnlyCpu t u) : OnlyCpu s u :=
  ⟨k.mem.trans h.mem, k.prgBank.trans h.prgBank, k.chrBank.trans h.chrBank, k.chrRam.trans h.chrRam,
    k.cart.trans h.cart, k.cfg.trans h.cfg, k.fault.trans h.fault, k.started.trans h.started, k.host.trans h.host⟩

/-- A state reached from `s` by bus writes at the addresses of the list, in its order; between them only the CPU's
registers change. -/
inductive Stores : State → List Addr → State → Prop
  | done {s t : State} : OnlyCpu s t → Stores s [] t
  | store {s r w t : State} {a : Addr} {v : Byte} {l : List Addr} :
      OnlyCpu s r → r.write a v = .ok w → Stores w l t → Stores s (a :: l) t

/-- A property that the CPU's registers have no part in and that every one of the writes keeps holds after them all. -/
theorem Stores.keeps {P : State → Prop} {s t : State} {l : List Addr} (h : Stores s l t)
    (hcpu : ∀ {r u}, OnlyCpu r u → P r → P u)
    (hwrite : ∀ {r w a v}, a ∈ l → r.write a v = .ok w → P r → P w) (hs : P s) : P t := by
  induction h with
  | done hc => exact hcpu hc hs
  | store hc hw _ ih =>
    exact ih (fun ha => hwrite (List.mem_cons_of_mem _ ha)) (hwrite List.mem_cons_self hw (hcpu hc hs))

theorem Stores.cpu_left {s t u : State} {l : List Addr} (hc : OnlyCpu s t) (h : Stores t l u) : Stores s l u := by
  cases h with
  | done k => exact .done (hc.trans k)
  | store k hw h => exact .store (hc.trans k) hw h

theorem Stores.trans {s t u : State} {l m : List Addr} (h : Stores s l t) (k : Stores t m u) :
    Stores s (l ++ m) u := by
  induction h with
  | done hc => exact k.cpu_left hc
  | store hc hw _ ih => exact .store hc hw (ih k)

theorem Stores.cpu_right {s t u : State} {l : List Addr} (h : Stores s l t) (hc : OnlyCpu t u) : Stores s l u :=
  List.append_nil l ▸ h.trans (.done hc)

theorem Stores.onlyCpu {s t : State} (h : Stores s [] t) : OnlyCpu s t := by
  cases h with
  | done hc => exact hc

/-- One bus write. -/
theorem stores_write {s w : State} {a : Addr} {v : Byte} (h : s.write a v = .ok w) : Stores s [a] w :=
  .store (.refl s) h (.done (.refl w))

/-- A push stores one byte (rule R180). -/
theorem stores_push {s t : State} {v : Byte} (h : s.push v = .ok t) : Stores s [pushAddr s.sp 0] t := by
  obtain ⟨w, hw, rfl⟩ := push_ok.mp h
  rw [← pushAddr_zero]
  exact (stores_write hw).cpu_right ⟨rfl, rfl, rfl, rfl, rfl, rfl, rfl, rfl, rfl⟩

/-- Pushing a word stores two bytes (rule R43). -/
theorem stores_pushWord {s t : State} {w : Addr} (h : s.pushWord w = .ok t) :
    Stores s [pushAddr s.sp 0, pushAddr s.sp 1] t := by
  obtain ⟨u, hu, ht, hsp, -⟩ := pushWord_next h
  have hlo := stores_push ht
  rw [hsp, pushAddr_succ] at hlo
  exact (stores_push hu).trans hlo

/-- Trap entry stores three bytes (rule R256). -/
theorem stores_trapEntry {s t : State} {ret vector : Addr} {status : Byte} (h : trapEntry ret status vector s = .ok t) :
    Stores s [pushAddr s.sp 0, pushAddr s.sp 1, pushAddr s.sp 2] t := by
  obtain ⟨u, w, target, hu, hw, -, rfl⟩ := trapEntry_ok.mp h
  obtain ⟨-, -, -, -, m, n, k, rfl⟩ := pushWord_next hu
  have hstatus := stores_push hw
  rw [pushAddr_succ, pushAddr_succ] at hstatus
  exact ((stores_pushWord hu).trans hstatus).cpu_right ⟨rfl, rfl, rfl, rfl, rfl, rfl, rfl, rfl, rfl⟩

/-- A write-back stores one byte outside the accumulator form (rule R133). -/
theorem stores_writeback {m : Operand} {ea : Ea} {v : Byte} {s t : State} (h : writeback m ea v s = .ok t) :
    Stores s (if m = .imp then [] else [ea.addr]) t := by
  rcases writeback_ok h with ⟨himp, rfl⟩ | ⟨hmem, hw⟩
  · rw [if_pos himp]
    exact .done ⟨rfl, rfl, rfl, rfl, rfl, rfl, rfl, rfl, rfl⟩
  · rw [if_neg hmem]
    exact stores_write hw

/-- The addresses an instruction stores at, in order. -/
def storeAddresses (s : State) (ea : Ea) (i : Instr) : List Addr :=
  match i.mnemonic with
  | .sta | .stx | .sty => [ea.addr]
  | .asl | .lsr | .rol | .ror | .inc | .dec => if i.operand = .imp then [] else [ea.addr]
  | .pha | .php => [pushAddr s.sp 0]
  | .jsr => [pushAddr s.sp 0, pushAddr s.sp 1]
  | .brk => [pushAddr s.sp 0, pushAddr s.sp 1, pushAddr s.sp 2]
  | _ => []

section Inversion

variable {i : Instr} {s t : State}

/-- An instruction that completes did so by its addressing mode and its operation. -/
theorem exec_inv {operation : Ea → State → Access State}
    (hexec : exec i s = execute i.mnemonic i.operand operation s) (h : exec i s = .next t) :
    ∃ ea u, AddressIs i s ea ∧ operation ea (s.after i 0) = .ok u ∧
      t = u.addCycles (extraCycles s.cfg i.mnemonic ea.crossed) := by
  obtain ⟨op, ea, u, hop, hea, hu, rfl⟩ := execute_eq_next (hexec ▸ h)
  have hne : i.mnemonic ≠ .undoc := fun hm => by
    rw [hm] at hop
    cases hop
  rw [enter_eq_after s ((opcode_eq hne).trans hop)] at hea hu
  exact ⟨ea, u, hea, hu, rfl⟩

/-- A read instruction that completes: its operation on the operand byte, over the state every instruction leaves. -/
theorem exec_read_inv {operation : Byte → State → State}
    (hexec : exec i s = executeRead i.mnemonic i.operand operation s) (h : exec i s = .next t) :
    ∃ ea v, OperandIs i s ea v ∧
      t = (operation v (s.after i 0)).addCycles (extraCycles s.cfg i.mnemonic ea.crossed) := by
  obtain ⟨ea, u, hea, hu, rfl⟩ := exec_inv hexec h
  obtain ⟨v, hv, hu⟩ := access_bind_ok.mp hu
  cases hu
  exact ⟨ea, v, ⟨hea, hv⟩, rfl⟩

/-- A read-modify-write instruction that completes: one write-back, with the new status. -/
theorem exec_modify_inv {result status : Byte → Byte → Byte}
    (hexec : exec i s = executeModify i.mnemonic i.operand result status s) (h : exec i s = .next t) :
    ∃ ea v u, OperandIs i s ea v ∧
      writeback i.operand ea (result (putFlag s.p .u true) v)
        ((s.after i 0).setP (status (putFlag s.p .u true) v)) = .ok u ∧
      t = u.addCycles (extraCycles s.cfg i.mnemonic ea.crossed) := by
  obtain ⟨ea, u, hea, hu, rfl⟩ := exec_inv hexec h
  obtain ⟨v, hv, hu⟩ := access_bind_ok.mp hu
  exact ⟨ea, v, u, ⟨hea, hv⟩, hu, rfl⟩

/-- A store that completes: one write at the effective address. -/
theorem exec_store_inv {register : State → Byte}
    (hexec : exec i s = executeStore i.mnemonic i.operand register s) (h : exec i s = .next t) :
    ∃ ea w, AddressIs i s ea ∧ (s.after i 0).write ea.addr (register (s.after i 0)) = .ok w ∧
      t = w.addCycles (extraCycles s.cfg i.mnemonic ea.crossed) :=
  exec_inv hexec h

/-- An instruction of format IMP without a bus access that completes: its operation. -/
theorem exec_implied_inv {operation : State → State} (himp : i.operand = .imp)
    (hexec : exec i s = executeImplied i.mnemonic operation s) (h : exec i s = .next t) :
    t = operation (s.after i 0) := by
  have hexec' : exec i s = execute i.mnemonic i.operand (fun _ t => .ok (operation t)) s := by
    rw [hexec, himp]
    rfl
  obtain ⟨ea, u, hea, hu, rfl⟩ := exec_inv hexec' h
  cases (address_imp himp s).symm.trans hea
  cases hu
  rfl

/-- A branch that completes: PC and the counter of `takeBranch`. -/
theorem exec_branch_inv {rel8 : Byte} {condition : State → Bool} (hrel : i.operand = .rel rel8)
    (hexec : exec i s = executeBranch i.mnemonic rel8 condition s) (h : exec i s = .next t) :
    t = takeBranch (condition (s.after i 0)) rel8 (s.after i 0) := by
  have hexec' : exec i s =
      execute i.mnemonic i.operand (fun _ t => .ok (takeBranch (condition t) rel8 t)) s := by
    rw [hexec, hrel]
    rfl
  obtain ⟨ea, u, hea, hu, rfl⟩ := exec_inv hexec' h
  have hcrossed : ea.crossed = false := crossed_of_effective (by simp [hrel, Operand.mode]) hea
  cases hu
  rw [hcrossed]
  rfl

end Inversion

theorem onlyCpu_setP (s : State) (p : Byte) : OnlyCpu s (s.setP p) := ⟨rfl, rfl, rfl, rfl, rfl, rfl, rfl, rfl, rfl⟩

theorem onlyCpu_setPc (s : State) (a : Addr) : OnlyCpu s (s.setPc a) := ⟨rfl, rfl, rfl, rfl, rfl, rfl, rfl, rfl, rfl⟩

theorem onlyCpu_enter (s : State) (op : Byte) (md : Mode) : OnlyCpu s (s.enter op md) :=
  ⟨rfl, rfl, rfl, rfl, rfl, rfl, rfl, rfl, rfl⟩

theorem onlyCpu_after (s : State) (i : Instr) (n : Nat) : OnlyCpu s (s.after i n) :=
  ⟨rfl, rfl, rfl, rfl, rfl, rfl, rfl, rfl, rfl⟩

theorem onlyCpu_takeBranch (condition : Bool) (rel8 : Byte) (t : State) : OnlyCpu t (takeBranch condition rel8 t) := by
  obtain ⟨pc, n, h⟩ := takeBranch_eq condition rel8 t
  rw [h]
  exact ⟨rfl, rfl, rfl, rfl, rfl, rfl, rfl, rfl, rfl⟩

/-- What an operation stores, its instruction stores: the common part stores nothing. -/
theorem stores_of_after {i : Instr} {s u : State} {l : List Addr} (h : Stores (s.after i 0) l u) (n : Nat) :
    Stores s l (u.addCycles n) :=
  (h.cpu_left (onlyCpu_after s i 0)).cpu_right ⟨rfl, rfl, rfl, rfl, rfl, rfl, rfl, rfl, rfl⟩

/-- Every instruction that completes has an effective address (0 where its format leaves none) and stored where
`storeAddresses` says. -/
theorem exec_stores {i : Instr} {s t : State} (h : exec i s = .next t) :
    ∃ ea, AddressIs i s ea ∧ Stores s (storeAddresses s ea i) t := by
  cases i with
  | adc _ | sbc _ | cmp _ | cpx _ | cpy _ | lda _ | ldx _ | ldy _ | and _ | ora _ | eor _ | bit _ =>
    obtain ⟨ea, v, hv, rfl⟩ := exec_read_inv rfl h
    exact ⟨ea, hv.1, .done ⟨rfl, rfl, rfl, rfl, rfl, rfl, rfl, rfl, rfl⟩⟩
  | asl _ | lsr _ | rol _ | ror _ | inc _ | dec _ =>
    obtain ⟨ea, v, u, hv, hu, rfl⟩ := exec_modify_inv (by unfold exec; exact rfl) h
    exact ⟨ea, hv.1, stores_of_after ((stores_writeback hu).cpu_left (onlyCpu_setP _ _)) _⟩
  | sta _ | stx _ | sty _ =>
    obtain ⟨ea, w, hea, hw, rfl⟩ := exec_store_inv rfl h
    exact ⟨ea, hea, stores_of_after (stores_write hw) _⟩
  | bcc _ | bcs _ | beq _ | bmi _ | bne _ | bpl _ | bvc _ | bvs _ =>
    obtain rfl := exec_branch_inv rfl (by unfold exec; exact rfl) h
    exact ⟨_, rfl, stores_of_after (.done (onlyCpu_takeBranch _ _ _)) 0⟩
  | tax | tay | tsx | txa | txs | tya | inx | iny | dex | dey | clc | cld | cli | clv | sec | sed | sei | nop =>
    obtain rfl := exec_implied_inv rfl (by unfold exec; exact rfl) h
    exact ⟨_, rfl, .done ⟨rfl, rfl, rfl, rfl, rfl, rfl, rfl, rfl, rfl⟩⟩
  | pha | php =>
    obtain ⟨ea, u, hea, hu, rfl⟩ := exec_inv rfl h
    exact ⟨ea, hea, stores_of_after (stores_push hu) _⟩
  | pla =>
    obtain ⟨v, rfl⟩ := execPla_inv h
    exact ⟨_, rfl, .done ⟨rfl, rfl, rfl, rfl, rfl, rfl, rfl, rfl, rfl⟩⟩
  | plp =>
    obtain ⟨v, rfl⟩ := execPlp_inv h
    exact ⟨_, rfl, .done ⟨rfl, rfl, rfl, rfl, rfl, rfl, rfl, rfl, rfl⟩⟩
  | jsr _ =>
    obtain ⟨u, hu, rfl⟩ := execJsr_inv h
    exact ⟨_, rfl, ((stores_pushWord hu).cpu_left (onlyCpu_enter _ _ _)).cpu_right (onlyCpu_setPc _ _)⟩
  | rts =>
    obtain ⟨w, rfl⟩ := execRts_inv h
    exact ⟨_, rfl, .done ⟨rfl, rfl, rfl, rfl, rfl, rfl, rfl, rfl, rfl⟩⟩
  | rti =>
    obtain ⟨p, pc, rfl⟩ := execRti_inv h
    exact ⟨_, rfl, .done ⟨rfl, rfl, rfl, rfl, rfl, rfl, rfl, rfl, rfl⟩⟩
  | brk => exact ⟨_, rfl, (stores_trapEntry (execBrk_inv h)).cpu_left (onlyCpu_enter _ _ _)⟩
  | jmp _ =>
    obtain ⟨ea, u, hea, hu, rfl⟩ := exec_inv rfl h
    cases hu
    exact ⟨ea, hea, .done ⟨rfl, rfl, rfl, rfl, rfl, rfl, rfl, rfl, rfl⟩⟩
  | undoc _ =>
    obtain ⟨-, rfl⟩ := execUndoc_inv h
    exact ⟨_, rfl, .done (onlyCpu_enter _ _ _)⟩

end Sys2Proof.Machine
end

section
/-! What an instruction that completes has written in P (rule R13). -/

namespace Sys2Proof.Machine

/-- The flags after BIT in a status that enters with U set (rule R243). -/
theorem flagsAre_bitStatus (p a m : Byte) :
    FlagsAre (bitStatus (putFlag p .u true) a m) p
      [(.z, decide (a &&& m = 0)), (.n, m.getLsbD 7), (.v, m.getLsbD 6)] := by
  intro f
  rw [getFlag_bitStatus]
  cases f <;> simp [List.lookup, byte_beq, getFlag_putFlag, BitVec.msb_eq_getLsbD_last]

/-- The flags of a pulled status are those of the byte, U set (rules R184 and R187). -/
theorem flagsAre_pulledStatus (p v : Byte) :
    FlagsAre (pulledStatus v) p ([.c, .z, .i, .d, .b, .v, .n].map fun f => (f, getFlag v f)) := by
  intro f
  rw [getFlag_pulledStatus]
  cases f <;> simp [List.lookup]

/-- A flag that is not among the written ones is the one before, U set. -/
theorem FlagsAre.unwritten {p before : Byte} {written : List (Flag × Bool)} (h : FlagsAre p before written) {f : Flag}
    (hf : f ∉ written.map Prod.fst) : getFlag p f = (f == .u || getFlag before f) := by
  have hlookup : written.lookup f = none :=
    List.lookup_eq_none_iff.mpr fun q hq => by
      have hne : f ≠ q.1 := fun he => hf (he ▸ List.mem_map_of_mem hq)
      simpa using hne
  rw [h f, hlookup]
  rfl

theorem FlagsAre.of_eq {p q before : Byte} {written : List (Flag × Bool)} (h : q = p) (hf : FlagsAre p before written) :
    FlagsAre q before written := h ▸ hf

@[simp] theorem takeBranch_p (condition : Bool) (rel8 : Byte) (t : State) : (takeBranch condition rel8 t).p = t.p := by
  obtain ⟨pc, n, h⟩ := takeBranch_eq condition rel8 t
  rw [h]

/-- The status a read-modify-write instruction leaves. -/
theorem exec_modify_p {i : Instr} {result status : Byte → Byte → Byte} {s t : State}
    (hexec : exec i s = executeModify i.mnemonic i.operand result status s) (h : exec i s = .next t) :
    ∃ v, t.p = status (putFlag s.p .u true) v := by
  obtain ⟨ea, v, u, -, hu, rfl⟩ := exec_modify_inv hexec h
  refine ⟨v, ?_⟩
  rcases writeback_ok hu with ⟨-, rfl⟩ | ⟨-, hw⟩
  · rfl
  · obtain ⟨_, _, _, rfl⟩ := write_eq hw
    rfl

/-- The flags a mnemonic writes (the writers of rule R13, read the other way round). -/
def Mnemonic.flags : Mnemonic → List Flag
  | .adc | .sbc => [.c, .v, .z, .n]
  | .cmp | .cpx | .cpy | .asl | .lsr | .rol | .ror => [.c, .z, .n]
  | .lda | .ldx | .ldy | .and | .ora | .eor | .inc | .dec | .inx | .iny | .dex | .dey | .tax | .tay | .tsx | .txa | .tya
  | .pla => [.z, .n]
  | .bit => [.z, .n, .v]
  | .clc | .sec => [.c]
  | .cld | .sed => [.d]
  | .cli | .sei | .brk => [.i]
  | .clv => [.v]
  | .plp | .rti => [.c, .z, .i, .d, .b, .v, .n]
  | _ => []

/-- Every instruction that completes leaves U set, writes the flags of its mnemonic and keeps the others. -/
theorem exec_flags {i : Instr} {s t : State} (h : exec i s = .next t) :
    ∃ written, FlagsAre t.p s.p written ∧ written.map Prod.fst = Mnemonic.flags i.mnemonic := by
  have push_p {r u : State} {v : Byte} (hu : r.push v = .ok u) : u.p = r.p := by
    obtain ⟨w, -, rfl⟩ := push_next hu
    rfl
  cases i with
  | adc _ | sbc _ =>
    obtain ⟨ea, v, -, rfl⟩ := exec_read_inv rfl h
    exact ⟨_, flagsAre_addStatus _ _ _, rfl⟩
  | cmp _ | cpx _ | cpy _ =>
    obtain ⟨ea, v, -, rfl⟩ := exec_read_inv rfl h
    exact ⟨_, flagsAre_compareStatus _ _ _, rfl⟩
  | lda _ | ldx _ | ldy _ | and _ | ora _ | eor _ =>
    obtain ⟨ea, v, -, rfl⟩ := exec_read_inv rfl h
    exact ⟨_, flagsAre_setZN _ _, rfl⟩
  | bit _ =>
    obtain ⟨ea, v, -, rfl⟩ := exec_read_inv rfl h
    exact ⟨_, flagsAre_bitStatus _ _ _, rfl⟩
  | asl _ | lsr _ | rol _ | ror _ =>
    obtain ⟨v, hp⟩ := exec_modify_p (by unfold exec; exact rfl) h
    exact ⟨_, .of_eq hp (flagsAre_shiftStatus _ _ _), rfl⟩
  | inc _ | dec _ =>
    obtain ⟨v, hp⟩ := exec_modify_p (by unfold exec; exact rfl) h
    exact ⟨_, .of_eq hp (flagsAre_setZN _ _), rfl⟩
  | sta _ | stx _ | sty _ =>
    obtain ⟨ea, w, -, hw, rfl⟩ := exec_store_inv rfl h
    obtain ⟨_, _, _, rfl⟩ := write_eq hw
    exact ⟨_, flagsAre_u _, rfl⟩
  | bcc _ | bcs _ | beq _ | bmi _ | bne _ | bpl _ | bvc _ | bvs _ =>
    obtain rfl := exec_branch_inv rfl (by unfold exec; exact rfl) h
    exact ⟨_, .of_eq (takeBranch_p _ _ _) (flagsAre_u _), rfl⟩
  | tax | tay | tsx | txa | tya | inx | iny | dex | dey =>
    obtain rfl := exec_implied_inv rfl (by unfold exec; exact rfl) h
    exact ⟨_, flagsAre_setZN _ _, rfl⟩
  | txs | nop =>
    obtain rfl := exec_implied_inv rfl (by unfold exec; exact rfl) h
    exact ⟨_, flagsAre_u _, rfl⟩
  | clc | cld | cli | clv | sec | sed | sei =>
    obtain rfl := exec_implied_inv rfl (by unfold exec; exact rfl) h
    exact ⟨_, flagsAre_putFlag _ _ _, rfl⟩
  | pha =>
    obtain ⟨w, hw, rfl⟩ := execPha_inv h
    exact ⟨_, .of_eq (push_p hw) (flagsAre_u _), rfl⟩
  | php =>
    obtain ⟨w, hw, rfl⟩ := execPhp_inv h
    exact ⟨_, .of_eq (push_p hw) (flagsAre_u _), rfl⟩
  | pla =>
    obtain ⟨v, rfl⟩ := execPla_inv h
    exact ⟨_, flagsAre_setZN _ _, rfl⟩
  | plp =>
    obtain ⟨v, rfl⟩ := execPlp_inv h
    exact ⟨_, flagsAre_pulledStatus _ _, rfl⟩
  | jsr _ =>
    obtain ⟨u, hu, rfl⟩ := execJsr_inv h
    obtain ⟨-, -, -, -, _, _, _, rfl⟩ := pushWord_next hu
    exact ⟨_, flagsAre_u _, rfl⟩
  | rts =>
    obtain ⟨w, rfl⟩ := execRts_inv h
    exact ⟨_, flagsAre_u _, rfl⟩
  | rti =>
    obtain ⟨p, pc, rfl⟩ := execRti_inv h
    exact ⟨_, flagsAre_pulledStatus _ _, rfl⟩
  | brk =>
    obtain ⟨_, _, -, -, _, _, _, _, rfl, -⟩ := trapEntry_next (execBrk_inv h)
    exact ⟨_, flagsAre_putFlag _ _ _, rfl⟩
  | jmp _ =>
    obtain ⟨op, a, n, -, rfl⟩ := execJmp_inv h
    exact ⟨_, flagsAre_u _, rfl⟩
  | undoc _ =>
    obtain ⟨-, rfl⟩ := execUndoc_inv h
    exact ⟨_, flagsAre_u _, rfl⟩

/-- No mnemonic writes U: it is forced (rule R14). -/
theorem u_notMem_flags (mn : Mnemonic) : .u ∉ Mnemonic.flags mn := by cases mn <;> decide

/-- U is set after every instruction that completes. -/
theorem exec_flag_u {i : Instr} {s t : State} (h : exec i s = .next t) : getFlag t.p .u = true := by
  obtain ⟨written, hflags, hw⟩ := exec_flags h
  exact hflags.unwritten (hw ▸ u_notMem_flags _)

/-- A flag that the mnemonic does not write is as before. -/
theorem exec_flag_kept {i : Instr} {s t : State} {f : Flag} (h : exec i s = .next t) (hu : f ≠ .u)
    (hf : f ∉ Mnemonic.flags i.mnemonic) : t.flag f = s.flag f := by
  obtain ⟨written, hflags, hw⟩ := exec_flags h
  have hkept := hflags.unwritten (hw ▸ hf)
  rwa [beq_eq_false_iff_ne.mpr hu, Bool.false_or] at hkept

/-- Settles O57: the named mnemonics of each flag are all those that write it. -/
theorem onlyTheNamedInstructionsWriteAFlag : Obligations.OnlyTheNamedInstructionsWriteAFlag := by
  intro i s t h
  refine ⟨exec_flag_u h, fun hmn => exec_flag_kept h (by decide) ?_,
    fun hmn => ⟨exec_flag_kept h (by decide) ?_, exec_flag_kept h (by decide) ?_⟩,
    fun hmn => exec_flag_kept h (by decide) ?_, fun hmn => exec_flag_kept h (by decide) ?_,
    fun hmn => exec_flag_kept h (by decide) ?_, fun hmn => exec_flag_kept h (by decide) ?_⟩ <;>
  · revert hmn
    generalize i.mnemonic = mn
    cases mn <;> decide

end Sys2Proof.Machine
end

section
/-! What an instruction that completes leaves alone: registers, memory, the rest of the machine (rules R10 to R12, R20
to R27, R58). -/

namespace Sys2Proof.Machine

/-- Bus writes leave the wiring, the cartridge, CHR-RAM, the fault latch and the host's fields. -/
theorem Stores.frame {s t : State} {l : List Addr} (h : Stores s l t) :
    t.chrRam = s.chrRam ∧ t.cart = s.cart ∧ t.cfg = s.cfg ∧ t.fault = s.fault ∧ t.started = s.started ∧
      t.host = s.host := by
  refine h.keeps (P := fun u => u.chrRam = s.chrRam ∧ u.cart = s.cart ∧ u.cfg = s.cfg ∧ u.fault = s.fault ∧
    u.started = s.started ∧ u.host = s.host) (fun hc hp => ?_) (fun _ hw hp => ?_) ⟨rfl, rfl, rfl, rfl, rfl, rfl⟩
  · rwa [hc.chrRam, hc.cart, hc.cfg, hc.fault, hc.started, hc.host]
  · obtain ⟨_, _, _, rfl⟩ := write_eq hw
    exact hp

theorem OnlyCpu.read {s t : State} (h : OnlyCpu s t) (b : Addr) : t.read b = s.read b :=
  read_congr h.cfg h.mem h.cart h.prgBank b

/-- Bus writes leave every address whose accesses land elsewhere. -/
theorem Stores.read_other {s t : State} {l : List Addr} (h : Stores s l t) {b : Addr}
    (hb : ∀ a ∈ l, s.target b ≠ s.target a) : t.read b = s.read b := by
  have hkept := h.keeps (P := fun u => u.cfg = s.cfg ∧ u.read b = s.read b) (fun hc hp => ?_) (fun ha hw hp => ?_)
    ⟨rfl, rfl⟩
  · exact hkept.2
  · exact ⟨hc.cfg.trans hp.1, (hc.read b).trans hp.2⟩
  · obtain ⟨hcfg, hread⟩ := hp
    have hne := hb _ ha
    rw [← target_congr hcfg, ← target_congr hcfg] at hne
    have hafter := read_other_after_write hw hne
    obtain ⟨_, _, _, rfl⟩ := write_eq hw
    exact ⟨hcfg, hafter.trans hread⟩

/-- A write-back leaves every register but A, and A too outside the accumulator form. -/
theorem writeback_registers {m : Operand} {ea : Ea} {v : Byte} {s t : State} (h : writeback m ea v s = .ok t) :
    (m ≠ .imp → t.a = s.a) ∧ t.x = s.x ∧ t.y = s.y ∧ t.sp = s.sp ∧ t.pc = s.pc := by
  rcases writeback_ok h with ⟨himp, rfl⟩ | ⟨-, hw⟩
  · exact ⟨fun hm => absurd himp hm, rfl, rfl, rfl, rfl⟩
  · obtain ⟨_, _, _, rfl⟩ := write_eq hw
    exact ⟨fun _ => rfl, rfl, rfl, rfl, rfl⟩

/-- The registers an instruction that completes leaves alone, by its mnemonic. -/
theorem exec_registers {i : Instr} {s t : State} (h : exec i s = .next t) :
    (i.mnemonic ∉ [.adc, .sbc, .and, .ora, .eor, .lda, .pla, .txa, .tya] →
      ¬(i.mnemonic ∈ [.asl, .lsr, .rol, .ror] ∧ i.operand = .imp) → t.a = s.a) ∧
    (i.mnemonic ∉ [.ldx, .tax, .tsx, .inx, .dex] → t.x = s.x) ∧
    (i.mnemonic ∉ [.ldy, .tay, .iny, .dey] → t.y = s.y) ∧
    (i.mnemonic ∉ [.pha, .php, .pla, .plp, .jsr, .rts, .rti, .brk, .txs] → t.sp = s.sp) ∧
    (i.mnemonic ∉ [.bcc, .bcs, .beq, .bmi, .bne, .bpl, .bvc, .bvs, .jmp, .jsr, .rts, .rti, .brk] →
      t.pc = s.pc + BitVec.ofNat 16 i.length) := by
  cases i with
  | adc _ | sbc _ | cmp _ | cpx _ | cpy _ | lda _ | ldx _ | ldy _ | and _ | ora _ | eor _ | bit _ =>
    obtain ⟨ea, v, -, rfl⟩ := exec_read_inv rfl h
    simp [Instr.mnemonic, State.addCycles, State.setResultFlags]
  | asl _ | lsr _ | rol _ | ror _ =>
    obtain ⟨ea, v, u, -, hu, rfl⟩ := exec_modify_inv (by unfold exec; exact rfl) h
    obtain ⟨ha, hx, hy, hsp, hpc⟩ := writeback_registers hu
    exact ⟨fun _ hm => ha fun himp => hm ⟨by simp [Instr.mnemonic], himp⟩, fun _ => hx, fun _ => hy, fun _ => hsp,
      fun _ => hpc⟩
  | inc m | dec m =>
    have hm : m ≠ .imp := by
      rintro rfl
      cases h
    obtain ⟨ea, v, u, -, hu, rfl⟩ := exec_modify_inv (by unfold exec; exact rfl) h
    obtain ⟨ha, hx, hy, hsp, hpc⟩ := writeback_registers hu
    exact ⟨fun _ _ => ha hm, fun _ => hx, fun _ => hy, fun _ => hsp, fun _ => hpc⟩
  | sta _ | stx _ | sty _ =>
    obtain ⟨ea, w, -, hw, rfl⟩ := exec_store_inv rfl h
    obtain ⟨_, _, _, rfl⟩ := write_eq hw
    exact ⟨fun _ _ => rfl, fun _ => rfl, fun _ => rfl, fun _ => rfl, fun _ => rfl⟩
  | bcc _ | bcs _ | beq _ | bmi _ | bne _ | bpl _ | bvc _ | bvs _ =>
    have ht := exec_branch_inv rfl (by unfold exec; exact rfl) h
    obtain ⟨pc, n, htake⟩ := takeBranch_eq _ _ _
    rw [htake] at ht
    subst ht
    exact ⟨fun _ _ => rfl, fun _ => rfl, fun _ => rfl, fun _ => rfl, fun hpc => absurd (by simp [Instr.mnemonic]) hpc⟩
  | tax | tay | tsx | txa | txs | tya | inx | iny | dex | dey | clc | cld | cli | clv | sec | sed | sei | nop =>
    obtain rfl := exec_implied_inv rfl (by unfold exec; exact rfl) h
    simp [Instr.mnemonic, State.setResultFlags, State.setFlag]
  | pha =>
    obtain ⟨w, hw, rfl⟩ := execPha_inv h
    obtain ⟨_, -, rfl⟩ := push_next hw
    simp [Instr.mnemonic, Instr.length, Instr.operand, Operand.mode]
  | php =>
    obtain ⟨w, hw, rfl⟩ := execPhp_inv h
    obtain ⟨_, -, rfl⟩ := push_next hw
    simp [Instr.mnemonic, Instr.length, Instr.operand, Operand.mode]
  | pla =>
    obtain ⟨v, rfl⟩ := execPla_inv h
    simp [Instr.mnemonic, Instr.length, Instr.operand, Operand.mode]
  | plp =>
    obtain ⟨v, rfl⟩ := execPlp_inv h
    simp [Instr.mnemonic, Instr.length, Instr.operand, Operand.mode]
  | jsr _ =>
    obtain ⟨u, hu, rfl⟩ := execJsr_inv h
    obtain ⟨-, -, -, -, _, _, _, rfl⟩ := pushWord_next hu
    simp [Instr.mnemonic]
  | rts =>
    obtain ⟨w, rfl⟩ := execRts_inv h
    simp [Instr.mnemonic]
  | rti =>
    obtain ⟨p, pc, rfl⟩ := execRti_inv h
    simp [Instr.mnemonic]
  | brk =>
    obtain ⟨_, _, -, -, _, _, _, _, rfl, -⟩ := trapEntry_next (execBrk_inv h)
    simp [Instr.mnemonic]
  | jmp _ =>
    obtain ⟨op, a, n, -, rfl⟩ := execJmp_inv h
    simp [Instr.mnemonic]
  | undoc _ =>
    obtain ⟨-, rfl⟩ := execUndoc_inv h
    simp [Instr.length, Instr.operand, Operand.mode]

/-- Settles O56: the registers case by case, everything off the CPU because an instruction only makes bus writes. -/
theorem onlyTheNamedInstructionsWriteARegister : Obligations.OnlyTheNamedInstructionsWriteARegister := by
  intro i s t h
  obtain ⟨ha, hx, hy, hsp, hpc⟩ := exec_registers h
  obtain ⟨ea, -, hstores⟩ := exec_stores h
  exact ⟨ha, hx, hy, hsp, hpc, hstores.frame⟩

/-- The stack location of SP itself is where its first push goes (rule R180). -/
theorem pushAddr_zero_eq (sp : Byte) : pushAddr sp 0 = 0x0100#16 + sp.setWidth 16 := by
  rw [← pushAddr_zero, stackAddr_eq]

/-- Settles O58: an instruction stores at `storeAddresses` only, and a bus write leaves every other byte. -/
theorem instructionsStoreOnlyWhereTheySay : Obligations.InstructionsStoreOnlyWhereTheySay := by
  intro i s t h
  obtain ⟨ea, hea, hstores⟩ := exec_stores h
  have nothing (hnone : storeAddresses s ea i = []) :
      t.mem = s.mem ∧ t.prgBank = s.prgBank ∧ t.chrBank = s.chrBank ∧ ∀ b, t.read b = s.read b := by
    rw [hnone] at hstores
    have hcpu := hstores.onlyCpu
    exact ⟨hcpu.mem, hcpu.prgBank, hcpu.chrBank, hcpu.read⟩
  refine ⟨fun hmn => nothing ?_, fun hmn himp => nothing ?_, fun hmn ea' hea' b hb => ?_, fun hmn b hb => ?_,
    fun hmn b hb => ?_, fun hmn b hb => ?_⟩
  · unfold storeAddresses
    generalize i.mnemonic = mn at hmn
    revert hmn
    cases mn <;> simp
  · unfold storeAddresses
    generalize i.mnemonic = mn at hmn
    revert hmn
    cases mn <;> simp [himp]
  · obtain rfl : ea' = ea := Except.ok.inj (hea'.symm.trans hea)
    have hsub : ∀ a ∈ storeAddresses s ea' i, a = ea'.addr := by
      unfold storeAddresses
      generalize i.mnemonic = mn at hmn
      revert hmn
      cases mn <;> simp
    exact hstores.read_other fun a ha => hsub a ha ▸ hb
  · have hpush : storeAddresses s ea i = [pushAddr s.sp 0] := by
      unfold storeAddresses
      generalize i.mnemonic = mn at hmn
      revert hmn
      cases mn <;> simp
    rw [hpush, pushAddr_zero_eq] at hstores
    exact hstores.read_other (by simpa using hb)
  · have hpush : storeAddresses s ea i = [0, 1].map (pushAddr s.sp) := by simp [storeAddresses, hmn]
    rw [hpush] at hstores
    exact hstores.read_other (List.forall_mem_map.mpr hb)
  · have hpush : storeAddresses s ea i = [0, 1, 2].map (pushAddr s.sp) := by simp [storeAddresses, hmn]
    rw [hpush] at hstores
    exact hstores.read_other (List.forall_mem_map.mpr hb)

end Sys2Proof.Machine
end

section
/-! What a step that completes has done (rules R21 to R25, R255, R282): CPU work that stores by bus writes, reset(), or
a PPU-side access. The invariant and the constancy of the configuration follow from it. -/

namespace Sys2Proof.Machine

/-- Trap entry sets I and no other flag. -/
theorem trapEntry_p {s t : State} {ret vector : Addr} {status : Byte} (h : trapEntry ret status vector s = .ok t) :
    t.p = putFlag s.p .i true := by
  obtain ⟨_, _, -, -, _, _, _, _, rfl, -⟩ := trapEntry_next h
  rfl

/-- CPU work: bus writes, and U set if it was. -/
def CpuWork (s t : State) : Prop := (∃ l, Stores s l t) ∧ (getFlag s.p .u = true → getFlag t.p .u = true)

theorem CpuWork.of_onlyCpu {s t : State} (h : OnlyCpu s t) (hp : t.p = s.p) : CpuWork s t :=
  ⟨⟨[], .done h⟩, fun hu => hp ▸ hu⟩

theorem CpuWork.trans {s t u : State} (h : CpuWork s t) (k : CpuWork t u) : CpuWork s u := by
  obtain ⟨⟨l, hl⟩, hu⟩ := h
  obtain ⟨⟨m, hm⟩, ku⟩ := k
  exact ⟨⟨_, hl.trans hm⟩, ku ∘ hu⟩

theorem cpuWork_setCycles (s : State) (n : Nat) : CpuWork s (s.setCycles n) :=
  .of_onlyCpu ⟨rfl, rfl, rfl, rfl, rfl, rfl, rfl, rfl, rfl⟩ rfl

theorem cpuWork_exec {i : Instr} {s t : State} (h : exec i s = .next t) : CpuWork s t := by
  obtain ⟨ea, -, hstores⟩ := exec_stores h
  exact ⟨⟨_, hstores⟩, fun _ => exec_flag_u h⟩

theorem cpuWork_trapEntry {s t : State} {ret vector : Addr} {status : Byte}
    (h : trapEntry ret status vector s = .ok t) : CpuWork s t :=
  ⟨⟨_, stores_trapEntry h⟩, fun hu => by rwa [trapEntry_p h, getFlag_putFlag_other s.p (by decide)]⟩

/-- An access that concludes in a next state answered it. -/
theorem conclude_next {x : Access State} {t : State} : conclude x = .next t ↔ x = .ok t := by
  cases x <;> simp [conclude]

/-- The instruction step is one instruction (rule R103). -/
theorem instructionStep_next {s t : State} (h : instructionStep s = .next t) : ∃ i, exec i s = .next t := by
  unfold instructionStep at h
  split at h
  · cases h
  · split at h
    · next i _ _ => exact ⟨i, h⟩
    · cases h

theorem countDown_next {x : Outcome} {t : State} (h : countDown x = .next t) :
    ∃ u, x = .next u ∧ t = u.setCycles (u.cycles - 1) := by
  cases x <;> simp_all [countDown, eq_comm]

/-- A tick runs an instruction or none, and counts (rule R282). -/
theorem cpuWork_clock {s t : State} (h : clock s = .next t) : CpuWork s t := by
  unfold clock at h
  split at h
  · obtain ⟨u, hu, rfl⟩ := countDown_next h
    have hwork : CpuWork s u := by
      split at hu
      · obtain ⟨i, hi⟩ := instructionStep_next hu
        exact cpuWork_exec hi
      · cases hu
        exact .of_onlyCpu (.refl s) rfl
    exact hwork.trans (cpuWork_setCycles u _)
  · cases h

theorem cpuWork_irq {s t : State} (h : irq s = .ok t) : CpuWork s t := by
  unfold irq at h
  split at h
  · cases h
    exact .of_onlyCpu (.refl s) rfl
  · obtain ⟨u, hu, ht⟩ := access_bind_ok.mp h
    cases ht
    exact (cpuWork_trapEntry hu).trans (cpuWork_setCycles u 7)

theorem cpuWork_nmi {s t : State} (h : nmi s = .ok t) : CpuWork s t := by
  obtain ⟨u, hu, ht⟩ := access_bind_ok.mp h
  cases ht
  exact (cpuWork_trapEntry hu).trans (cpuWork_setCycles u 8)

/-- What reset() answers (rule R280). -/
theorem resetCpu_ok {s t : State} : resetCpu s = .ok t ↔ ∃ target, s.readWord resetVector = .ok target ∧ t = { s with
    pc := target, a := 0x00, x := 0x00, y := 0x00, sp := s.cfg.spReset, p := 0x20, cycles := 8, started := true } := by
  simp only [resetCpu, access_bind_ok, Except.ok.injEq, eq_comm (a := t)]

theorem forcePc_next {s t : State} {target : Addr} (h : forcePc target s = .next t) : t = s.setPc target := by
  unfold forcePc at h
  split at h <;> cases h
  rfl

theorem observe_next {α : Type} {answer : Access α} {s t : State} (h : observe answer s = .next t) : t = s := by
  unfold observe at h
  split at h <;> cases h
  rfl

theorem observePpu_next {s t : State} {a : Addr} (h : observePpu a s = .next t) : t = s := by
  unfold observePpu at h
  split at h <;> cases h
  rfl

/-- A PPU-side write leaves the state, or writes one byte of CHR-RAM (rule R71). -/
theorem ppuWrite_next {s t : State} {a : Addr} {v : Byte} (h : s.ppuWrite a v = .next t) :
    t = s ∨ t = s.setChrRam (s.chrRam.write (s.chrOffset a) v) := by
  unfold State.ppuWrite at h
  split at h
  · cases h
    split
    · exact .inr rfl
    · exact .inl rfl
  · cases h

/-- What an event that completes has done. -/
theorem applyEvent_next {e : HostEvent} {s t : State} (h : applyEvent e s = .next t) :
    CpuWork s t ∨ resetCpu s = .ok t ∨ ∃ k v, t = s.setChrRam (s.chrRam.write k v) := by
  have unchanged (ht : t = s) : CpuWork s t := ht ▸ .of_onlyCpu (.refl t) rfl
  cases e with
  | reset => exact .inr (.inl (conclude_next.mp h))
  | clock => exact .inl (cpuWork_clock h)
  | irq =>
    simp only [applyEvent] at h
    split at h
    · exact .inl (cpuWork_irq (conclude_next.mp h))
    · cases h
  | nmi =>
    simp only [applyEvent] at h
    split at h
    · exact .inl (cpuWork_nmi (conclude_next.mp h))
    · cases h
  | forcePc target =>
    simp only [applyEvent] at h
    split at h
    · obtain rfl := forcePc_next h
      exact .inl (.of_onlyCpu (onlyCpu_setPc s target) rfl)
    · cases h
  | peek _ => exact .inl (unchanged (observe_next h))
  | disassemble _ _ => exact .inl (unchanged (observe_next h))
  | ppuRead _ => exact .inl (unchanged (observePpu_next h))
  | ppuWrite _ _ =>
    rcases ppuWrite_next h with ht | ht
    · exact .inl (unchanged ht)
    · exact .inr (.inr ⟨_, _, ht⟩)

/-- A step that completes found no fault recorded and applied one event, with some list of calls still to come. -/
theorem step_next {s t : State} (h : step s = .next t) :
    s.fault = none ∧ ∃ e later, applyEvent e { s with host := later } = .next t := by
  unfold step advance at h
  split at h
  · cases h
  · next hfault =>
    refine ⟨hfault, ?_⟩
    split at h
    · next hhost => exact ⟨.clock, [], by rw [← hhost]; exact h⟩
    · next e later _ => exact ⟨e, later, h⟩

/-- A bus write keeps the stores canonical and the bank registers at present banks (rules R21, R23 and R64). -/
theorem write_keeps_stores {s w : State} {a : Addr} {v : Byte} (h : s.write a v = .ok w)
    (hs : s.mem.wf = true ∧ s.prgBank ≤ s.cart.prgBanks - 1 ∧ s.chrBank ≤ s.cart.chrBanks - 1) :
    w.mem.wf = true ∧ w.prgBank ≤ w.cart.prgBanks - 1 ∧ w.chrBank ≤ w.cart.chrBanks - 1 := by
  obtain ⟨hmem, hprg, hchr⟩ := hs
  obtain ⟨target, -, rfl⟩ := (write_ok s).mp h
  cases target with
  | cell key => exact ⟨Memory.wf_write hmem key v, hprg, hchr⟩
  | mapper =>
    rw [deviceWrite_mapper, State.mapperWrite]
    split
    · exact ⟨hmem, hprg, hchr⟩
    · exact ⟨hmem, bankMask_le _ _, hchr⟩
    · refine ⟨hmem, hprg, ?_⟩
      show (if s.cart.chrBanks = 0 then 0 else bankMask v.toNat s.cart.chrBanks) ≤ s.cart.chrBanks - 1
      split
      · exact Nat.zero_le _
      · exact bankMask_le _ _

/-- CPU work keeps the invariant. -/
theorem CpuWork.inv {s t : State} (h : CpuWork s t) (hs : s.Inv) : t.Inv := by
  obtain ⟨⟨l, hstores⟩, hu⟩ := h
  obtain ⟨hmem, hchrRam, hstarted, hprg, hchr⟩ := hs
  obtain ⟨hframeRam, -, -, -, hframeStarted, -⟩ := hstores.frame
  obtain ⟨tmem, tprg, tchr⟩ := hstores.keeps
    (P := fun u => u.mem.wf = true ∧ u.prgBank ≤ u.cart.prgBanks - 1 ∧ u.chrBank ≤ u.cart.chrBanks - 1)
    (fun hc hp => by rwa [hc.mem, hc.prgBank, hc.chrBank, hc.cart]) (fun _ => write_keeps_stores) ⟨hmem, hprg, hchr⟩
  exact ⟨tmem, hframeRam ▸ hchrRam, fun ht => hu (hstarted (hframeStarted ▸ ht)), tprg, tchr⟩

/-- Settles O53: bus writes keep the stores canonical and the banks present, and only reset(), which sets U, starts the
machine. -/
theorem everyStepKeepsTheInvariant : Obligations.EveryStepKeepsTheInvariant := by
  intro s t hs h
  obtain ⟨-, e, later, he⟩ := step_next h
  rcases applyEvent_next he with hwork | hreset | ⟨k, v, rfl⟩
  · exact hwork.inv hs
  · obtain ⟨hmem, hchrRam, -, hprg, hchr⟩ := hs
    obtain ⟨target, -, rfl⟩ := resetCpu_ok.mp hreset
    exact ⟨hmem, hchrRam, fun _ => (by decide : getFlag 0x20 .u = true), hprg, hchr⟩
  · obtain ⟨hmem, hchrRam, hstarted, hprg, hchr⟩ := hs
    exact ⟨hmem, Memory.wf_write hchrRam k v, hstarted, hprg, hchr⟩

/-- Settles O54: the reset state is a small concrete state. -/
theorem resetStateHasTheInvariant : Obligations.ResetStateHasTheInvariant := by
  unfold Obligations.ResetStateHasTheInvariant
  decide

/-- Settles O55: CPU work is bus writes, reset() writes the CPU alone, and a PPU-side write CHR-RAM alone. -/
theorem everyStepKeepsTheConfiguration : Obligations.EveryStepKeepsTheConfiguration := by
  intro s t h
  obtain ⟨hfault, e, later, he⟩ := step_next h
  rcases applyEvent_next he with hwork | hreset | ⟨k, v, rfl⟩
  · obtain ⟨⟨l, hstores⟩, -⟩ := hwork
    obtain ⟨-, hcart, hcfg, hf, hstarted, -⟩ := hstores.frame
    exact ⟨hcfg, hcart, hf.trans hfault, fun hs => hstarted.trans hs⟩
  · obtain ⟨target, -, rfl⟩ := resetCpu_ok.mp hreset
    exact ⟨rfl, rfl, hfault, fun _ => rfl⟩
  · exact ⟨rfl, rfl, hfault, id⟩

end Sys2Proof.Machine
end

section
/-! The accesses of every instruction (rules R49, R250 and R251), in the terms of `RunsOver`. -/

namespace Sys2Proof.Machine

/-- The formats of a store are neither accumulator nor immediate, so its one access is at its effective address. -/
theorem operationAddresses_store {i : Instr} (hmn : i.mnemonic ∈ [.sta, .stx, .sty]) (hwf : WellFormed i) (s : State)
    (ea : Ea) : operationAddresses s ea i = [ea.addr] := by
  have hmd : i.operand.mode ∉ [.imp, .imm] := by
    have hmode := hwf.1
    generalize i.mnemonic = mn at hmn hmode
    generalize i.operand.mode = md at hmode
    revert hmn hmode
    cases mn <;> cases md <;> decide
  unfold operationAddresses
  generalize i.mnemonic = mn at hmn
  revert hmn
  cases mn <;> simp_all

/-- An operation without a bus access. -/
theorem executeImplied_accesses {i : Instr} {operation : State → State} {s : State} (himp : i.operand = .imp)
    (hwf : WellFormed i) (hne : i.mnemonic ≠ .undoc) :
    RunsOver s i (fun _ => []) (executeImplied i.mnemonic operation s) := by
  have hruns := execute_accesses (s := s) (operation := fun _ t => .ok (operation t)) (l := fun _ => [])
    (opcode_eq hne) hwf.1 hne fun _ => accesses_ok _ _
  rwa [himp] at hruns

/-- A branch makes no bus access. -/
theorem executeBranch_accesses {i : Instr} {rel8 : Byte} {condition : State → Bool} {s : State}
    (hrel : i.operand = .rel rel8) (hwf : WellFormed i) (hne : i.mnemonic ≠ .undoc) :
    RunsOver s i (fun _ => []) (executeBranch i.mnemonic rel8 condition s) := by
  have hruns := execute_accesses (s := s) (operation := fun _ t => .ok (takeBranch (condition t) rel8 t))
    (l := fun _ => []) (opcode_eq hne) hwf.1 hne fun _ => accesses_ok _ _
  rwa [hrel] at hruns

/-- The accesses of every instruction: its pointer bytes, then `operationAddresses`. -/
theorem exec_accesses {i : Instr} (s : State) (hwf : WellFormed i) :
    RunsOver s i (fun ea => operationAddresses s ea i) (exec i s) := by
  unfold exec
  cases i with
  | adc _ | sbc _ | cmp _ | cpx _ | cpy _ | lda _ | ldx _ | ldy _ | and _ | ora _ | eor _ | bit _ =>
    exact executeRead_accesses rfl hwf.1 (by decide)
  | asl _ | lsr _ | rol _ | ror _ | inc _ | dec _ =>
    exact executeModify_accesses rfl hwf.1 (by decide) fun himm =>
      absurd (himm ▸ hwf.1) (by simp [Instr.mnemonic, Mnemonic.modes])
  | sta _ | stx _ | sty _ =>
    rw [funext fun ea => operationAddresses_store (by simp [Instr.mnemonic]) hwf s ea]
    exact executeStore_accesses rfl hwf.1 (by decide)
  | bcc _ | bcs _ | beq _ | bmi _ | bne _ | bpl _ | bvc _ | bvs _ => exact executeBranch_accesses rfl hwf nofun
  | tax | tay | tsx | txa | txs | tya | inx | iny | dex | dey | clc | cld | cli | clv | sec | sed | sei | nop =>
    exact executeImplied_accesses rfl hwf nofun
  | jmp _ => exact execute_accesses rfl hwf.1 (by decide) fun ea => accesses_ok _ _
  | pha | php => exact execute_accesses rfl hwf.1 (by decide) fun ea => push_accesses _ _
  | pla =>
    exact execute_accesses rfl hwf.1 (by decide) fun ea =>
      accesses_map (fun r : Byte × State => (r.2.setA r.1).setResultFlags r.1) (pull_accesses _)
  | plp =>
    exact execute_accesses rfl hwf.1 (by decide) fun ea =>
      accesses_map (fun r : Byte × State => r.2.setP (pulledStatus r.1)) (pull_accesses _)
  | jsr _ => exact execute_accesses rfl hwf.1 (by decide) fun ea => accesses_map _ (pushWord_accesses _ _)
  | rts =>
    exact execute_accesses rfl hwf.1 (by decide) fun ea =>
      accesses_map (fun r : Addr × State => r.2.setPc (r.1 + 1)) (pullWord_accesses _)
  | rti => exact execute_accesses rfl hwf.1 (by decide) fun ea => trapReturn_accesses _
  | brk => exact execute_accesses rfl hwf.1 (by decide) fun ea => trapEntry_accesses _ _ _ _
  | undoc op =>
    have hnext : execUndoc op s = .next (s.enter op .imp) := by
      simp only [execUndoc, opcodeEntry_none.mpr hwf.2]
    exact ⟨nofun, fun _ => ⟨_, rfl, nofun, fun _ => ⟨_, hnext⟩⟩⟩

/-- Settles O51: `RunsOver` is this statement, and leaves no third way to end. -/
theorem instructionsOnlyAbortOnUnclaimedAddresses : Obligations.InstructionsOnlyAbortOnUnclaimedAddresses := by
  intro i s hwf
  have hruns := exec_accesses s hwf
  exact ⟨hruns.next_or_abort, hruns.1, hruns.2⟩

/-- Settles O52: an abort would be at an unclaimed address. -/
theorem everyInstructionCompletesOnAClaimedBus : Obligations.EveryInstructionCompletesOnAClaimedBus := by
  intro i s hwf hclaimed
  rcases (exec_accesses s hwf).next_or_abort with hnext | ⟨a, -, ha⟩
  · exact hnext
  · rw [hclaimed a] at ha
    cases ha

end Sys2Proof.Machine
end

section
/-! The cost of an instruction and its ticks (rules R17, R134, R170, R282, R287 and R289). -/

namespace Sys2Proof.Machine

theorem extraCycles_le (cfg : Config) (mn : Mnemonic) (crossed : Bool) : extraCycles cfg mn crossed ≤ 1 := by
  unfold extraCycles
  split <;> decide

theorem writeback_cycles {m : Operand} {ea : Ea} {v : Byte} {s t : State} (h : writeback m ea v s = .ok t) :
    t.cycles = s.cycles := by
  rcases writeback_ok h with ⟨-, rfl⟩ | ⟨-, hw⟩
  · rfl
  · obtain ⟨_, _, _, rfl⟩ := write_eq hw
    rfl

/-- A branch adds nothing, or 1, or 2 (rule R170). -/
theorem takeBranch_cycles (condition : Bool) (rel8 : Byte) (t : State) :
    ∃ k ≤ 2, (takeBranch condition rel8 t).cycles = t.cycles + k := by
  unfold takeBranch branchCycles
  split
  · split
    · exact ⟨1, by decide, rfl⟩
    · exact ⟨2, by decide, rfl⟩
  · exact ⟨0, by decide, rfl⟩

/-- The counter an instruction leaves: the table's count and at most two more. -/
theorem exec_cycles {i : Instr} {s t : State} (h : exec i s = .next t) :
    ∃ k ≤ 2, t.cycles = baseCycles s.cfg (i.opcode.getD 0) + k := by
  have extra (ea : Ea) : extraCycles s.cfg i.mnemonic ea.crossed ≤ 2 := (extraCycles_le _ _ _).trans (by decide)
  cases i with
  | adc _ | sbc _ | cmp _ | cpx _ | cpy _ | lda _ | ldx _ | ldy _ | and _ | ora _ | eor _ | bit _ =>
    obtain ⟨ea, v, -, rfl⟩ := exec_read_inv rfl h
    exact ⟨_, extra ea, rfl⟩
  | asl _ | lsr _ | rol _ | ror _ | inc _ | dec _ =>
    obtain ⟨ea, v, u, -, hu, rfl⟩ := exec_modify_inv (by unfold exec; exact rfl) h
    exact ⟨_, extra ea, congrArg (· + _) (writeback_cycles hu)⟩
  | sta _ | stx _ | sty _ =>
    obtain ⟨ea, w, -, hw, rfl⟩ := exec_store_inv rfl h
    obtain ⟨_, _, _, rfl⟩ := write_eq hw
    exact ⟨_, extra ea, rfl⟩
  | bcc _ | bcs _ | beq _ | bmi _ | bne _ | bpl _ | bvc _ | bvs _ =>
    obtain rfl := exec_branch_inv rfl (by unfold exec; exact rfl) h
    exact takeBranch_cycles _ _ _
  | tax | tay | tsx | txa | txs | tya | inx | iny | dex | dey | clc | cld | cli | clv | sec | sed | sei | nop =>
    obtain rfl := exec_implied_inv rfl (by unfold exec; exact rfl) h
    exact ⟨0, by decide, rfl⟩
  | pha =>
    obtain ⟨w, hw, rfl⟩ := execPha_inv h
    obtain ⟨_, -, rfl⟩ := push_next hw
    exact ⟨0, by decide, rfl⟩
  | php =>
    obtain ⟨w, hw, rfl⟩ := execPhp_inv h
    obtain ⟨_, -, rfl⟩ := push_next hw
    exact ⟨0, by decide, rfl⟩
  | pla =>
    obtain ⟨v, rfl⟩ := execPla_inv h
    exact ⟨0, by decide, rfl⟩
  | plp =>
    obtain ⟨v, rfl⟩ := execPlp_inv h
    exact ⟨0, by decide, rfl⟩
  | jsr _ =>
    obtain ⟨u, hu, rfl⟩ := execJsr_inv h
    obtain ⟨-, -, -, -, _, _, _, rfl⟩ := pushWord_next hu
    exact ⟨0, by decide, rfl⟩
  | rts =>
    obtain ⟨w, rfl⟩ := execRts_inv h
    exact ⟨0, by decide, rfl⟩
  | rti =>
    obtain ⟨p, pc, rfl⟩ := execRti_inv h
    exact ⟨0, by decide, rfl⟩
  | brk =>
    obtain ⟨_, _, -, -, _, _, _, _, rfl, -⟩ := trapEntry_next (execBrk_inv h)
    exact ⟨0, by decide, rfl⟩
  | jmp _ =>
    obtain ⟨ea, u, -, hu, rfl⟩ := exec_inv rfl h
    cases hu
    exact ⟨_, extra ea, rfl⟩
  | undoc op =>
    obtain ⟨he, rfl⟩ := execUndoc_inv h
    exact ⟨0, by decide, by simp [Instr.opcode, he]⟩

/-- Every count of a legal cycle table is at least 1 (rule R3). -/
theorem one_le_baseCycles {cfg : Config} (h : configLegal cfg) (op : Byte) : 1 ≤ baseCycles cfg op := by
  obtain ⟨-, hcounts, -⟩ := h
  unfold baseCycles
  rw [List.getD_eq_getElem?_getD]
  cases hn : cfg.cycleTable[op.toNat]? with
  | none => exact Nat.le_refl 1
  | some n => exact hcounts n (List.mem_of_getElem? hn)

/-- With no call waiting, a step of a machine without a fault is a tick (rule R282). -/
theorem step_eq_clock {s : State} (hfault : s.fault = none) (hhost : s.host = []) : step s = clock s := by
  simp only [step, advance, hfault, hhost]

/-- A tick that finds the counter above 0 only counts down. -/
theorem clock_busy {s : State} (hstarted : s.started = true) (hbusy : s.cycles ≠ 0) :
    clock s = .next { s with cycles := s.cycles - 1 } := by
  rw [clock, if_pos hstarted, if_neg hbusy]
  rfl

/-- A tick at an instruction boundary runs the instruction and counts its first cycle. -/
theorem step_boundary {s : State} (h : ReadyToFetch s) : step s = countDown (instructionStep s) := by
  obtain ⟨hfault, hhost, hstarted, hcycles⟩ := h
  simp only [step_eq_clock hfault hhost, clock, hstarted, hcycles, if_true]

/-- The instruction step runs the well-formed instruction whose bytes stand at PC. -/
theorem instructionStep_of_bytes {s : State} {i : Instr} (hwf : WellFormed i)
    (hbytes : ∀ (k : Nat) (v : Byte), (encode i)[k]? = some v → s.read (s.pc + BitVec.ofNat 16 k) = .ok v) :
    instructionStep s = exec i s := by
  have hdec := Sys2Proof.decodeOfEncodeIsTheInstruction i [] hwf
  rw [List.append_nil] at hdec
  simp only [instructionStep, fetch_ok hwf hbytes, hdec]

/-- A run goes on from the state its first step answers. -/
theorem run_of_step {s t : State} (n : Nat) (h : step s = .next t) :
    Host.Core.run core (n + 1) s = Host.Core.run core n t := by
  have hstep : core.step s = .next t := h
  simp only [Host.Core.run, hstep]

/-- As many ticks as the counter says bring a machine that nobody calls to the next boundary. -/
theorem run_counts_down (n : Nat) {s : State} (hfault : s.fault = none) (hhost : s.host = [])
    (hstarted : s.started = true) (hcycles : s.cycles = n) :
    Host.Core.run core n s = .next { s with cycles := 0 } := by
  induction n generalizing s with
  | zero =>
    have hzero : s = { s with cycles := 0 } := by rw [← hcycles]
    exact congrArg Host.Outcome.next hzero
  | succ n ih =>
    have hstep : step s = .next { s with cycles := n } := by
      rw [step_eq_clock hfault hhost, clock_busy hstarted (by omega), hcycles]
      rfl
    rw [run_of_step n hstep]
    exact ih hfault hhost hstarted rfl

/-- Settles O48: the fetch reads the bytes in address order, and the tick counts down what the instruction leaves. -/
theorem stepRunsTheInstructionAtPc : Obligations.StepRunsTheInstructionAtPc := by
  refine ⟨fun s i hready hwf hbytes => ?_, fun s hready hclaim => ?_, fun s op a hready hop ha => ?_⟩
  · rw [step_boundary hready, instructionStep_of_bytes hwf hbytes]
    cases exec i s <;> rfl
  · have hfetch : s.fetch = .error (.busAbort s.pc) := by
      have hread := (read_error s).mpr ⟨claims_false.mp hclaim, rfl⟩
      simp only [State.fetch, hread, access_error_bind]
    rw [step_boundary hready, instructionStep, hfetch]
    rfl
  · rw [step_boundary hready, instructionStep, (fetch_accesses s hop).1 a ha]
    rfl

/-- Settles O49: the first tick runs the instruction, every later one counts down. -/
theorem instructionOccupiesItsCostInTicks : Obligations.InstructionOccupiesItsCostInTicks := by
  intro s t i hlegal hready hwf hbytes h
  obtain ⟨k, hk, hcycles⟩ := exec_cycles h
  have hbase := one_le_baseCycles hlegal (i.opcode.getD 0)
  refine ⟨by omega, by omega, ?_⟩
  obtain ⟨ea, -, hstores⟩ := exec_stores h
  obtain ⟨-, -, -, hfault, hstarted, hhost⟩ := hstores.frame
  obtain ⟨n, hn⟩ : ∃ n, t.cycles = n + 1 := ⟨t.cycles - 1, by omega⟩
  have hstep : step s = .next { t with cycles := n } := by
    rw [step_boundary hready, instructionStep_of_bytes hwf hbytes, h, countDown, hn]
    rfl
  obtain ⟨hf, hh, hs, -⟩ := hready
  rw [hn, run_of_step n hstep]
  exact run_counts_down n (hfault.trans hf) (hhost.trans hh) (hstarted.trans hs) rfl

end Sys2Proof.Machine
end

section
/-! What no instruction reads: the cycle counter (rule R287), and Decimal where it is neither written nor pushed (rule
R16). -/

namespace Sys2Proof.Machine

/-- Settles O59: `State.enter` overwrites the counter before anything reads it. -/
theorem instructionsDoNotReadTheCycleCounter : Obligations.InstructionsDoNotReadTheCycleCounter := by
  intro i s n
  cases i <;> rfl

/-! P has no part in any bus access: an access that completes completes with another P, which it leaves. -/

theorem write_setP {s w : State} {a : Addr} {v : Byte} (h : s.write a v = .ok w) (q : Byte) :
    (s.setP q).write a v = .ok (w.setP q) ∧ w.p = s.p := by
  obtain ⟨m, n, k, rfl⟩ := write_eq h
  exact ⟨write_congr (s := s) (t := s.setP q) rfl rfl rfl rfl rfl h, rfl⟩

theorem push_setP {s t : State} {v : Byte} (h : s.push v = .ok t) (q : Byte) :
    (s.setP q).push v = .ok (t.setP q) ∧ t.p = s.p := by
  obtain ⟨w, hw, rfl⟩ := push_ok.mp h
  obtain ⟨hwq, hp⟩ := write_setP hw q
  exact ⟨push_ok.mpr ⟨_, hwq, rfl⟩, hp⟩

theorem pushWord_setP {s t : State} {w : Addr} (h : s.pushWord w = .ok t) (q : Byte) :
    (s.setP q).pushWord w = .ok (t.setP q) ∧ t.p = s.p := by
  obtain ⟨u, hu, ht⟩ := pushWord_ok.mp h
  obtain ⟨huq, hup⟩ := push_setP hu q
  obtain ⟨htq, htp⟩ := push_setP ht q
  exact ⟨pushWord_ok.mpr ⟨_, huq, htq⟩, htp.trans hup⟩

theorem writeback_setP {m : Operand} {ea : Ea} {v : Byte} {s t : State} (h : writeback m ea v s = .ok t) (q : Byte) :
    writeback m ea v (s.setP q) = .ok (t.setP q) ∧ t.p = s.p := by
  rcases writeback_ok h with ⟨himp, rfl⟩ | ⟨hmem, hw⟩
  · exact ⟨writeback_of_eq_imp himp ea v _, rfl⟩
  · rw [writeback_of_ne_imp hmem]
    exact write_setP hw q

theorem effective_setP (m : Operand) (s : State) (q : Byte) : effective m (s.setP q) = effective m s := by
  cases m <;> rfl

theorem operandByte_setP (m : Operand) (ea : Ea) (s : State) (q : Byte) :
    operandByte m ea (s.setP q) = operandByte m ea s := by
  cases m <;> rfl

section Decimal

variable (d : Bool)

/-! The status computations keep Decimal and do not read it. -/

theorem putFlag_putFlag_d (p : Byte) {f : Flag} (hne : f ≠ .d) (v : Bool) :
    putFlag (putFlag p .d d) f v = putFlag (putFlag p f v) .d d := by
  refine status_ext fun g => ?_
  simp only [getFlag_putFlag]
  by_cases hf : g = f
  · subst hf
    simp [hne]
  · simp [hf]

theorem getFlag_c_putFlag_d (p : Byte) : getFlag (putFlag p .d d) .c = getFlag p .c :=
  getFlag_putFlag_other p (by decide) d

theorem setZN_putFlag_d (p v : Byte) : setZN (putFlag p .d d) v = putFlag (setZN p v) .d d := by
  rw [setZN, setZN, putFlag_putFlag_d d p (by decide), putFlag_putFlag_d d _ (by decide)]

theorem shiftStatus_putFlag_d (p : Byte) (out : Bool) (r : Byte) :
    shiftStatus (putFlag p .d d) out r = putFlag (shiftStatus p out r) .d d := by
  rw [shiftStatus, shiftStatus, putFlag_putFlag_d d p (by decide), setZN_putFlag_d]

theorem compareStatus_putFlag_d (p r m : Byte) :
    compareStatus (putFlag p .d d) r m = putFlag (compareStatus p r m) .d d :=
  shiftStatus_putFlag_d d p _ _

theorem bitStatus_putFlag_d (p a m : Byte) : bitStatus (putFlag p .d d) a m = putFlag (bitStatus p a m) .d d := by
  rw [bitStatus, bitStatus, putFlag_putFlag_d d p (by decide), putFlag_putFlag_d d _ (by decide),
    putFlag_putFlag_d d _ (by decide)]

theorem addStatus_putFlag_d (p a m : Byte) : addStatus (putFlag p .d d) a m = putFlag (addStatus p a m) .d d := by
  rw [addStatus, addStatus, getFlag_c_putFlag_d, putFlag_putFlag_d d p (by decide), setZN_putFlag_d,
    putFlag_putFlag_d d _ (by decide)]

/-- An addition adds in binary whatever Decimal holds (rules R140 and R141). -/
theorem addition_setFlag_d (r : State) (m : Byte) :
    ((r.setFlag .d d).setP (addStatus (r.setFlag .d d).p r.a m)).setA (addByte r.a m ((r.setFlag .d d).flag .c)) =
      ((r.setP (addStatus r.p r.a m)).setA (addByte r.a m (r.flag .c))).setFlag .d d := by
  have hstatus : addStatus (r.setFlag .d d).p r.a m = putFlag (addStatus r.p r.a m) .d d := addStatus_putFlag_d d _ _ _
  have hcarry : (r.setFlag .d d).flag .c = r.flag .c := getFlag_c_putFlag_d d _
  rw [hstatus, hcarry]
  rfl

theorem setResultFlags_setFlag_d (r : State) (v : Byte) :
    (r.setFlag .d d).setResultFlags v = (r.setResultFlags v).setFlag .d d :=
  congrArg r.setP (setZN_putFlag_d d r.p v)

theorem setFlag_setFlag_d (r : State) {f : Flag} (hne : f ≠ .d) (v : Bool) :
    (r.setFlag .d d).setFlag f v = (r.setFlag f v).setFlag .d d :=
  congrArg r.setP (putFlag_putFlag_d d r.p hne v)

theorem takeBranch_setFlag_d (condition : Bool) (rel8 : Byte) (r : State) :
    takeBranch condition rel8 (r.setFlag .d d) = (takeBranch condition rel8 r).setFlag .d d := by
  cases condition <;> rfl

/-! An instruction whose operation carries Decimal along carries it along. -/

variable {d} {i : Instr} {s t : State}

theorem enter_setFlag_d (op : Byte) (md : Mode) :
    (s.setFlag .d d).enter op md = (s.enter op md).setFlag .d d :=
  congrArg (s.enter op md).setP (putFlag_putFlag_d d s.p (by decide) true)

theorem exec_setFlag_d {operation : Ea → State → Access State}
    (hexec : ∀ s, exec i s = execute i.mnemonic i.operand operation s)
    (hop : ∀ ea r u, operation ea r = .ok u → operation ea (r.setFlag .d d) = .ok (u.setFlag .d d))
    (h : exec i s = .next t) : exec i (s.setFlag .d d) = .next (t.setFlag .d d) := by
  obtain ⟨op, ea, u, hcode, hea, hu, rfl⟩ := execute_eq_next (hexec s ▸ h)
  have hea' : effective i.operand ((s.setFlag .d d).enter op i.operand.mode) = .ok ea := by
    rw [enter_setFlag_d, State.setFlag, effective_setP, hea]
  rw [hexec, execute_next hcode hea' (enter_setFlag_d op _ ▸ hop ea _ u hu)]
  rfl

theorem exec_read_setFlag_d {f : Byte → State → State}
    (hexec : ∀ s, exec i s = executeRead i.mnemonic i.operand f s)
    (hf : ∀ v r, f v (r.setFlag .d d) = (f v r).setFlag .d d) (h : exec i s = .next t) :
    exec i (s.setFlag .d d) = .next (t.setFlag .d d) := by
  refine exec_setFlag_d hexec (fun ea r u hu => ?_) h
  obtain ⟨v, hv, hu⟩ := access_bind_ok.mp hu
  cases hu
  exact access_bind_ok.mpr ⟨v, (operandByte_setP _ _ _ _).trans hv, congrArg _ (hf v r)⟩

theorem exec_modify_setFlag_d {result status : Byte → Byte → Byte}
    (hexec : ∀ s, exec i s = executeModify i.mnemonic i.operand result status s)
    (hresult : ∀ p v, result (putFlag p .d d) v = result p v)
    (hstatus : ∀ p v, status (putFlag p .d d) v = putFlag (status p v) .d d) (h : exec i s = .next t) :
    exec i (s.setFlag .d d) = .next (t.setFlag .d d) := by
  refine exec_setFlag_d hexec (fun ea r u hu => ?_) h
  obtain ⟨v, hv, hu⟩ := access_bind_ok.mp hu
  obtain ⟨hwrite, hp⟩ := writeback_setP hu (putFlag (status r.p v) .d d)
  refine access_bind_ok.mpr ⟨v, (operandByte_setP _ _ _ _).trans hv, ?_⟩
  have hd : (r.setFlag .d d).p = putFlag r.p .d d := rfl
  rw [hd, hresult, hstatus, State.setFlag, State.setFlag, hp]
  exact hwrite

theorem exec_store_setFlag_d {register : State → Byte}
    (hexec : ∀ s, exec i s = executeStore i.mnemonic i.operand register s)
    (hregister : ∀ r, register (r.setFlag .d d) = register r) (h : exec i s = .next t) :
    exec i (s.setFlag .d d) = .next (t.setFlag .d d) := by
  refine exec_setFlag_d hexec (fun ea r u hu => ?_) h
  obtain ⟨hwrite, hp⟩ := write_setP hu (putFlag r.p .d d)
  rw [hregister, State.setFlag, State.setFlag, hp]
  exact hwrite

theorem exec_implied_setFlag_d {f : State → State} (himp : i.operand = .imp)
    (hexec : ∀ s, exec i s = executeImplied i.mnemonic f s) (hf : ∀ r, f (r.setFlag .d d) = (f r).setFlag .d d)
    (h : exec i s = .next t) : exec i (s.setFlag .d d) = .next (t.setFlag .d d) := by
  refine exec_setFlag_d (operation := fun _ t => .ok (f t)) (fun s => ?_) (fun ea r u hu => ?_) h
  · rw [hexec, himp]
    rfl
  · cases hu
    exact congrArg _ (hf r)

theorem exec_branch_setFlag_d {rel8 : Byte} {condition : State → Bool} (hrel : i.operand = .rel rel8)
    (hexec : ∀ s, exec i s = executeBranch i.mnemonic rel8 condition s)
    (hcondition : ∀ r, condition (r.setFlag .d d) = condition r) (h : exec i s = .next t) :
    exec i (s.setFlag .d d) = .next (t.setFlag .d d) := by
  refine exec_setFlag_d (operation := fun _ t => .ok (takeBranch (condition t) rel8 t)) (fun s => ?_)
    (fun ea r u hu => ?_) h
  · rw [hexec, hrel]
    rfl
  · cases hu
    rw [hcondition, takeBranch_setFlag_d]

end Decimal

/-- A flag other than Decimal reads the same with Decimal written. -/
theorem flag_setFlag_d (d : Bool) (r : State) {f : Flag} (hne : f ≠ .d) : (r.setFlag .d d).flag f = r.flag f :=
  getFlag_putFlag_other r.p hne d

/-- Settles O60: the six mnemonics left out are those whose status, or pushed byte, is made with Decimal. -/
theorem decimalFlagChangesNoResult : Obligations.DecimalFlagChangesNoResult := by
  intro i s t d hmn h
  cases i with
  | adc _ | sbc _ => exact exec_read_setFlag_d (fun _ => rfl) (fun v r => addition_setFlag_d d r _) h
  | cmp _ | cpx _ | cpy _ =>
    exact exec_read_setFlag_d (fun _ => rfl) (fun v r => congrArg r.setP (compareStatus_putFlag_d d r.p _ v)) h
  | lda _ => exact exec_read_setFlag_d (fun _ => rfl) (fun v r => setResultFlags_setFlag_d d (r.setA v) v) h
  | ldx _ => exact exec_read_setFlag_d (fun _ => rfl) (fun v r => setResultFlags_setFlag_d d (r.setX v) v) h
  | ldy _ => exact exec_read_setFlag_d (fun _ => rfl) (fun v r => setResultFlags_setFlag_d d (r.setY v) v) h
  | and _ | ora _ | eor _ =>
    exact exec_read_setFlag_d (fun _ => rfl) (fun v r => setResultFlags_setFlag_d d (r.setA _) _) h
  | bit _ => exact exec_read_setFlag_d (fun _ => rfl) (fun v r => congrArg r.setP (bitStatus_putFlag_d d r.p r.a v)) h
  | asl _ | lsr _ =>
    refine exec_modify_setFlag_d (fun s => by unfold exec; exact rfl) ?_ ?_ h
    · exact fun _ _ => rfl
    · exact fun p v => shiftStatus_putFlag_d d p _ _
  | rol _ | ror _ =>
    refine exec_modify_setFlag_d (fun s => by unfold exec; exact rfl) ?_ ?_ h
    · exact fun p v => by rw [getFlag_c_putFlag_d]
    · exact fun p v => by rw [getFlag_c_putFlag_d, shiftStatus_putFlag_d]
  | inc _ | dec _ =>
    refine exec_modify_setFlag_d (fun s => by unfold exec; exact rfl) ?_ ?_ h
    · exact fun _ _ => rfl
    · exact fun p v => setZN_putFlag_d d p _
  | sta _ | stx _ | sty _ => exact exec_store_setFlag_d (fun _ => rfl) (fun _ => rfl) h
  | bcs _ | beq _ | bmi _ | bvs _ =>
    refine exec_branch_setFlag_d rfl (fun s => by unfold exec; exact rfl) ?_ h
    exact fun r => flag_setFlag_d d r (by decide)
  | bcc _ | bne _ | bpl _ | bvc _ =>
    refine exec_branch_setFlag_d rfl (fun s => by unfold exec; exact rfl) ?_ h
    exact fun r => congrArg Bool.not (flag_setFlag_d d r (by decide))
  | txa | tya =>
    refine exec_implied_setFlag_d rfl (fun s => by unfold exec; exact rfl) ?_ h
    exact fun r => setResultFlags_setFlag_d d (r.setA _) _
  | tax | tsx | inx | dex =>
    refine exec_implied_setFlag_d rfl (fun s => by unfold exec; exact rfl) ?_ h
    exact fun r => setResultFlags_setFlag_d d (r.setX _) _
  | tay | iny | dey =>
    refine exec_implied_setFlag_d rfl (fun s => by unfold exec; exact rfl) ?_ h
    exact fun r => setResultFlags_setFlag_d d (r.setY _) _
  | txs | nop =>
    refine exec_implied_setFlag_d rfl (fun s => by unfold exec; exact rfl) ?_ h
    exact fun r => rfl
  | clc | cli | clv | sec | sei =>
    refine exec_implied_setFlag_d rfl (fun s => by unfold exec; exact rfl) ?_ h
    exact fun r => setFlag_setFlag_d d r (by decide) _
  | pha =>
    refine exec_setFlag_d (fun _ => rfl) (fun ea r u hu => ?_) h
    obtain ⟨hpush, hp⟩ := push_setP hu (putFlag r.p .d d)
    rw [State.setFlag, State.setFlag, hp]
    exact hpush
  | pla =>
    refine exec_setFlag_d (fun _ => rfl) (fun ea r u hu => ?_) h
    obtain ⟨w, hw, hu⟩ := access_bind_ok.mp hu
    obtain ⟨v, hv, rfl⟩ := pull_ok.mp hw
    cases hu
    refine access_bind_ok.mpr ⟨_, pull_ok.mpr ⟨v, hv, rfl⟩, ?_⟩
    exact congrArg Except.ok (setResultFlags_setFlag_d d ((r.setSp (r.sp + 1)).setA v) v)
  | jsr _ =>
    refine exec_setFlag_d (fun _ => rfl) (fun ea r u hu => ?_) h
    obtain ⟨w, hw, hu⟩ := access_bind_ok.mp hu
    cases hu
    obtain ⟨hpush, hp⟩ := pushWord_setP hw (putFlag r.p .d d)
    refine access_bind_ok.mpr ⟨_, hpush, ?_⟩
    rw [← hp]
    rfl
  | rts =>
    refine exec_setFlag_d (fun _ => rfl) (fun ea r u hu => ?_) h
    obtain ⟨w, hw, hu⟩ := access_bind_ok.mp hu
    obtain ⟨lo, hi, hlo, hhi, rfl⟩ := pullWord_ok.mp hw
    cases hu
    exact access_bind_ok.mpr ⟨_, pullWord_ok.mpr ⟨lo, hi, hlo, hhi, rfl⟩, rfl⟩
  | jmp _ =>
    refine exec_setFlag_d (fun _ => rfl) (fun ea r u hu => ?_) h
    cases hu
    rfl
  | undoc op =>
    obtain ⟨he, rfl⟩ := execUndoc_inv h
    have hnext : exec (.undoc op) (s.setFlag .d d) = .next ((s.setFlag .d d).enter op .imp) := by
      simp only [exec, execUndoc, he]
    rw [hnext, enter_setFlag_d]
  | php | brk | plp | rti | cld | sed => exact absurd (by decide) hmn

end Sys2Proof.Machine
end

section
/-! The addressing modes as plain arithmetic (rules R121 to R132). -/

namespace Sys2Proof.Machine

theorem zeroPage_eq_ofNat (b : Byte) : zeroPage b = BitVec.ofNat 16 b.toNat := by
  have hlt := b.isLt
  apply BitVec.eq_of_toNat_eq
  rw [zeroPage_toNat, BitVec.toNat_ofNat]
  omega

/-- Indexing inside the zero page wraps modulo 256 (D13). -/
theorem zeroPage_add (b c : Byte) : zeroPage (b + c) = BitVec.ofNat 16 ((b.toNat + c.toNat) % 256) := by
  rw [zeroPage_eq_ofNat, BitVec.toNat_add]

/-- Settles O16: a page-zero sum wraps as a byte before it becomes an address. -/
theorem directModesAddress : Obligations.DirectModesAddress := by
  intro s b w
  refine ⟨rfl, ?_, ?_, ?_, rfl⟩
  · rw [effective, zeroPage_eq_ofNat]
  · rw [effective, zeroPage_add]
  · rw [effective, zeroPage_add]

/-- The effective address and the extra-cycle request of a base plus an index (rule R128). -/
theorem indexed_arithmetic (base : Addr) (index : Byte) :
    (indexed base index).addr.toNat = (base.toNat + index.toNat) % 65536 ∧
      ((indexed base index).crossed = true ↔ 256 ≤ base.toNat % 256 + index.toNat) := by
  refine ⟨?_, ?_⟩
  · rw [indexed, BitVec.toNat_add, zeroPage_toNat]
  · rw [← page_crossed, indexed, bne_iff_ne]

/-- Settles O17: both modes are a base plus an index register. -/
theorem indexedModesAddress : Obligations.IndexedModesAddress :=
  fun s base => ⟨⟨_, rfl, indexed_arithmetic base s.x⟩, _, rfl, indexed_arithmetic base s.y⟩

/-- The address after a pointer byte inside its page (rule R130). -/
theorem page_successor (ptr : Addr) : (if loByte ptr = 0xFF then wordOf 0x00 (hiByte ptr) else ptr + 1) =
    if ptr.toNat % 256 = 255 then ptr - 255 else ptr + 1 := by
  have hlast : loByte ptr = 0xFF ↔ ptr.toNat % 256 = 255 := by
    rw [BitVec.toNat_eq, loByte_toNat]
    rfl
  by_cases h : ptr.toNat % 256 = 255
  · have hstart : (wordOf 0x00 (hiByte ptr)).toNat = ptr.toNat / 256 * 256 := by
      rw [wordOf_toNat, hiByte_toNat]
      exact Nat.add_zero _
    rw [if_pos (hlast.mpr h), if_pos h]
    apply BitVec.eq_of_toNat_eq
    have hsub : (ptr - 255).toNat = (65536 - 255 + ptr.toNat) % 65536 := BitVec.toNat_sub ptr 255
    have hlt := ptr.isLt
    rw [hstart, hsub]
    omega
  · rw [if_neg (hlast.not.mpr h), if_neg h]

/-- Settles O18: the second byte of the pointer comes from the first one's page. -/
theorem indirectModeWrapsInThePage : Obligations.IndirectModeWrapsInThePage := by
  intro s ptr lo hi hlo hhi
  rw [← page_successor] at hhi
  have hword : s.readPageWord ptr = .ok (wordOf lo hi) := by
    simp only [State.readPageWord, hlo, hhi, access_ok_bind]
  simp only [effective, hword, access_ok_bind, wordOf_eq_ofNat]

/-- A pointer in the zero page whose two bytes read (rules R131 and R132). -/
theorem readZeroPageWord_of_read {s : State} {p lo hi : Byte} (hlo : s.read (BitVec.ofNat 16 p.toNat) = .ok lo)
    (hhi : s.read (BitVec.ofNat 16 ((p.toNat + 1) % 256)) = .ok hi) : s.readZeroPageWord p = .ok (wordOf lo hi) := by
  rw [← zeroPage_eq_ofNat] at hlo
  have hsucc : zeroPage (p + 1) = BitVec.ofNat 16 ((p.toNat + 1) % 256) := zeroPage_add p 1
  rw [← hsucc] at hhi
  simp only [State.readZeroPageWord, hlo, hhi, access_ok_bind]

/-- Settles O19: both modes read a zero-page pointer; X is added to its address, Y to the word it holds. -/
theorem zeroPagePointerModesAddress : Obligations.ZeroPagePointerModesAddress := by
  refine ⟨fun s b lo hi hlo hhi => ?_, fun s b lo hi hlo hhi => ?_⟩
  · have hsum : (b + s.x).toNat = (b.toNat + s.x.toNat) % 256 := BitVec.toNat_add b s.x
    have hword : s.readZeroPageWord (b + s.x) = .ok (wordOf lo hi) := by
      refine readZeroPageWord_of_read (by rwa [hsum]) ?_
      rwa [hsum, Nat.mod_add_mod]
    simp only [effective, hword, access_ok_bind, wordOf_eq_ofNat]
  · obtain ⟨haddr, hcrossed⟩ := indexed_arithmetic (wordOf lo hi) s.y
    rw [wordOf_toNat] at haddr hcrossed
    have hlt := lo.isLt
    refine ⟨indexed (wordOf lo hi) s.y, ?_, haddr, hcrossed.trans (by omega)⟩
    simp only [effective, readZeroPageWord_of_read hlo hhi, access_ok_bind]

end Sys2Proof.Machine
end

section
/-! SBC, the logic instructions, BIT, NOP and the fallback (rules R141 and R240 to R245). -/

namespace Sys2Proof.Machine

/-- The encodings of rule R141. -/
theorem sbc_encodings :
    Encodings .sbc [(.imm, 0xE9, 2), (.zp0, 0xE5, 3), (.zpx, 0xF5, 4), (.abs, 0xED, 4), (.abx, 0xFD, 4),
      (.aby, 0xF9, 4), (.izx, 0xE1, 6), (.izy, 0xF1, 5)] :=
  ⟨fun m => by cases m <;> rfl, by decide⟩

/-- SBC where its operand is readable: A and P of adding the complement (rule R141). -/
theorem exec_sbc_next {m : Operand} {s : State} {ea : Ea} {v : Byte} (hwf : WellFormed (.sbc m))
    (h : OperandIs (.sbc m) s ea v) :
    exec (.sbc m) s = .next { s.after (.sbc m) (extraCycles s.cfg .sbc ea.crossed) with
      a := addByte s.a (~~~v) (s.flag .c), p := addStatus (putFlag s.p .u true) s.a (~~~v) } := by
  have hnext := executeRead_after (i := .sbc m) (mn := .sbc)
    (operation := fun v t => (t.setP (addStatus t.p t.a (~~~v))).setA (addByte t.a (~~~v) (t.flag .c)))
    rfl hwf.1 (by decide) h
  rw [after_a, after_p, flag_c_after] at hnext
  exact hnext

/-- Settles O21: adding the complement with the carry is subtracting with the borrow. -/
theorem sbcSubtractsWithBorrow : Obligations.SbcSubtractsWithBorrow := by
  refine ⟨sbc_encodings, by decide, fun m s ea v hwf h => ?_⟩
  refine ⟨_, _, exec_sbc_next hwf h, subByte_toNat s.a v (s.flag .c), ?_⟩
  have hflags := flagsAre_addStatus s.p s.a (~~~v)
  rw [subCarry_eq, subOverflow_eq] at hflags
  exact hflags

/-- The encodings of rules R240 to R242. -/
theorem logic_encodings :
    Encodings .and [(.imm, 0x29, 2), (.zp0, 0x25, 3), (.zpx, 0x35, 4), (.abs, 0x2D, 4), (.abx, 0x3D, 4),
        (.aby, 0x39, 4), (.izx, 0x21, 6), (.izy, 0x31, 5)] ∧
      Encodings .ora [(.imm, 0x09, 2), (.zp0, 0x05, 3), (.zpx, 0x15, 4), (.abs, 0x0D, 4), (.abx, 0x1D, 4),
        (.aby, 0x19, 4), (.izx, 0x01, 6), (.izy, 0x11, 5)] ∧
      Encodings .eor [(.imm, 0x49, 2), (.zp0, 0x45, 3), (.zpx, 0x55, 4), (.abs, 0x4D, 4), (.abx, 0x5D, 4),
        (.aby, 0x59, 4), (.izx, 0x41, 6), (.izy, 0x51, 5)] := by
  refine ⟨⟨fun m => ?_, by decide⟩, ⟨fun m => ?_, by decide⟩, ⟨fun m => ?_, by decide⟩⟩ <;> cases m <;> rfl

/-- AND puts A AND M in A (rule R240). -/
theorem and_readIs : ReadIs .and .and State.setA (fun s v => s.a &&& v) :=
  readIs_of_executeRead (fun _ => rfl) (by decide) (fun _ _ => rfl) putsRegister_setA fun _ _ _ => rfl

/-- ORA puts A OR M in A (rule R241). -/
theorem ora_readIs : ReadIs .ora .ora State.setA (fun s v => s.a ||| v) :=
  readIs_of_executeRead (fun _ => rfl) (by decide) (fun _ _ => rfl) putsRegister_setA fun _ _ _ => rfl

/-- EOR puts A XOR M in A (rule R242). -/
theorem eor_readIs : ReadIs .eor .eor State.setA (fun s v => s.a ^^^ v) :=
  readIs_of_executeRead (fun _ => rfl) (by decide) (fun _ _ => rfl) putsRegister_setA fun _ _ _ => rfl

/-- Settles O24: the three are read instructions whose result combines A and the operand byte. -/
theorem logicInstructionsCombineWithA : Obligations.LogicInstructionsCombineWithA := by
  obtain ⟨hand, hora, heor⟩ := logic_encodings
  exact ⟨hand, hora, heor, by decide, and_readIs, ora_readIs, eor_readIs⟩

/-- Settles O25: BIT only writes P. -/
theorem bitTestsMemory : Obligations.BitTestsMemory := by
  refine ⟨⟨fun m => by cases m <;> rfl, by decide⟩, by decide, fun m s ea v hwf h => ?_⟩
  exact ⟨bitStatus (putFlag s.p .u true) s.a v,
    executeRead_after (i := .bit m) (operation := fun v t => t.setP (bitStatus t.p t.a v)) rfl hwf.1 (by decide) h,
    flagsAre_bitStatus s.p s.a v⟩

/-- The fallback of an undocumented byte does what every instruction does, and nothing more (rule R245). -/
theorem exec_undoc {op : Byte} (h : op ∈ undocumentedBytes) (s : State) :
    exec (.undoc op) s = .next (s.enter op .imp) := by
  simp only [exec, execUndoc, opcodeEntry_none.mpr h]

/-- Settles O26: neither has an operation of its own. -/
theorem nopAndFallbackHaveNoEffect : Obligations.NopAndFallbackHaveNoEffect := by
  obtain ⟨-, -, -, hcost⟩ := undocumentedBytesDecodeToTheFallback
  refine ⟨⟨rfl, rfl⟩, executeImplied_after (i := .nop) (operation := fun t => t) (by decide) (by decide) rfl,
    fun op hop => ⟨⟨?_, hcost op hop⟩, ?_⟩⟩
  · exact if_pos (opcodeEntry_none.mpr hop)
  · exact exec_undoc hop

end Sys2Proof.Machine
end

section
/-! Branches (rules R170 to R178): the one argument the eight mnemonics share. -/

namespace Sys2Proof.Machine

/-- The extra cycles of a taken branch by the pages of its target and of the following instruction (rule R170). -/
theorem branchCycles_eq (next : Addr) (rel8 : Byte) :
    branchCycles next rel8 = if (branchTarget next rel8).toNat / 256 = next.toNat / 256 then 1 else 2 := by
  simp only [branchCycles, BitVec.toNat_eq, hiByte_toNat]

/-- A branch in terms of the common part of an instruction. -/
theorem exec_branch_next {i : Instr} {op rel8 : Byte} {condition : State → Bool} (hop : i.opcode = some op)
    (hrel : i.operand = .rel rel8) (hexec : ∀ s, exec i s = executeBranch i.mnemonic rel8 condition s) (s : State) :
    exec i s = .next (takeBranch (condition (s.after i 0)) rel8 (s.after i 0)) := by
  have hne : i.mnemonic ≠ .undoc := fun hm => by
    cases i <;> simp [Instr.mnemonic] at hm
    cases hrel
  have hcode := (opcode_eq hne).symm.trans hop
  have hea : AddressIs i s { addr := 0, crossed := false } := by
    rw [AddressIs, hrel]
    rfl
  have hnext := execute_after (operation := fun _ t => .ok (takeBranch (condition t) rel8 t)) (opcode_eq hne)
    (mode_of_opcodeOf hcode) hne hea rfl
  rw [hrel] at hnext
  exact (hexec s).trans hnext

/-- A branch whose condition compares one flag other than U. -/
theorem branchIs_of_executeBranch {f : Byte → Instr} {op : Byte} {flag : Flag} {value : Bool}
    {condition : State → Bool} (hcondition : ∀ s, condition s = true ↔ s.flag flag = value) (hu : flag ≠ .u)
    (henc : ∀ rel8, EncodedAs (f rel8) op 2) (hrel : ∀ rel8, (f rel8).operand = .rel rel8)
    (hexec : ∀ rel8 s, exec (f rel8) s = executeBranch (f rel8).mnemonic rel8 condition s) :
    BranchIs f op flag value := by
  refine fun rel8 => ⟨henc rel8, fun s => ?_⟩
  have hnext := exec_branch_next (henc rel8).1 (hrel rel8) (hexec rel8) s
  have hpc : (s.after (f rel8) 0).pc = s.pc + 2 := by
    rw [after_pc, Instr.length, hrel]
    rfl
  have htaken : condition (s.after (f rel8) 0) = true ↔ s.flag flag = value := by
    rw [hcondition, State.flag, after_p, getFlag_after s.p hu, State.flag]
  refine ⟨fun hfalse => ?_, fun htrue => ?_⟩
  · rw [hnext, takeBranch, if_neg (htaken.not.mpr hfalse)]
  · refine ⟨branchTarget (s.pc + 2) rel8, branchCycles (s.pc + 2) rel8, ?_, branchTarget_toNat _ _, branchCycles_eq _ _⟩
    rw [hnext, takeBranch, if_pos (htaken.mpr htrue), hpc]
    rfl

theorem flag_clear (flag : Flag) (s : State) : (!s.flag flag) = true ↔ s.flag flag = false := by
  rw [Bool.not_eq_true']

theorem flag_set (flag : Flag) (s : State) : s.flag flag = true ↔ s.flag flag = true := Iff.rfl

/-- Settles O33: each of the eight is a branch on one flag. -/
theorem branchesTestOneFlag : Obligations.BranchesTestOneFlag :=
  ⟨branchIs_of_executeBranch (flag_clear .c) (by decide) (fun _ => ⟨rfl, rfl⟩) (fun _ => rfl) fun _ _ => rfl,
    branchIs_of_executeBranch (flag_set .c) (by decide) (fun _ => ⟨rfl, rfl⟩) (fun _ => rfl) fun _ _ => rfl,
    branchIs_of_executeBranch (flag_set .z) (by decide) (fun _ => ⟨rfl, rfl⟩) (fun _ => rfl) fun _ _ => rfl,
    branchIs_of_executeBranch (flag_set .n) (by decide) (fun _ => ⟨rfl, rfl⟩) (fun _ => rfl) fun _ _ => rfl,
    branchIs_of_executeBranch (flag_clear .z) (by decide) (fun _ => ⟨rfl, rfl⟩) (fun _ => rfl) fun _ _ => rfl,
    branchIs_of_executeBranch (flag_clear .n) (by decide) (fun _ => ⟨rfl, rfl⟩) (fun _ => rfl) fun _ _ => rfl,
    branchIs_of_executeBranch (flag_clear .v) (by decide) (fun _ => ⟨rfl, rfl⟩) (fun _ => rfl) fun _ _ => rfl,
    branchIs_of_executeBranch (flag_set .v) (by decide) (fun _ => ⟨rfl, rfl⟩) (fun _ => rfl) fun _ _ => rfl⟩

end Sys2Proof.Machine
end

section
/-! The stack (rule R180): what a sequence of pushes writes, and reading it back. -/

namespace Sys2Proof.Machine

/-- Writes go the same way whatever SP holds. -/
theorem write_setSp {s w : State} {a : Addr} {v : Byte} (h : s.write a v = .ok w) (n : Byte) :
    (s.setSp n).write a v = .ok (w.setSp n) := by
  obtain ⟨m, k, l, rfl⟩ := write_eq h
  exact write_congr (s := s) (t := s.setSp n) rfl rfl rfl rfl rfl h

theorem pushedTo_setSp {s w : State} {sp : Byte} {l : List Byte} (h : PushedTo s sp l w) (n : Byte) :
    PushedTo (s.setSp n) sp l (w.setSp n) := by
  induction l generalizing s sp with
  | nil =>
    obtain rfl : w = s := h
    rfl
  | cons v rest ih =>
    obtain ⟨t, ht, hw⟩ := h
    exact ⟨_, write_setSp ht n, ih hw⟩

/-- Pushed bytes leave the registers and everything off the bus. -/
theorem pushedTo_eq {s w : State} {sp : Byte} {l : List Byte} (h : PushedTo s sp l w) :
    ∃ m n k, w = { s with mem := m, prgBank := n, chrBank := k } := by
  induction l generalizing s sp with
  | nil =>
    obtain rfl : w = s := h
    exact ⟨_, _, _, rfl⟩
  | cons v rest ih =>
    obtain ⟨t, ht, hw⟩ := h
    obtain ⟨_, _, _, rfl⟩ := write_eq ht
    have hrest := ih hw
    exact hrest

theorem pushedTo_nil (s : State) (sp : Byte) : PushedTo s sp [] s := rfl

/-- A push, and then the bytes pushed after it. -/
theorem pushedTo_cons {s t w : State} {v : Byte} {rest : List Byte} (h : s.push v = .ok t)
    (hw : PushedTo t (s.sp - 1) rest w) : PushedTo s s.sp (v :: rest) (w.setSp s.sp) := by
  obtain ⟨x, hx, rfl⟩ := push_ok.mp h
  rw [stackAddr_eq] at hx
  refine ⟨x, hx, ?_⟩
  have hback := pushedTo_setSp hw s.sp
  obtain ⟨_, _, _, rfl⟩ := write_eq hx
  exact hback

/-- One push. -/
theorem pushedTo_push {s t : State} {v : Byte} (h : s.push v = .ok t) :
    ∃ w, PushedTo s s.sp [v] w ∧ t = { w with sp := s.sp - 1 } := by
  obtain ⟨_, -, rfl⟩ := push_next h
  exact ⟨_, pushedTo_cons h (pushedTo_nil _ _), rfl⟩

/-- The two pushes of a word (rule R43). -/
theorem pushedTo_pushWord {s t : State} {w : Addr} (h : s.pushWord w = .ok t) :
    ∃ x, PushedTo s s.sp [hiByte w, loByte w] x ∧ t = { x with sp := s.sp - 2 } := by
  obtain ⟨u, hu, ht, hsp, _, _, _, rfl⟩ := pushWord_next h
  have hlo := pushedTo_cons ht (pushedTo_nil _ _)
  rw [hsp] at hlo
  refine ⟨_, pushedTo_cons hu hlo, ?_⟩
  have htwo : s.sp - 1 - 1 = s.sp - 2 := by bv_omega
  rw [htwo]
  rfl

/-- The two bytes of a word give it back. -/
theorem ofNat_hiByte_loByte (w : Addr) : BitVec.ofNat 16 ((hiByte w).toNat * 256 + (loByte w).toNat) = w := by
  rw [← wordOf_eq_ofNat, wordOf_loByte_hiByte]

/-- Trap entry in the terms of the statements (rule R256). -/
theorem trapTaken_of_trapEntry {s t : State} {ret vector : Addr} {status : Byte}
    (h : trapEntry ret status vector s = .ok t) : TrapTaken s t ret status vector := by
  obtain ⟨u, w, target, hu, hw, htarget, rfl⟩ := trapEntry_ok.mp h
  obtain ⟨r, hr, hlo, hrsp, -⟩ := pushWord_next hu
  obtain ⟨husp, -⟩ := push_frame hlo
  obtain ⟨vlo, vhi, hvlo, hvhi, rfl⟩ := readWord_ok.mp htarget
  have hstatus := pushedTo_cons hw (pushedTo_nil _ _)
  rw [husp] at hstatus
  have hword := pushedTo_cons hlo hstatus
  rw [hrsp] at hword
  refine ⟨_, hiByte ret, loByte ret, vlo, vhi, pushedTo_cons hr hword, ofNat_hiByte_loByte ret, hvlo, hvhi, ?_⟩
  obtain ⟨-, -, -, -, _, _, _, rfl⟩ := pushWord_next hu
  obtain ⟨_, -, rfl⟩ := push_next hw
  have hthree : s.sp - 1 - 1 - 1 = s.sp - 3 := by bv_omega
  rw [← wordOf_eq_ofNat, ← hthree]
  rfl

/-- The pushed bytes of a stack pointer lie in RAM, each in a byte of its own: `StackInRam` for any stack pointer. -/
def PushesInRam (s : State) (sp : Byte) (n : Nat) : Prop :=
  s.mem.wf = true ∧ (∀ j, j < n → ∃ key, s.target (pushAddr sp j) = some (.cell key)) ∧
    ∀ j k, j < n → k < n → j ≠ k → s.target (pushAddr sp j) ≠ s.target (pushAddr sp k)

theorem stackInRam_iff {s : State} {n : Nat} : StackInRam s n ↔ PushesInRam s s.sp n := Iff.rfl

/-- The bytes below the first pushed one, after it was pushed. -/
theorem PushesInRam.tail {s t : State} {sp : Byte} {n : Nat} {v : Byte} (h : PushesInRam s sp (n + 1))
    (ht : s.write (pushAddr sp 0) v = .ok t) : PushesInRam t (sp - 1) n := by
  obtain ⟨hwf, hcell, hne⟩ := h
  obtain ⟨key, hkey⟩ := hcell 0 (by omega)
  refine ⟨?_, fun j hj => ?_, fun j k hj hk hjk => ?_⟩
  · rw [write_of_target s hkey] at ht
    cases ht
    exact Memory.wf_write hwf key v
  · rw [pushAddr_succ, write_target ht]
    exact hcell (j + 1) (by omega)
  · rw [pushAddr_succ, pushAddr_succ, write_target ht, write_target ht]
    exact hne (j + 1) (k + 1) (by omega) (by omega) (by omega)

/-- Pushes leave every address whose byte is not one of theirs. -/
theorem pushedTo_read_other {s w : State} {sp : Byte} {l : List Byte} (h : PushedTo s sp l w) {b : Addr}
    (hb : ∀ j, j < l.length → s.target b ≠ s.target (pushAddr sp j)) : w.read b = s.read b := by
  induction l generalizing s sp with
  | nil =>
    obtain rfl : w = s := h
    rfl
  | cons v rest ih =>
    obtain ⟨t, ht, hw⟩ := h
    rw [← pushAddr_zero_eq] at ht
    rw [ih hw fun j hj => ?_]
    · exact read_other_after_write ht (hb 0 (by simp))
    · rw [pushAddr_succ, write_target ht, write_target ht]
      exact hb (j + 1) (by simpa using hj)

/-- Pushed bytes read back. -/
theorem pushedTo_read {s w : State} {sp : Byte} {l : List Byte} (h : PushedTo s sp l w)
    (hram : PushesInRam s sp l.length) {j : Nat} {v : Byte} (hv : l[j]? = some v) : w.read (pushAddr sp j) = .ok v := by
  induction l generalizing s sp j with
  | nil => simp at hv
  | cons b rest ih =>
    obtain ⟨t, ht, hw⟩ := h
    rw [← pushAddr_zero_eq] at ht
    cases j with
    | zero =>
      obtain rfl : b = v := by simpa using hv
      obtain ⟨hwf, hcell, hne⟩ := hram
      obtain ⟨key, hkey⟩ := hcell 0 (by simp)
      rw [pushedTo_read_other hw fun j hj => ?_]
      · exact read_after_write hwf hkey ht
      · rw [pushAddr_succ, write_target ht, write_target ht]
        exact hne 0 (j + 1) (by simp) (by simpa using hj) (by simp)
    | succ j =>
      rw [← pushAddr_succ]
      exact ih hw (hram.tail ht) (by simpa using hv)

/-- After `n` pushes the k-th pulled byte is the pushed byte n - k (rule R180). -/
theorem pullAddr_sub (sp : Byte) {n k : Nat} (h : k ≤ n) :
    pullAddr (sp - BitVec.ofNat 8 n) k = pushAddr sp (n - k) := by
  obtain ⟨d, rfl⟩ := Nat.exists_eq_add_of_le h
  have hsp : sp - BitVec.ofNat 8 (k + d) + BitVec.ofNat 8 k = sp - BitVec.ofNat 8 d := by
    rw [BitVec.ofNat_add]
    bv_omega
  rw [pullAddr, hsp, Nat.add_sub_cancel_left, pushAddr]

/-- The bytes pulled after a sequence of pushes: the pushed ones, the last first. -/
theorem pushedTo_pull {s w : State} {sp : Byte} {l : List Byte} (h : PushedTo s sp l w)
    (hram : PushesInRam s sp l.length) {k : Nat} {v : Byte} (hk : k ≤ l.length) (hv : l[l.length - k]? = some v) :
    w.read (pullAddr (sp - BitVec.ofNat 8 l.length) k) = .ok v := by
  rw [pullAddr_sub sp hk]
  exact pushedTo_read h hram hv

end Sys2Proof.Machine
end

section
/-! Stack and control instructions and the interrupts (rules R180 to R188 and R253 to R258). -/

namespace Sys2Proof.Machine

/-- An instruction of format IMP completes where its operation does, and asks for no extra cycle. -/
theorem exec_imp_next {i : Instr} {operation : Ea → State → Access State} {s t : State} (hwf : WellFormed i)
    (hne : i.mnemonic ≠ .undoc) (himp : i.operand = .imp)
    (hexec : exec i s = execute i.mnemonic i.operand operation s)
    (ht : operation { addr := 0, crossed := false } (s.after i 0) = .ok t) : exec i s = .next t := by
  rw [hexec, execute_after (opcode_eq hne) hwf.1 hne (address_imp himp s) ht]
  rfl

/-- A push at a claimed stack location completes. -/
theorem push_of_claims {s : State} (h : s.claims (pushAddr s.sp 0) = true) (v : Byte) : ∃ t, s.push v = .ok t :=
  (push_accesses s v).2 (by simpa using h)

/-- The status copy of PHP and BRK, whose U the fetch has set already. -/
theorem pushedByProgram_after (p : Byte) : pushedByProgram (putFlag p .u true) = p ||| 0x30 := by
  revert p
  decide

/-- Settles O35: both are one push of a byte the common part leaves. -/
theorem pushesStoreAndDecrement : Obligations.PushesStoreAndDecrement := by
  refine ⟨⟨rfl, rfl⟩, ⟨rfl, rfl⟩, fun s hclaim => ?_⟩
  rw [← pushAddr_zero_eq] at hclaim
  constructor
  · obtain ⟨t, ht⟩ := push_of_claims (s := s.after .pha 0) hclaim s.a
    obtain ⟨w, hw, rfl⟩ := pushedTo_push ht
    exact ⟨w, hw, exec_imp_next (by decide) (by decide) rfl rfl ht⟩
  · obtain ⟨t, ht⟩ := push_of_claims (s := s.after .php 0) hclaim (pushedByProgram (putFlag s.p .u true))
    obtain ⟨w, hw, rfl⟩ := pushedTo_push ht
    exact ⟨w, pushedByProgram_after s.p ▸ hw, exec_imp_next (by decide) (by decide) rfl rfl ht⟩

theorem stackAddr_pull_two (sp : Byte) : stackAddr (sp + 1 + 1) = pullAddr sp 2 := by
  rw [pullAddr_one, pullAddr_succ]

theorem stackAddr_pull_three (sp : Byte) : stackAddr (sp + 1 + 1 + 1) = pullAddr sp 3 := by
  rw [stackAddr_pull_two, pullAddr_succ]

/-- Settles O36: both are one pull. -/
theorem pullsIncrementAndLoad : Obligations.PullsIncrementAndLoad := by
  refine ⟨⟨rfl, rfl⟩, ⟨rfl, rfl⟩, fun s v hv => ?_⟩
  rw [← pullAddr_one] at hv
  have hpull (i : Instr) : (s.after i 0).pull = .ok (v, (s.after i 0).setSp (s.sp + 1)) := pull_ok.mpr ⟨v, hv, rfl⟩
  refine ⟨⟨setZN (putFlag s.p .u true) v, ?_, flagsAre_setZN s.p v⟩, ?_⟩
  · exact exec_imp_next (by decide) (by decide) rfl rfl (access_bind_ok.mpr ⟨_, hpull .pla, rfl⟩)
  · exact exec_imp_next (by decide) (by decide) rfl rfl (access_bind_ok.mpr ⟨_, hpull .plp, rfl⟩)

/-- JSR where its pushes complete: its own address + 2 is pushed, and PC is the target. -/
theorem exec_jsr_next {s t : State} {target : Addr} (h : (s.after (.jsr target) 0).pushWord (s.pc + 2) = .ok t) :
    exec (.jsr target) s = .next (t.setPc target) := by
  have hpc : (s.after (.jsr target) 0).pc - 1 = s.pc + 2 := by
    show s.pc + 3 - 1 = s.pc + 2
    bv_omega
  rw [← hpc] at h
  exact execute_after (i := .jsr target) (mn := .jsr) (ea := { addr := target, crossed := false })
    (operation := fun ea t => do
      let t ← t.pushWord (t.pc - 1)
      .ok (t.setPc ea.addr))
    rfl (List.mem_singleton.mpr rfl) (by decide) rfl (access_bind_ok.mpr ⟨t, h, rfl⟩)

/-- Settles O37: JSR pushes the word at its own third byte. -/
theorem jsrPushesItsLastByte : Obligations.JsrPushesItsLastByte := by
  refine ⟨fun target => ⟨rfl, rfl⟩, fun s target hhi hlo => ?_⟩
  have hclaims : ∀ a ∈ [pushAddr s.sp 0, pushAddr s.sp 1], s.claims a = true := by
    rw [← pushAddr_zero_eq] at hhi hlo
    rw [pushAddr_succ] at hlo
    simp [hhi, hlo]
  obtain ⟨t, ht⟩ := (pushWord_accesses (s.after (.jsr target) 0) (s.pc + 2)).2 hclaims
  obtain ⟨w, hw, rfl⟩ := pushedTo_pushWord ht
  exact ⟨w, _, _, hw, ofNat_hiByte_loByte _, exec_jsr_next ht⟩

/-- RTS where its stack bytes read (rule R186). -/
theorem exec_rts_next {s : State} {lo hi : Byte} (hlo : s.read (pullAddr s.sp 1) = .ok lo)
    (hhi : s.read (pullAddr s.sp 2) = .ok hi) :
    exec .rts s = .next { s.after .rts 0 with sp := s.sp + 2, pc := wordOf lo hi + 1 } := by
  rw [← pullAddr_one] at hlo
  rw [← stackAddr_pull_two] at hhi
  have htwo : s.sp + 2 = s.sp + 1 + 1 := by bv_omega
  rw [htwo]
  exact exec_imp_next (by decide) (by decide) rfl rfl
    (access_bind_ok.mpr ⟨_, pullWord_ok.mpr ⟨lo, hi, hlo, hhi, rfl⟩, rfl⟩)

/-- RTI where its stack bytes read (rule R187). -/
theorem exec_rti_next {s : State} {v lo hi : Byte} (hv : s.read (pullAddr s.sp 1) = .ok v)
    (hlo : s.read (pullAddr s.sp 2) = .ok lo) (hhi : s.read (pullAddr s.sp 3) = .ok hi) :
    exec .rti s = .next { s.after .rti 0 with sp := s.sp + 3, p := pulledStatus v, pc := wordOf lo hi } := by
  rw [← pullAddr_one] at hv
  rw [← stackAddr_pull_two] at hlo
  rw [← stackAddr_pull_three] at hhi
  have hthree : s.sp + 3 = s.sp + 1 + 1 + 1 := by bv_omega
  rw [hthree]
  exact exec_imp_next (by decide) (by decide) rfl rfl (trapReturn_ok.mpr ⟨v, lo, hi, hv, hlo, hhi, rfl⟩)

/-- Settles O38: both pull the low byte of PC before the high one. -/
theorem returnsPullThePc : Obligations.ReturnsPullThePc := by
  refine ⟨⟨rfl, rfl⟩, ⟨rfl, rfl⟩, fun s lo hi hlo hhi => ?_, fun s v lo hi hv hlo hhi => ?_⟩
  · have hpc : wordOf lo hi + 1 = BitVec.ofNat 16 (hi.toNat * 256 + lo.toNat + 1) := by
      rw [wordOf_eq_ofNat]
      exact (BitVec.ofNat_add _ 1).symm
    rw [exec_rts_next hlo hhi, hpc]
  · rw [exec_rti_next hv hlo hhi, wordOf_eq_ofNat]
    rfl

/-- Settles O39: BRK is a trap entry, whatever I holds. -/
theorem brkTakesTheTrap : Obligations.BrkTakesTheTrap := by
  refine ⟨⟨rfl, rfl⟩, fun s hclaims => ?_⟩
  have hret : (s.after .brk 0).pc + 1 = s.pc + 2 := by
    show s.pc + 1 + 1 = s.pc + 2
    bv_omega
  obtain ⟨t, ht⟩ := (trapEntry_accesses (s.after .brk 0) ((s.after .brk 0).pc + 1)
    (pushedByProgram (putFlag s.p .u true)) irqVector).2 hclaims
  refine ⟨t, exec_imp_next (by decide) (by decide) rfl rfl ht, ?_⟩
  have htaken := trapTaken_of_trapEntry ht
  rw [hret, pushedByProgram_after] at htaken
  exact htaken

/-- irq() with I set (rule R253). -/
theorem irq_masked {s : State} (h : s.flag .i = true) : irq s = .ok s := if_pos h

/-- irq() with I clear (rule R253). -/
theorem irq_unmasked {s : State} (h : s.flag .i = false) :
    irq s = trapEntry s.pc (pushedByInterrupt s.p) irqVector s >>= fun t => .ok (t.setCycles 7) := by
  rw [irq, h]
  rfl

theorem applyEvent_irq {s : State} (h : s.started = true) : applyEvent .irq s = conclude (irq s) := if_pos h

theorem applyEvent_nmi {s : State} (h : s.started = true) : applyEvent .nmi s = conclude (nmi s) := if_pos h

/-- Settles O40: irq() is nothing or a trap entry, whose accesses are those of a trap. -/
theorem irqIsMaskedByI : Obligations.IrqIsMaskedByI := by
  intro s hstarted
  rw [applyEvent_irq hstarted]
  have haccesses := trapEntry_accesses s s.pc (pushedByInterrupt s.p) irqVector
  refine ⟨fun hi => ?_, fun hi hclaims => ?_, fun hi a ha => ?_⟩
  · rw [irq_masked hi]
    rfl
  · obtain ⟨t, ht⟩ := haccesses.2 hclaims
    refine ⟨t, ?_, trapTaken_of_trapEntry ht⟩
    rw [irq_unmasked hi, ht]
    rfl
  · rw [irq_unmasked hi, haccesses.1 a ha]
    rfl

/-- Settles O41: nmi() is a trap entry, which sets I and so masks the irq() after it. -/
theorem nmiIsUnconditional : Obligations.NmiIsUnconditional := by
  intro s hstarted
  rw [applyEvent_nmi hstarted]
  have haccesses := trapEntry_accesses s s.pc (pushedByInterrupt s.p) nmiVector
  refine ⟨fun hclaims => ?_, fun a ha => ?_⟩
  · obtain ⟨t, ht⟩ := haccesses.2 hclaims
    refine ⟨t, ?_, trapTaken_of_trapEntry ht, ?_⟩
    · rw [nmi, ht]
      rfl
    · have hi : getFlag t.p .i = true := by rw [trapEntry_p ht, getFlag_putFlag_same]
      obtain ⟨-, -, -, -, ht', -⟩ := (stores_trapEntry ht).frame
      rw [applyEvent_irq (s := { t with cycles := 8 }) (ht'.trans hstarted),
        irq_masked (s := { t with cycles := 8 }) hi]
      rfl
  · rw [nmi, haccesses.1 a ha]
    rfl

/-- Setting U again, as every fetch does. -/
theorem flagsAre_u_u (p : Byte) : FlagsAre (putFlag (putFlag p .u true) .u true) p [] := by
  intro f
  rw [getFlag_putFlag, getFlag_putFlag]
  cases f <;> simp

/-- Settles O42: the two pushed bytes read back, and RTS adds the 1 that JSR's return address lacks. -/
theorem rtsAfterJsrReturns : Obligations.RtsAfterJsrReturns := by
  intro s target hram
  have hclaims : ∀ a ∈ [pushAddr s.sp 0, pushAddr s.sp 1], s.claims a = true := by
    obtain ⟨-, hcell, -⟩ := stackInRam_iff.mp hram
    obtain ⟨k0, h0⟩ := hcell 0 (by decide)
    obtain ⟨k1, h1⟩ := hcell 1 (by decide)
    simp [State.claims, h0, h1]
  obtain ⟨r, hr⟩ := (pushWord_accesses (s.after (.jsr target) 0) (s.pc + 2)).2 hclaims
  have hjsr := exec_jsr_next hr
  obtain ⟨w, hw, rfl⟩ := pushedTo_pushWord hr
  have hram' : PushesInRam (s.after (.jsr target) 0) s.sp 2 := hram
  have hlo := pushedTo_pull hw hram' (k := 1) (by simp) rfl
  have hhi := pushedTo_pull hw hram' (k := 2) (by simp) rfl
  refine ⟨_, _, hjsr, exec_rts_next hlo hhi, ?_⟩
  obtain ⟨m, n, k, rfl⟩ := pushedTo_eq hw
  refine ⟨?_, ?_, rfl, rfl, rfl, flagsAre_u_u s.p⟩
  · show wordOf (loByte (s.pc + 2)) (hiByte (s.pc + 2)) + 1 = s.pc + 3
    rw [wordOf_loByte_hiByte]
    bv_omega
  · show s.sp - 2 + 2 = s.sp
    bv_omega

/-- RTI after a trap: it resumes at the return address with the pushed status, and everything else of the CPU as the
trap found it. -/
theorem rti_after_trap {s t : State} {ret vector : Addr} {status : Byte} (hram : StackInRam s 3)
    (h : TrapTaken s t ret status vector) (n : Nat) :
    ∃ u, exec .rti { t with cycles := n } = .next u ∧ u.pc = ret ∧ u.sp = s.sp ∧ u.a = s.a ∧ u.x = s.x ∧ u.y = s.y ∧
      u.p = pulledStatus status := by
  obtain ⟨w, hi, lo, vlo, vhi, hw, hret, -, -, rfl⟩ := h
  have hstatus := pushedTo_pull hw hram (k := 1) (by simp) rfl
  have hlo := pushedTo_pull hw hram (k := 2) (by simp) rfl
  have hhi := pushedTo_pull hw hram (k := 3) (by simp) rfl
  refine ⟨_, exec_rti_next hstatus hlo hhi, (wordOf_eq_ofNat lo hi).trans hret, ?_, ?_⟩
  · show s.sp - 3 + 3 = s.sp
    bv_omega
  · obtain ⟨m, n, k, rfl⟩ := pushedTo_eq hw
    exact ⟨rfl, rfl, rfl, rfl⟩

/-- The flags pulled from BRK's status copy: those of P, B and U set. -/
theorem flagsAre_pulled_brk (p : Byte) : FlagsAre (pulledStatus (p ||| 0x30)) p [(.b, true)] := by
  intro f
  have hcopy : p ||| 0x30 = putFlag (putFlag p .u true) .b true := by revert p; decide
  rw [getFlag_pulledStatus, hcopy, getFlag_putFlag, getFlag_putFlag]
  cases f <;> simp [List.lookup]

/-- The flags pulled from an interrupt's status copy: those of P, B clear and U set. -/
theorem flagsAre_pulled_interrupt (p : Byte) : FlagsAre (pulledStatus (pushedByInterrupt p)) p [(.b, false)] := by
  intro f
  have hcopy : pushedByInterrupt p = putFlag (putFlag p .b false) .u true := rfl
  rw [getFlag_pulledStatus, hcopy, getFlag_putFlag, getFlag_putFlag]
  cases f <;> simp [List.lookup]

/-- An irq() that is taken, or an nmi(), is a trap entry and a new count. -/
theorem interrupt_next {s t : State} (hstarted : s.started = true)
    (h : (s.flag .i = false ∧ applyEvent .irq s = .next t) ∨ applyEvent .nmi s = .next t) :
    ∃ r vector n, trapEntry s.pc (pushedByInterrupt s.p) vector s = .ok r ∧ t = r.setCycles n := by
  rcases h with ⟨hi, h⟩ | h
  · rw [applyEvent_irq hstarted, conclude_next, irq_unmasked hi] at h
    obtain ⟨r, hr, ht⟩ := access_bind_ok.mp h
    cases ht
    exact ⟨r, _, 7, hr, rfl⟩
  · rw [applyEvent_nmi hstarted, conclude_next] at h
    obtain ⟨r, hr, ht⟩ := access_bind_ok.mp h
    cases ht
    exact ⟨r, _, 8, hr, rfl⟩

/-- Settles O43: the three pushed bytes read back, and the status copy tells B. -/
theorem rtiAfterATrapResumes : Obligations.RtiAfterATrapResumes := by
  intro s t hram
  refine ⟨fun h => ?_, fun hstarted h => ?_⟩
  · have htaken := trapTaken_of_trapEntry (execBrk_inv h)
    rw [pushedByProgram_after] at htaken
    obtain ⟨u, hu, hpc, hsp, ha, hx, hy, hp⟩ := rti_after_trap (s := s.enter 0x00 .imp) hram htaken t.cycles
    exact ⟨u, hu, hpc, hsp, ha, hx, hy, .of_eq hp (flagsAre_pulled_brk s.p)⟩
  · obtain ⟨r, vector, n, hr, rfl⟩ := interrupt_next hstarted h
    obtain ⟨u, hu, hpc, hsp, ha, hx, hy, hp⟩ := rti_after_trap hram (trapTaken_of_trapEntry hr) n
    exact ⟨u, hu, hpc, hsp, ha, hx, hy, .of_eq hp (flagsAre_pulled_interrupt s.p)⟩

end Sys2Proof.Machine
end

section
/-! The host's calls (rules R25, R255, R265, R280 to R284 and R291) and the disassembly (rule R107). -/

namespace Sys2Proof.Machine

/-- Settles O44: reset() reads its vector and writes the CPU. -/
theorem resetWritesTheCpuAlone : Obligations.ResetWritesTheCpuAlone := by
  refine ⟨fun s lo hi hlo hhi => ?_, fun s a ha => ?_⟩
  · have hvector : s.readWord resetVector = .ok (wordOf lo hi) := readWord_ok.mpr ⟨lo, hi, hlo, hhi, rfl⟩
    have hreset := resetCpu_ok.mpr ⟨_, hvector, rfl⟩
    rw [applyEvent, hreset, wordOf_eq_ofNat]
    rfl
  · rw [applyEvent, resetCpu, (readWord_accesses s resetVector).1 a ha]
    rfl

set_option maxRecDepth 10000 in
/-- The default configuration on the reference wiring builds a machine. -/
theorem firstConfigError_reference : firstConfigError (defaultConfig (referenceWiring false)) = none := by
  decide

/-- Settles O45: the built machine is known field by field, and its vector reads 0x0000. -/
theorem resetStateIsTheBuiltMachineReset : Obligations.ResetStateIsTheBuiltMachineReset := by
  refine ⟨rfl, rfl, rfl, rfl, rfl, rfl, rfl, rfl, rfl, fun before => ?_⟩
  rw [buildMachine, firstConfigError_reference]
  refine ⟨_, rfl, ?_⟩
  rw [applyEvent, resetCpu_ok.mpr ⟨_, readWord_ok.mpr ⟨0, 0, rfl, rfl, rfl⟩, rfl⟩]
  rfl

/-- Settles O46: each refusal is a condition of the call. -/
theorem eventsOutOfPlaceAreRefused : Obligations.EventsOutOfPlaceAreRefused := by
  intro s a
  refine ⟨fun hstarted => ?_, rfl, fun hfault => ?_, fun hstarted hcycles => ?_, fun hstarted hcycles => ?_⟩
  · simp only [applyEvent, clock, hstarted, Bool.false_eq_true, if_false, and_self]
  · have hstep : step s = .fault (.busAbort a) := by simp only [step, advance, hfault]
    refine ⟨hstep, ?_⟩
    rw [hstep, State.latch, ← hfault]
  · have hcomplete : s.complete = true := beq_iff_eq.mpr hcycles
    rw [applyEvent, if_pos hstarted, forcePc, if_pos hcomplete]
    rfl
  · have hcomplete : ¬s.complete = true := fun h => hcycles (beq_iff_eq.mp h)
    rw [applyEvent, if_pos hstarted, forcePc, if_neg hcomplete]

/-- Settles O47: the branches of `advance` and of `clock`. -/
theorem stepIsTheNextCallOrOneTick : Obligations.StepIsTheNextCallOrOneTick := by
  intro s hfault
  exact ⟨fun e later hhost => by simp only [step, advance, hfault, hhost], fun hhost => step_eq_clock hfault hhost,
    fun hstarted hbusy => clock_busy hstarted hbusy, beq_iff_eq⟩

/-- Reading with Peek a well-formed instruction whose bytes stand at an address (rule R107). -/
theorem peekInstr_of_bytes {s : State} {i : Instr} {a : Addr} (hwf : WellFormed i)
    (hbytes : ∀ (k : Nat) (v : Byte), (encode i)[k]? = some v → s.peek (a + BitVec.ofNat 16 k) = .ok v) :
    s.peekInstr a = .ok i := by
  obtain ⟨op, hop, hformat⟩ := opcode_of_wf hwf
  rw [encode_of_opcode hop] at hbytes
  have hlength := bytes_length i.operand
  rw [← hformat] at hlength
  have h0 : s.peek a = .ok op := by
    have h := hbytes 0 op rfl
    rwa [show a + BitVec.ofNat 16 0 = a from BitVec.add_zero a] at h
  have hpresent (k : Nat) (hk : k + 2 ≤ (formatOf op).length) :
      s.peek (a + BitVec.ofNat 16 (k + 1)) = .ok (i.operand.bytes.getD k 0) := by
    have hlt : k < i.operand.bytes.length := by omega
    rw [List.getD_eq_getElem _ _ hlt]
    exact hbytes (k + 1) _ (List.getElem?_eq_getElem hlt)
  have habsent (k : Nat) (hk : ¬k + 2 ≤ (formatOf op).length) : i.operand.bytes.getD k 0 = 0 :=
    List.getD_eq_default _ _ (by omega)
  have hinstr := instrOf_of_opcode hop
  simp only [State.peekInstr, h0, access_ok_bind]
  split
  · next htwo =>
    have h1 : s.peek (a + 1) = .ok (i.operand.bytes.getD 0 0) := hpresent 0 htwo
    simp only [h1, access_ok_bind]
    split
    · next hthree =>
      have h2 : s.peek (a + 2) = .ok (i.operand.bytes.getD 1 0) := hpresent 1 hthree
      simp only [h2, access_ok_bind, hinstr]
    · next hthree =>
      rw [habsent 1 hthree] at hinstr
      rw [hinstr]
  · next htwo =>
    rw [habsent 0 htwo, habsent 1 (by omega)] at hinstr
    rw [if_neg (by omega), hinstr]

/-- The walk past the end of the range (rule R107). -/
theorem disassembleFrom_end (s : State) {a last : Nat} (fuel : Nat) (h : last < a) :
    s.disassembleFrom last fuel a = .ok [] := by
  cases fuel with
  | zero => rfl
  | succ fuel => exact if_pos h

/-- The walk inside the range: one instruction, and the walk after it. -/
theorem disassembleFrom_step (s : State) {a last : Nat} (fuel : Nat) (h : a ≤ last) :
    s.disassembleFrom last (fuel + 1) a = s.peekInstr (BitVec.ofNat 16 a) >>= fun i =>
      (s.disassembleFrom last fuel (a + i.length)).map
        fun lines => { address := BitVec.ofNat 16 a, instr := i } :: lines := by
  rw [State.disassembleFrom, if_neg (by omega)]
  rfl

/-- Any fuel of at least the rest of the range gives the same walk: an instruction is at least one byte long. -/
theorem disassembleFrom_fuel (s : State) (last : Nat) (fuel fuel' a : Nat) (h : last + 1 - a ≤ fuel)
    (h' : last + 1 - a ≤ fuel') : s.disassembleFrom last fuel a = s.disassembleFrom last fuel' a := by
  induction fuel generalizing a fuel' with
  | zero => rw [disassembleFrom_end s 0 (by omega), disassembleFrom_end s fuel' (by omega)]
  | succ fuel ih =>
    by_cases hend : last < a
    · rw [disassembleFrom_end s _ hend, disassembleFrom_end s _ hend]
    · obtain ⟨rest, rfl⟩ : ∃ rest, fuel' = rest + 1 := ⟨fuel' - 1, by omega⟩
      rw [disassembleFrom_step s _ (by omega), disassembleFrom_step s _ (by omega)]
      congr 1
      funext i
      have hpos : 1 ≤ i.length := (mode_length_pos i.operand.mode).1
      rw [ih rest (a + i.length) (by omega) (by omega)]

/-- Settles O50: the walk is taken apart one instruction at a time, and its reads are those of `peekInstr`. -/
theorem disassemblyReadsTheInstructions : Obligations.DisassemblyReadsTheInstructions := by
  refine ⟨fun s i a last fuel hwf ha _ hbytes => ?_, fun s a last fuel h => disassembleFrom_end s fuel h,
    fun s a last fuel ha _ hclaim => ?_, fun s op b a last fuel ha _ hop hb => ?_,
    fun s first last fuel hfuel => disassembleFrom_fuel s _ _ _ _ (Nat.le_refl _) hfuel,
    fun s first last => ⟨fun lines h => ?_, fun f h => ?_⟩⟩
  · have hpeek : s.peekInstr (BitVec.ofNat 16 a) = .ok i :=
      peekInstr_of_bytes hwf fun k v hk => by
        rw [← BitVec.ofNat_add]
        exact hbytes k v hk
    rw [disassembleFrom_step s fuel ha, hpeek]
    rfl
  · have hpeek : s.peek (BitVec.ofNat 16 a) = .error (.busAbort (BitVec.ofNat 16 a)) :=
      (read_error s).mpr ⟨claims_false.mp hclaim, rfl⟩
    rw [disassembleFrom_step s fuel ha, State.peekInstr, hpeek]
    rfl
  · simp only [BitVec.ofNat_add] at hb
    rw [disassembleFrom_step s fuel ha, (peekInstr_accesses s hop).1 b hb]
    rfl
  · simp only [applyEvent, observe, h]
  · simp only [applyEvent, observe, h]

end Sys2Proof.Machine
end

section
/-! The bus and the devices of the CPU side (rules R46 to R52, R64 to R70). -/

namespace Sys2Proof.Machine

/-- An address a device claims is in the decode table. -/
theorem target_of_device {s : State} {a : Addr} (h : ∃ d ∈ s.cfg.wiring, d.start ≤ a.toNat ∧ a.toNat ≤ d.stop) :
    ∃ t, s.target a = some t := by
  obtain ⟨d, hmem, hrange⟩ := h
  cases hclaim : claimFrom 0 a.toNat s.cfg.wiring with
  | none => exact absurd hrange (claimFrom_none.mp hclaim d hmem)
  | some found => exact ⟨targetIn found.1 found.2 a.toNat, by rw [State.target, hclaim, Option.map_some]⟩

/-- An address no device claims is not in the decode table. -/
theorem target_of_no_device {s : State} {a : Addr} (h : ∀ d ∈ s.cfg.wiring, ¬(d.start ≤ a.toNat ∧ a.toNat ≤ d.stop)) :
    s.target a = none := by
  rw [State.target, claimFrom_none.mpr h, Option.map_none]

/-- A Peek answers what a read answers: no device in scope has a read side effect (rule R60). -/
theorem peek_eq_read (s : State) (a : Addr) : s.peek a = s.read a := rfl

/-- Settles O6: the accesses and the host's Peek follow the decode table. -/
theorem busAnswersExactlyOnClaimedAddresses : Obligations.BusAnswersExactlyOnClaimedAddresses := by
  refine fun s a => ⟨fun hdevice => ?_, fun hnone => ?_⟩
  · obtain ⟨t, ht⟩ := target_of_device hdevice
    have hread := read_of_target s ht
    refine ⟨⟨_, hread, hread, fun b => ⟨_, write_of_target s ht b⟩⟩, ?_⟩
    rw [applyEvent, peek_eq_read, hread, observe]
  · have ht := target_of_no_device hnone
    have hread : s.read a = .error (.busAbort a) := (read_error s).mpr ⟨ht, rfl⟩
    refine ⟨hread, hread, fun b => (write_error s).mpr ⟨ht, rfl⟩, fun later hfault => ?_⟩
    have hpeek : ({ s with host := later } : State).peek a = .error (.busAbort a) := hread
    rw [(stepIsTheNextCallOrOneTick { s with host := .peek a :: later } hfault).1 _ later rfl, applyEvent, hpeek,
      observe]

/-- A write to a RAM byte: every address of that byte reads the written value, all others read as before. -/
theorem write_ram_byte {s : State} {a : Addr} {key : Nat} (hwf : s.mem.wf = true) (ht : s.target a = some (.cell key))
    (v : Byte) : ∃ t, s.write a v = .ok t ∧ (∀ b, s.target b = some (.cell key) → t.read b = .ok v) ∧
      ∀ b, s.target b ≠ some (.cell key) → t.read b = s.read b := by
  refine ⟨_, write_of_target s ht v, fun b hb => ?_, fun b hb => ?_⟩
  · exact read_after_write hwf hb (write_of_target s hb v)
  · exact read_other_after_write (write_of_target s ht v) (ht.symm ▸ hb)

/-- Settles O8. -/
theorem ramReadsTheMostRecentWrite : Obligations.RamReadsTheMostRecentWrite := by
  intro s a v key hwf ht
  rw [ht]
  exact write_ram_byte hwf ht v

/-- Where an access lands, by the device that claims its address. -/
theorem target_of_claim {s : State} {a : Addr} {i : Nat} {d : Device}
    (h : claimFrom 0 a.toNat s.cfg.wiring = some (i, d)) : s.target a = some (targetIn i d a.toNat) := by
  rw [State.target, h, Option.map_some]

/-- Two backing bytes have one key exactly where device and offset agree. -/
theorem cellKey_inj {i j x y : Nat} (hx : x < 65536) (hy : y < 65536) : cellKey i x = cellKey j y ↔ i = j ∧ x = y := by
  unfold cellKey
  omega

/-- Two devices share no backing byte. -/
theorem targetIn_ne_cell {i j x n : Nat} (e : Device) (hij : i ≠ j) (hx : x < 65536) (hn : n < 65536) :
    targetIn j e n ≠ .cell (cellKey i x) := by
  have hoffset (y : Nat) (hy : y < 65536) : Target.cell (cellKey j y) ≠ .cell (cellKey i x) := fun h =>
    hij ((cellKey_inj hx hy).mp (Target.cell.inj h).symm).1
  unfold targetIn
  split
  · exact hoffset _ (by omega)
  · exact hoffset _ (Nat.lt_of_le_of_lt (Nat.mod_le _ _) (by omega))
  · exact Target.noConfusion

/-- Settles O9: the key of a byte is the device's place and the offset in its store. -/
theorem mirroredRamRepeatsItsPage : Obligations.MirroredRamRepeatsItsPage := by
  intro s a b v i j d e hwf ha hb
  have hta := target_of_claim ha
  have htb := target_of_claim hb
  obtain ⟨-, hd, hstartA, -⟩ := claimFrom_some ha
  obtain ⟨-, he, hstartB, -⟩ := claimFrom_some hb
  have hdevice : i = j → e = d := by
    rintro rfl
    exact Option.some.inj (he.symm.trans hd)
  have hother (x : Nat) (hx : x < 65536) (hij : i ≠ j) : s.target b ≠ some (.cell (cellKey i x)) := fun h =>
    targetIn_ne_cell e hij hx b.isLt (Option.some.inj (htb.symm.trans h))
  refine ⟨fun pageSize _ hkind => ?_, fun hkind => ?_⟩
  · have hcell {n k : Nat} : targetIn k d n = .cell (cellKey k ((n - d.start) % pageSize)) := by
      rw [targetIn, hkind]
    have hlt (n : Nat) (hn : n < 65536) : (n - d.start) % pageSize < 65536 :=
      Nat.lt_of_le_of_lt (Nat.mod_le _ _) (by omega)
    rw [hcell] at hta
    obtain ⟨t, hwrite, hbyte, hframe⟩ := write_ram_byte hwf hta v
    refine ⟨t, hwrite, fun hij hoff => hbyte b ?_, fun hij hoff => hframe b ?_,
      fun hij => hframe b (hother _ (hlt _ a.isLt) hij)⟩
    · rw [htb, hdevice hij, hcell, hoff, hij]
    · rw [htb, hdevice hij, hcell]
      intro h
      exact hoff ((cellKey_inj (hlt _ b.isLt) (hlt _ a.isLt)).mp (Target.cell.inj (Option.some.inj h))).2
  · have hcell {n k : Nat} : targetIn k d n = .cell (cellKey k (n - d.start)) := by
      rw [targetIn, hkind]
    rw [hcell] at hta
    obtain ⟨t, hwrite, hbyte, hframe⟩ := write_ram_byte hwf hta v
    refine ⟨t, hwrite, fun hab => hbyte b (hab ▸ hta), fun hab => hframe b ?_⟩
    by_cases hij : i = j
    · rw [htb, hdevice hij, hcell]
      rw [hdevice hij] at hstartB
      intro h
      have hoff := ((cellKey_inj (by omega) (by omega)).mp (Target.cell.inj (Option.some.inj h))).2
      exact hab (BitVec.eq_of_toNat_eq (by omega))
    · exact hother _ (by omega) hij

/-- Settles O10: the PRG byte shown, and NROM's write. -/
theorem nromAndCnromShowFixedPrg : Obligations.NromAndCnromShowFixedPrg := by
  intro s a v ht hmapper
  refine ⟨?_, fun hnrom => ?_⟩
  · have hindex : s.prgIndex a = if s.cart.prgBanks = 1 then a.toNat % 16384 else a.toNat % 32768 := by
      rcases hmapper with h | h <;> simp only [State.prgIndex, h, toNat_and_o14, toNat_and_o15]
    rw [read_of_target s ht, State.deviceRead, hindex]
  · rw [write_of_target s ht, deviceWrite_mapper, State.mapperWrite, hnrom]

/-- Masking with a count that is a power of two is the remainder (rule R64). -/
theorem bankMask_two_pow (v k : Nat) : bankMask v (2 ^ k) = v % 2 ^ k := Nat.and_two_pow_sub_one_eq_mod v k

/-- Settles O11: the write stores the masked byte, and the windows show the register and the last bank. -/
theorem uxromSwitchesTheLowerWindow : Obligations.UxromSwitchesTheLowerWindow := by
  intro s a b v hmapper _ hta htb
  refine ⟨bankMask v.toNat s.cart.prgBanks, bankMask_le _ _, rfl, fun k hk => ?_, ?_, ?_⟩
  · rw [hk, bankMask_two_pow]
  · rw [write_of_target s hta, deviceWrite_mapper, State.mapperWrite, hmapper]
    rfl
  · have hread := read_of_target { s with prgBank := bankMask v.toNat s.cart.prgBanks } htb
    rw [hread]
    simp only [State.deviceRead, State.prgIndex, hmapper, toNat_and_o14]
    split <;> rfl

end Sys2Proof.Machine
end

section
/-! The PPU-side device (rules R70 and R71). -/

namespace Sys2Proof.Machine

/-- An address is in the CHR window exactly where it lies between its ends. -/
theorem inChrWindow_iff {s : State} {c : Addr} :
    s.inChrWindow c = true ↔ s.cfg.chrWindowStart ≤ c.toNat ∧ c.toNat ≤ s.cfg.chrWindowStop := by
  simp only [State.inChrWindow, Bool.and_eq_true, decide_eq_true_eq]

/-- The offset in the 8 KB window is a remainder. -/
theorem chrOffset_eq (s : State) (c : Addr) : s.chrOffset c = (c.toNat - s.cfg.chrWindowStart) % 8192 :=
  Nat.and_two_pow_sub_one_eq_mod _ 13

/-- A PPU-side read of the window with CHR-ROM. -/
theorem ppuRead_rom {s : State} {c : Addr} (hwindow : s.inChrWindow c = true) (hrom : s.cart.chrBanks ≠ 0) :
    s.ppuRead c = .ok (s.cart.chr.read (s.shownChrBank * 8192 + s.chrOffset c)) := by
  rw [State.ppuRead, if_pos hwindow, if_neg hrom]

/-- A PPU-side read of the window with CHR-RAM. -/
theorem ppuRead_ram {s : State} {c : Addr} (hwindow : s.inChrWindow c = true) (hram : s.cart.chrBanks = 0) :
    s.ppuRead c = .ok (s.chrRam.read (s.chrOffset c)) := by
  rw [State.ppuRead, if_pos hwindow, if_pos hram]

/-- A PPU-side read of the window after a change of CHR-RAM. -/
theorem ppuRead_setChrRam {s : State} {c : Addr} (m : Memory) (hwindow : s.inChrWindow c = true)
    (hram : s.cart.chrBanks = 0) : (s.setChrRam m).ppuRead c = .ok (m.read (s.chrOffset c)) :=
  ppuRead_ram (s := s.setChrRam m) hwindow hram

/-- Settles O12: the write stores the masked byte in the register, and the window shows that bank. -/
theorem cnromSelectsTheChrBank : Obligations.CnromSelectsTheChrBank := by
  intro s a c v hmapper ht hstart hstop
  have hwrite : s.write a v =
      .ok (s.setChrBank (if s.cart.chrBanks = 0 then 0 else bankMask v.toNat s.cart.chrBanks)) := by
    rw [write_of_target s ht, deviceWrite_mapper, State.mapperWrite, hmapper]
  refine ⟨_, hwrite, fun hnone => if_pos hnone, fun hbanks => ?_⟩
  have hrom : s.cart.chrBanks ≠ 0 := by omega
  rw [if_neg hrom]
  refine ⟨rfl, bankMask_le _ _, ?_⟩
  have hread := ppuRead_rom (s := { s with chrBank := bankMask v.toNat s.cart.chrBanks })
    (inChrWindow_iff.mpr ⟨hstart, hstop⟩) hrom
  rw [hread]
  simp only [State.shownChrBank, hmapper, chrOffset_eq]

/-- Settles O13: in a window of 8192 addresses the offsets of two addresses differ. -/
theorem ppuSideDevice : Obligations.PpuSideDevice := by
  refine ⟨fun s c e v hwf hlegal hc hc' he he' => ?_, fun s c v hout => ?_⟩
  · obtain ⟨-, -, -, hsize, -⟩ := hlegal
    have hinC : s.inChrWindow c = true := inChrWindow_iff.mpr ⟨hc, hc'⟩
    have hinE : s.inChrWindow e = true := inChrWindow_iff.mpr ⟨he, he'⟩
    have hoffset {x : Addr} (h : s.cfg.chrWindowStart ≤ x.toNat) (h' : x.toNat ≤ s.cfg.chrWindowStop) :
        s.chrOffset x = x.toNat - s.cfg.chrWindowStart := by
      rw [chrOffset_eq]
      omega
    refine ⟨fun hram => ?_, fun hrom => ?_, fun hrom hmapper => ?_, ?_⟩
    · refine ⟨s.setChrRam (s.chrRam.write (s.chrOffset c) v), ?_, ?_, fun hne => ?_, rfl⟩
      · rw [applyEvent, State.ppuWrite, if_pos hinC, if_pos hram]
      · rw [ppuRead_setChrRam _ hinC hram, Memory.read_write_same hwf]
      · have hkeys : s.chrOffset e ≠ s.chrOffset c := fun h => by
          rw [hoffset he he', hoffset hc hc'] at h
          exact hne (BitVec.eq_of_toNat_eq (by omega))
        rw [ppuRead_setChrRam _ hinE hram, ppuRead_ram hinE hram, Memory.read_write_other _ hkeys]
    · rw [applyEvent, State.ppuWrite, if_pos hinC, if_neg hrom]
    · have hbank : s.shownChrBank = 0 := by
        unfold State.shownChrBank
        split
        · next h => exact absurd h hmapper
        · rfl
        · rfl
      rw [ppuRead_rom hinC hrom, hbank, hoffset hc hc', Nat.zero_mul, Nat.zero_add]
    · rw [applyEvent, observePpu, State.ppuRead, if_pos hinC]
  · have hwindow : ¬s.inChrWindow c = true := fun h => by
      obtain ⟨h1, h2⟩ := inChrWindow_iff.mp h
      omega
    constructor
    · rw [applyEvent, observePpu, State.ppuRead, if_neg hwindow]
    · rw [applyEvent, State.ppuWrite, if_neg hwindow]

end Sys2Proof.Machine
end

section
/-! Loading a cartridge and building a machine (rules R26, R48, R52, R61 to R65 and R284). -/

namespace Sys2Proof.Machine

/-- The header names a mapper exactly where its mapper ID is one of the three numbers (rule R63). -/
theorem mapperOf_isSome {cfg : Config} {id : Byte} :
    (∃ m, mapperOf cfg id = some m) ↔ id ∈ [cfg.mapperIdNrom, cfg.mapperIdUxrom, cfg.mapperIdCnrom] := by
  simp only [List.mem_cons, List.not_mem_nil, or_false]
  unfold mapperOf
  split
  · next h => simp [h]
  · split
    · next h => simp [h]
    · split <;> simp [*]

/-- The first four bytes of an image with a header. -/
theorem take_four {image : List Byte} (h : 16 ≤ image.length) :
    image.take 4 = [headerByte image 0, headerByte image 1, headerByte image 2, headerByte image 3] := by
  match image, h with
  | b0 :: b1 :: b2 :: b3 :: rest, _ => rfl

/-- The cartridge of an accepted image (rules R61 and R62). -/
def imageCartridge (image : List Byte) (mapper : MapperKind) : Cartridge where
  mapper := mapper
  mapperId := headerMapperId image
  prgBanks := (headerByte image 4).toNat
  chrBanks := (headerByte image 5).toNat
  mirroring := (headerByte image 6).getLsbD 0
  extRam := (headerByte image 6).getLsbD 1
  prg := Memory.ofBytes 0 ((image.drop 16).take ((headerByte image 4).toNat * 16384))
  chr := Memory.ofBytes 0
    (((image.drop 16).drop ((headerByte image 4).toNat * 16384)).take ((headerByte image 5).toNat * 8192))

/-- A check that refuses is passed exactly where its condition is false. -/
theorem ite_error_ok {ε α : Type} {p : Prop} [Decidable p] {e : ε} {x : Except ε α} {v : α} :
    (if p then .error e else x) = .ok v ↔ ¬p ∧ x = .ok v := by
  by_cases h : p <;> simp [h]

/-- The load answers the image's cartridge exactly where every check is passed (rules R61 to R63). -/
theorem loadCartridge_ok {cfg : Config} {image : List Byte} {c : Cartridge} : loadCartridge cfg image = .ok c ↔
    16 ≤ image.length ∧ image.take 4 = headerMagic ∧ (headerByte image 4).toNat ≠ 0 ∧
      ∃ mapper, mapperOf cfg (headerMapperId image) = some mapper ∧
        (headerByte image 10).extractLsb' 0 2 = cfg.tvNtsc ∧ (headerByte image 6).getLsbD 2 = false ∧
        16 + (headerByte image 4).toNat * 16384 + (headerByte image 5).toNat * 8192 ≤ image.length ∧
        c = imageCartridge image mapper := by
  simp only [loadCartridge, ite_error_ok, Nat.not_lt, not_not]
  refine and_congr_right fun hheader => and_congr_right fun _ => and_congr_right fun _ => ?_
  have hsize : (headerByte image 4).toNat * 16384 + (headerByte image 5).toNat * 8192 ≤ (image.drop 16).length ↔
      16 + (headerByte image 4).toNat * 16384 + (headerByte image 5).toNat * 8192 ≤ image.length := by
    rw [List.length_drop]
    omega
  cases mapperOf cfg (headerMapperId image) with
  | none => simp
  | some mapper =>
    simp only [ite_error_ok, not_not, Bool.not_eq_true, Nat.not_lt, hsize, Option.some.injEq, exists_eq_left',
      Except.ok.injEq, eq_comm (a := c)]
    rfl

/-- The store of `count` payload bytes from the one numbered `first` on. -/
theorem read_ofBytes_payload (image : List Byte) {first count n : Nat} (h : n < count) :
    (Memory.ofBytes 0 (((image.drop 16).drop first).take count)).read n = image.getD (16 + first + n) 0 := by
  have hread := Memory.read_ofBytes 0 (((image.drop 16).drop first).take count) n
  rw [Nat.zero_add] at hread
  rw [hread, List.getD_eq_getElem?_getD, List.getD_eq_getElem?_getD, List.getElem?_take_of_lt h, List.drop_drop,
    List.getElem?_drop]
  rfl

/-- Settles O14: the checks of the load in order, and the fields of the cartridge. -/
theorem cartridgeLoadFollowsTheHeader : Obligations.CartridgeLoadFollowsTheHeader := by
  intro cfg image byte mapperId accepted
  refine ⟨?_, fun c h => ?_⟩
  · have hmagic : 16 ≤ image.length → (image.take 4 = headerMagic ↔
        byte 0 = 0x4E ∧ byte 1 = 0x45 ∧ byte 2 = 0x53 ∧ byte 3 = 0x1A) := fun h => by
      rw [take_four h]
      simp only [headerMagic, List.cons.injEq, and_true]
      rfl
    constructor
    · rintro ⟨hlen, h0, h1, h2, h3, hprg, hmapper, htv, htrainer, hsize⟩
      obtain ⟨mapper, hm⟩ := mapperOf_isSome.mpr hmapper
      exact ⟨_, loadCartridge_ok.mpr ⟨hlen, (hmagic hlen).mpr ⟨h0, h1, h2, h3⟩, Nat.one_le_iff_ne_zero.mp hprg, mapper,
        hm, htv, htrainer, hsize, rfl⟩⟩
    · rintro ⟨c, hc⟩
      obtain ⟨hlen, htake, hprg, mapper, hm, htv, htrainer, hsize, -⟩ := loadCartridge_ok.mp hc
      obtain ⟨h0, h1, h2, h3⟩ := (hmagic hlen).mp htake
      exact ⟨hlen, h0, h1, h2, h3, Nat.one_le_iff_ne_zero.mpr hprg, mapperOf_isSome.mp ⟨mapper, hm⟩, htv, htrainer,
        hsize⟩
  · obtain ⟨-, -, -, mapper, hm, -, -, -, rfl⟩ := loadCartridge_ok.mp h
    exact ⟨rfl, rfl, rfl, hm, rfl, rfl, Memory.wf_ofBytes _ _, Memory.wf_ofBytes _ _,
      fun n hn => read_ofBytes_payload image (first := 0) hn, fun n hn => read_ofBytes_payload image hn⟩

/-- A registration is legal exactly under the range, mirror and mapper rules (R48, R52 and R65). -/
theorem wiringError_none {d : Device} : wiringError d = none ↔ d.start ≤ d.stop ∧ d.stop ≤ 0xFFFF ∧
    (∀ pageSize, d.kind = .mirroredRam pageSize →
      pageSize ≠ 0 ∧ pageSize ∣ d.start ∧ pageSize ∣ d.stop - d.start + 1) ∧
    (d.kind = .prgMapper → d.start = 0x8000 ∧ d.stop = 0xFFFF) := by
  unfold wiringError
  split
  · next h => exact iff_of_false (Option.some_ne_none _) (by omega)
  · next h =>
    have hrange : d.start ≤ d.stop ∧ d.stop ≤ 0xFFFF := by omega
    cases hkind : d.kind with
    | ram => simp [hrange]
    | mirroredRam pageSize =>
      simp [hrange, Nat.dvd_iff_mod_eq_zero]
    | prgMapper => simp [hrange]

/-- Settles O15: the checks of the configuration, and the state built. -/
theorem illegalWiringBuildsNoMachine : Obligations.IllegalWiringBuildsNoMachine := by
  intro cfg cart ramInit chrRamInit before
  refine ⟨?_, fun s h => ?_⟩
  · rw [buildMachine_ok, configLegal, firstWiringError, List.findSome?_eq_none_iff]
    simp only [wiringError_none]
    tauto
  · unfold buildMachine at h
    split at h
    · cases h
    · cases h
      refine ⟨rfl, rfl, rfl, rfl, rfl, rfl, bankAtLoad_of_lt, bankAtLoad_of_lt, fun hnone => ?_⟩
      have hle := bankAtLoad_le cfg.bankReset cart.chrBanks
      rw [hnone] at hle ⊢
      exact Nat.le_zero.mp hle

end Sys2Proof.Machine
end
